-- ==== Sys2Proof/Word.lean ====
section
/-! DEFINITION. The word types of the GFRS block: the 8-bit symbol and the 32-bit command word (rules R6, R7, R100). -/

namespace Sys2Proof

/-- A field element or a buffer byte: 8 bits, unsigned (rules R7, R100). -/
abbrev Byte := BitVec 8

/-- A command word, a control-register value or host data: 32 bits, passed whole by the host port (rules R66, R80). -/
abbrev Word := BitVec 32

end Sys2Proof
end

