-- ==== Sys2Proof/Syntax.lean ====
section
/-! DEFINITION. What the host can send to the block: the twelve commands (rules R2, R86) and the four host operations
(rules R61, R89). The pseudo-operations of rule R90 expand to these and need no constructor. -/

namespace Sys2Proof

/-- The twelve commands, one constructor per row of the opcode map (rule R86), with the operands of rule R82. -/
inductive Instr where
  /-- `NOP` (rule R200). -/
  | nop
  /-- `GFMUL a, b` (rule R110). -/
  | gfmul (a b : Byte)
  /-- `GFDIV a, b`: dividend `a`, divisor `b` (rule R111). -/
  | gfdiv (a b : Byte)
  /-- `GFPOW a, e`: base `a`, 16-bit exponent `e` (rule R112). -/
  | gfpow (a : Byte) (e : BitVec 16)
  /-- `GFINV a` (rule R113). -/
  | gfinv (a : Byte)
  /-- `RSENC` (rule R135). -/
  | rsenc
  /-- `RSDEC` (rule R176). -/
  | rsdec
  /-- `SYND` (rule R152). -/
  | synd
  /-- `BMA` (rule R155). -/
  | bma
  /-- `CHIEN` (rule R171). -/
  | chien
  /-- `FORNEY` (rule R174). -/
  | forney
  /-- `CLRF` (rule R201). -/
  | clrf
deriving DecidableEq, Repr

/-- One line of a host script: one of the four host operations, the only ways to act on the block (rules R61, R89).
A space number has 4 bits and an index 16 (rule R60). -/
inductive HostOp where
  /-- `HostRead(space, index)` (rule R63). -/
  | read (space : BitVec 4) (index : BitVec 16)
  /-- `HostWrite(space, index, data)` (rule R64). -/
  | write (space : BitVec 4) (index : BitVec 16) (data : Word)
  /-- `HostCmd(word)` (rule R217). -/
  | cmd (word : Word)
  /-- `HostReset` (rule R240). -/
  | reset
deriving DecidableEq, Repr

end Sys2Proof
end

