-- ==== Sys2Proof/WellFormed.lean ====
section
/-! DEFINITION. Which 32-bit words are commands, read off the match and mask columns of the opcode map (rules R83, R86), and
which instructions are well formed. The decoder does not use this table: it follows the ordered procedure of rule R83, and
that the two agree is a claim. -/

namespace Sys2Proof

/-- One row of the opcode map (rule R86). -/
structure OpRow where
  mnemonic : String
  pattern  : Word
  mask     : Word
deriving DecidableEq, Repr

/-- The opcode map of rule R86, in its order. -/
def opTable : List OpRow :=
  [⟨"NOP",    0x00000000, 0xFFFFFFFF⟩,
   ⟨"GFMUL",  0x00000001, 0xFF0000FF⟩,
   ⟨"GFDIV",  0x00000002, 0xFF0000FF⟩,
   ⟨"GFPOW",  0x00000003, 0x000000FF⟩,
   ⟨"GFINV",  0x00000004, 0xFFFF00FF⟩,
   ⟨"RSENC",  0x00000010, 0xFFFFFFFF⟩,
   ⟨"RSDEC",  0x00000011, 0xFFFFFFFF⟩,
   ⟨"SYND",   0x00000012, 0xFFFFFFFF⟩,
   ⟨"BMA",    0x00000013, 0xFFFFFFFF⟩,
   ⟨"CHIEN",  0x00000014, 0xFFFFFFFF⟩,
   ⟨"FORNEY", 0x00000015, 0xFFFFFFFF⟩,
   ⟨"CLRF",   0x0000001F, 0xFFFFFFFF⟩]

/-- A word matches a row when `(w & mask) = match` (rule R86). -/
def OpRow.matches (r : OpRow) (w : Word) : Bool := w &&& r.mask == r.pattern

/-- A word is legal iff it matches some row (rule R83, last sentence). -/
def legalWord (w : Word) : Bool := opTable.any (fun r => r.matches w)

/-- Every instruction term is well formed: the operand types are exactly the field widths of rule R82 and no value of a
field is reserved, so there is nothing left to check. The checks of this language are on words, `legalWord`. -/
def Instr.wellFormed : Instr → Bool
  | .nop => true
  | .gfmul _ _ => true
  | .gfdiv _ _ => true
  | .gfpow _ _ => true
  | .gfinv _ => true
  | .rsenc => true
  | .rsdec => true
  | .synd => true
  | .bma => true
  | .chien => true
  | .forney => true
  | .clrf => true

end Sys2Proof
end

