-- ==== Sys2Proof/Decode.lean ====
section
/-! DEFINITION. The decoder, by the ordered procedure of rule R83, total on all 2^32 words and rejecting by name, and after it
the encoder (rules R81, R82, R86). A command word is passed whole by the host port (rule R66), so there is no byte order here. -/

namespace Sys2Proof

/-- Why a word is no command. Both make the word illegal (rule R214). -/
inductive Reject where
  /-- `word[7:0]` is none of the twelve opcodes (rule R85). -/
  | unknownOpcode
  /-- A known opcode with a 1 in its format's zero field (rule R84). -/
  | reservedBits
deriving DecidableEq, Repr

/-- `word[7:0]`, the opcode in every format (rule R80). -/
def opcodeOf (w : Word) : Byte := w.extractLsb' 0 8

/-- The operand `a = word[15:8]` (rule R82). -/
def fieldA (w : Word) : Byte := w.extractLsb' 8 8

/-- The operand `b = word[23:16]` (rule R82). -/
def fieldB (w : Word) : Byte := w.extractLsb' 16 8

/-- The exponent `e = word[31:16]` (rule R82). -/
def fieldE (w : Word) : BitVec 16 := w.extractLsb' 16 16

/-- Format `Z`: bits 31:8 must be zero (rules R81, R84). -/
def decodeZ (w : Word) (i : Instr) : Except Reject Instr :=
  if w.extractLsb' 8 24 = 0 then .ok i else .error .reservedBits

/-- Format `A`: bits 31:16 must be zero (rules R81, R84). -/
def decodeA (w : Word) (i : Byte → Instr) : Except Reject Instr :=
  if w.extractLsb' 16 16 = 0 then .ok (i (fieldA w)) else .error .reservedBits

/-- Format `AB`: bits 31:24 must be zero (rules R81, R84). -/
def decodeAB (w : Word) (i : Byte → Byte → Instr) : Except Reject Instr :=
  if w.extractLsb' 24 8 = 0 then .ok (i (fieldA w) (fieldB w)) else .error .reservedBits

/-- Format `AE`: no reserved bit (rules R81, R112). -/
def decodeAE (w : Word) (i : Byte → BitVec 16 → Instr) : Except Reject Instr :=
  .ok (i (fieldA w) (fieldE w))

/-- Decoding a word: opcode first, then the zero field of the opcode's format, then the operands (rule R83). -/
def decode (w : Word) : Except Reject Instr :=
  match (opcodeOf w).toNat with
  | 0x00 => decodeZ w .nop
  | 0x01 => decodeAB w .gfmul
  | 0x02 => decodeAB w .gfdiv
  | 0x03 => decodeAE w .gfpow
  | 0x04 => decodeA w .gfinv
  | 0x10 => decodeZ w .rsenc
  | 0x11 => decodeZ w .rsdec
  | 0x12 => decodeZ w .synd
  | 0x13 => decodeZ w .bma
  | 0x14 => decodeZ w .chien
  | 0x15 => decodeZ w .forney
  | 0x1F => decodeZ w .clrf
  | _ => .error .unknownOpcode

/-- The instruction of a table word of `nbits` bits, numbered as the opcode table numbers them; bits above are zero. A
command is one 32-bit word (rule R80). -/
def decodeTableWord (nbits w : Nat) : Option Instr :=
  match decode (BitVec.ofNat 32 (w % 2 ^ nbits)) with
  | .ok i => some i
  | .error _ => none

/-- A word of format `Z` (rule R81). -/
def wordZ (op : Byte) : Word := 0#24 ++ op

/-- A word of format `A` (rule R81). -/
def wordA (op a : Byte) : Word := 0#16 ++ a ++ op

/-- A word of format `AB` (rule R81). -/
def wordAB (op a b : Byte) : Word := 0#8 ++ b ++ a ++ op

/-- A word of format `AE` (rule R81). -/
def wordAE (op a : Byte) (e : BitVec 16) : Word := e ++ a ++ op

/-- The command word of an instruction (rules R81, R86, R88). -/
def encode : Instr → Word
  | .nop => wordZ 0x00
  | .gfmul a b => wordAB 0x01 a b
  | .gfdiv a b => wordAB 0x02 a b
  | .gfpow a e => wordAE 0x03 a e
  | .gfinv a => wordA 0x04 a
  | .rsenc => wordZ 0x10
  | .rsdec => wordZ 0x11
  | .synd => wordZ 0x12
  | .bma => wordZ 0x13
  | .chien => wordZ 0x14
  | .forney => wordZ 0x15
  | .clrf => wordZ 0x1F

end Sys2Proof
end

