-- ==== Sys2Proof/Config.lean ====
section
/-! DEFINITION. The fixed parameters of the block (rule R6). The spec leaves one parameter open, `PORT_BINDING`
(entry U2 of 93_implementation_defined.md): it affects no rule and so has no constant here. -/

namespace Sys2Proof.Config

/-- The primitive polynomial x^8 + x^4 + x^3 + x^2 + 1, as a number (rules R6, R100). -/
def primitivePoly : Nat := 0x11D

/-- The number of nonzero field elements, the order of α (rules R6, R103). -/
def groupOrder : Nat := 255

/-- The number of entries of `EXP` (rule R21). -/
def expSize : Nat := 512

/-- The number of entries of `LOG` (rule R22). -/
def logSize : Nat := 256

/-- The number of entries of `CW` and of every polynomial or list store (rules R6, R26 to R33). -/
def storeSize : Nat := 256

/-- The codeword length ceiling: `DLEN + NSYM <= 255` (rules R6, R213). -/
def maxCodeword : Nat := 255

/-- The reset value of `DLEN` (rules R23, R40). -/
def resetDlen : Byte := 16

/-- The reset value of `NSYM` (rules R24, R40). -/
def resetNsym : Byte := 16

end Sys2Proof.Config
end

