-- ==== Sys2Proof/Machine/State.lean ====
section
/-! DEFINITION. The architectural state of the block (rule R20), its reset value (rule R40), and the reasons a step can stop. -/

namespace Sys2Proof.Machine

/-- A byte store (`CW` or one of the seven polynomial and list stores): the (index, byte) pairs of its nonzero entries,
indices strictly rising. An unlisted index reads as 0, the reset value the spec gives every store (rule R40). -/
abbrev Mem := List Host.Cell

/-- The two read-only tables, in rows of sixteen entries as rule R104 prints them (rules R21, R22). -/
structure Tables where
  /-- `EXP[0..511]`. -/
  exp : List (List Byte)
  /-- `LOG[0..255]`; entry 0 is unspecified by the spec (rule R22). -/
  log : List (List Byte)
deriving DecidableEq, Repr

/-- The tables right after reset (rules R104, R240). -/
def Tables.reset : Tables := { exp := expLow ++ expHigh, log := logRows }

/-- `STATUS.RESULT` (rule R35). The value 3 never occurs. -/
inductive Result where
  | none | ok | fail
deriving DecidableEq, Repr

/-- `STATUS.CAUSE`, the failure causes (rules R35, R219). The values 4 to 15 never occur. -/
inductive FailCause where
  | none | tooManyErrors | verificationFailed | degenerateLocator
deriving DecidableEq, Repr

/-- `STATUS.FAULT`, the fault causes (rules R35, R211). The values 5 to 15 never occur. -/
inductive FaultCause where
  | none | divisionByZero | configError | illegalCommand | badAccess
deriving DecidableEq, Repr

/-- `STATUS`, a register read-only to the host, as its five fields; its other bits are no storage and read as 0 (rule R35).
The 32-bit word the host reads is `statusWord`. -/
structure Status where
  result : Result
  cause  : FailCause
  szero  : Bool
  paychg : Bool
  fault  : FaultCause
deriving DecidableEq, Repr

/-- `PHASE`, the sequencer's control state (rule R37). The values 10 to 15 never occur. -/
inductive Phase where
  | idle | gen | div | syn | bma | gate | chien | forney | corr | verify
deriving DecidableEq, Repr

/-- The state of the block (rule R20), and two fields of the model's own at the end for the host's side of the port. -/
structure State where
  /-- `EXP` and `LOG` (rules R21, R22). -/
  tables : Tables
  /-- `DLEN`, the payload length (rule R23). -/
  dlen   : Byte
  /-- `NSYM`, the parity length (rule R24). -/
  nsym   : Byte
  /-- `RES`, the result of the last GF command that completed without a fault (rule R25). -/
  res    : Byte
  /-- `CW`, the codeword buffer (rule R26). -/
  cw     : Mem
  /-- `G`, the generator polynomial, highest degree first (rule R27). -/
  g      : Mem
  /-- `S`, the syndromes (rule R28). -/
  synd   : Mem
  /-- `SIGMA`, the error locator, by degree (rule R29). -/
  sigma  : Mem
  /-- `BPOLY`, the auxiliary polynomial, by degree (rule R30). -/
  bpoly  : Mem
  /-- `OMEGA`, the error evaluator, by degree (rule R31). -/
  omega  : Mem
  /-- `EPOS`, the byte indices of the roots found (rule R32). -/
  epos   : Mem
  /-- `EMAG`, the error magnitudes (rule R33). -/
  emag   : Mem
  /-- `L`, the recurrence length (rule R34). -/
  len    : Byte
  /-- `DEG`, the degree of σ (rule R34). -/
  deg    : Byte
  /-- `NROOT`, the number of roots found (rule R34). -/
  nroot  : Byte
  /-- `ERRCNT`, the number of byte corrections applied (rule R34). -/
  errcnt : Byte
  /-- `BDISC`, the discrepancy at which B was last taken (rule R30). -/
  bdisc  : Byte
  /-- `MSHIFT`, the shift m, 9 bits (rule R30). -/
  mshift : BitVec 9
  /-- `STATUS` (rule R35). -/
  status : Status
  /-- `FINFO`, the information word of the pending fault (rule R36). -/
  finfo  : Word
  /-- `PHASE` (rule R37). -/
  phase  : Phase
  /-- `CHAIN`, hidden: 1 while a composite command runs (rule R38). -/
  chain  : Bool
  /-- The MODEL's own field, not the block's: the host operations still to be issued, first one first (rules R61, R89). -/
  script : List HostOp
  /-- The MODEL's own field, not the block's: the values `HostRead` has returned to the host, oldest first (rule R63). -/
  returned : List Word
deriving DecidableEq, Repr

/-- Right after reset: the values of rule R40. `LOG[0]`, for which the spec gives no value, holds `logZero` (assumption 1).
No host operation is pending and none has returned anything. -/
def State.reset : State where
  tables := Tables.reset
  dlen := Config.resetDlen
  nsym := Config.resetNsym
  res := 0
  cw := []
  g := []
  synd := []
  sigma := []
  bpoly := []
  omega := []
  epos := []
  emag := []
  len := 0
  deg := 0
  nroot := 0
  errcnt := 0
  bdisc := 0
  mshift := 0
  status := { result := .none, cause := .none, szero := false, paychg := false, fault := .none }
  finfo := 0
  phase := .idle
  chain := false
  script := []
  returned := []

/-- Why a step can stop with no next state. The block's own faults (`FaultCause`) are next states and are not here. -/
inductive Fault where
  /-- Raised by `step` alone, never by a command: the state is in the middle of a command (`PHASE` is not `IDLE`) with
  `DLEN + NSYM > 255`. No run reaches such a state, and no rule says what a phase does there (rules R26, R213).
  SAFE: the model stops where the spec gives no behaviour (assumption 6). -/
  | phaseBeyondCodeword
deriving DecidableEq, Repr

/-- Why a command has no meaning in the model. -/
inductive Refusal where
  /-- Raised by an arm of `exec` for a command without a meaning; no arm does so now. SAFE: the model stops. -/
  | notModelled (mnemonic : String)
deriving DecidableEq, Repr

end Sys2Proof.Machine
end

