-- ==== Sys2Proof/Machine/Ops.lean ====
section
/-! DEFINITION. The named operations the commands share: byte stores, loops, the codeword primitives (rule R62), fault entry
(rule R216) and the return from a fault (rule R221). -/

namespace Sys2Proof.Machine

/-! ### Byte stores -/

/-- Entry `a` of a store; an unlisted entry is 0 (rule R40). -/
def Mem.read : Mem → Nat → Byte
  | [], _ => 0
  | (k, v) :: m, a => if k = a then v else Mem.read m a

/-- The store with nothing listed at `a`. -/
def Mem.erase : Mem → Nat → Mem
  | [], _ => []
  | (k, v) :: m, a => if k = a then Mem.erase m a else (k, v) :: Mem.erase m a

/-- The store with `(a, v)` put before the first larger index. -/
def Mem.insert : Mem → Nat → Byte → Mem
  | [], a, v => [(a, v)]
  | (k, w) :: m, a, v => if a < k then (a, v) :: (k, w) :: m else (k, w) :: Mem.insert m a v

/-- `F[a] <- v` (rule R8): an entry that becomes 0 is no longer listed, so equal stores are equal lists. -/
def Mem.write (m : Mem) (a : Nat) (v : Byte) : Mem :=
  if v = 0 then Mem.erase m a else Mem.insert (Mem.erase m a) a v

/-- `for a in lo..lo+n-1: F[a] <- f a`, where `f` reads no entry of the store being written (rule R8). The writes commute,
so the order in which they are made does not matter. -/
def Mem.fill (m : Mem) : Nat → Nat → (Nat → Byte) → Mem
  | _, 0, _ => m
  | lo, n + 1, f => Mem.write (Mem.fill m (lo + 1) n f) lo (f lo)

/-- The `n` entries from `lo` on of the store whose entry `a` is `f a`. -/
def Mem.tabulateFrom : Nat → Nat → (Nat → Byte) → Mem
  | _, 0, _ => []
  | lo, n + 1, f =>
    if f lo = 0 then Mem.tabulateFrom (lo + 1) n f else (lo, f lo) :: Mem.tabulateFrom (lo + 1) n f

/-- `for a in 0..255: F[a] <- f a`, a whole store written (rule R41). -/
def Mem.tabulate (f : Nat → Byte) : Mem := Mem.tabulateFrom 0 Config.storeSize f

/-- Every listed index is at least `lo`, indices rise strictly and stay below 256, and no listed entry is 0. -/
def Mem.wfFrom : Nat → Mem → Bool
  | _, [] => true
  | lo, (k, v) :: m => decide (lo ≤ k) && decide (k < Config.storeSize) && decide (v ≠ 0) && Mem.wfFrom (k + 1) m

/-- The canonical form of a store. -/
def Mem.wf (m : Mem) : Bool := Mem.wfFrom 0 m

/-! ### Loops -/

/-- `for i in 0..n-1: a <- f i a`, in ascending order of `i` (rule R8). -/
def loop {α : Type} : Nat → (Nat → α → α) → α → α
  | 0, _, a => a
  | n + 1, f, a => f n (loop n f a)

/-- `XOR_{i=0..n-1} t i` (rule R8). -/
def xorSum : Nat → (Nat → Byte) → Byte
  | 0, _ => 0
  | n + 1, t => xorSum n t ^^^ t n

/-! ### The codeword buffer -/

/-- `MemWrite(a, 1, v)` (rules R8, R62); `MemRead(a, 1)` is `Mem.read s.cw a`. -/
def memWrite (s : State) (a : Nat) (v : Byte) : State := { s with cw := Mem.write s.cw a v }

/-- `N = DLEN + NSYM`, an ordinary integer (rule R8). -/
def codewordLen (s : State) : Nat := s.dlen.toNat + s.nsym.toNat

/-- The configuration is illegal: `DLEN + NSYM > 255` (rule R213). -/
abbrev configIllegal (s : State) : Prop := codewordLen s > Config.maxCodeword

/-! ### The sequencer -/

/-- `PHASE <- IDLE; CHAIN <- 0`, the end of a command (rules R177, R216). -/
def toIdle (s : State) : State := { s with phase := .idle, chain := false }

/-! ### Faults -/

/-- `raise Fault(cause, info)`: the first fault wins, nothing but `FAULT` and `FINFO` is recorded, and the block is idle
(rule R216). -/
def raiseFault (cause : FaultCause) (info : Word) (s : State) : State :=
  toIdle (if s.status.fault = .none then { s with status := { s.status with fault := cause }, finfo := info } else s)

/-- The return from a fault: `STATUS.FAULT <- 0; FINFO <- 0`; it restores nothing else (rules R201, R221). -/
def clearFault (s : State) : State := { s with status := { s.status with fault := .none }, finfo := 0 }

end Sys2Proof.Machine
end

