-- ==== Sys2Proof/Machine/Flags.lean ====
section
/-! DEFINITION. Every flag of the block: the fields of `STATUS`, how each is computed, and the word the host reads
(rules R35, R218, R219). -/

namespace Sys2Proof.Machine

/-- The code of `STATUS.RESULT` (rule R35). -/
def resultCode : Result → Nat
  | .none => 0
  | .ok => 1
  | .fail => 2

/-- The code of `STATUS.CAUSE` (rules R35, R219). -/
def failCode : FailCause → Nat
  | .none => 0
  | .tooManyErrors => 1
  | .verificationFailed => 2
  | .degenerateLocator => 3

/-- The code of `STATUS.FAULT` (rules R35, R211). -/
def faultCode : FaultCause → Nat
  | .none => 0
  | .divisionByZero => 1
  | .configError => 2
  | .illegalCommand => 3
  | .badAccess => 4

/-- The number of a phase (rule R37). -/
def phaseCode : Phase → Nat
  | .idle => 0
  | .gen => 1
  | .div => 2
  | .syn => 3
  | .bma => 4
  | .gate => 5
  | .chien => 6
  | .forney => 7
  | .corr => 8
  | .verify => 9

/-- `STATUS` as the host reads it: `FAULT` in bits 15:12, `PAYCHG` in bit 9, `SZERO` in bit 8, `CAUSE` in bits 7:4, `RESULT`
in bits 1:0, every other bit 0 (rule R35). -/
def statusWord (st : Status) : Word :=
  0#16 ++ BitVec.ofNat 4 (faultCode st.fault) ++ 0#2 ++ BitVec.ofBool st.paychg ++ BitVec.ofBool st.szero
    ++ BitVec.ofNat 4 (failCode st.cause) ++ 0#2 ++ BitVec.ofNat 2 (resultCode st.result)

/-- `STATUS.RESULT <- OK; STATUS.CAUSE <- 0` (rule R35). -/
def setOk (s : State) : State := { s with status := { s.status with result := .ok, cause := .none } }

/-- `fail(cause)`: `STATUS.RESULT <- FAIL; STATUS.CAUSE <- cause` (rule R218). -/
def failWith (cause : FailCause) (s : State) : State :=
  { s with status := { s.status with result := .fail, cause := cause } }

/-- The value of `SZERO`: every `S[i]` with `i < NSYM` is zero (rules R35, R151). -/
def allZero (synd : Mem) (nsym : Nat) : Bool := (List.range nsym).all (fun i => decide (Mem.read synd i = 0))

/-- The value of `PAYCHG`: some `k < NROOT` has `EPOS[k] < DLEN` and `EMAG[k] != 0` (rules R35, R173). -/
def payloadChanged (epos emag : Mem) (nroot : Nat) (dlen : Byte) : Bool :=
  (List.range nroot).any (fun k => decide (Mem.read epos k < dlen) && decide (Mem.read emag k ≠ 0))

end Sys2Proof.Machine
end

