-- ==== Sys2Proof/Machine/Operands.lean ====
section
/-! DEFINITION. The host's operand form, the pair (space, index): the eleven address spaces, what each pair reads, and which
can be written (rules R60, R63 to R65, R69). A command's own operands are the fields of its word (rule R82, in Decode.lean). -/

namespace Sys2Proof.Machine

/-- Entry `i` of `EXP` (rule R21). -/
def expAt (T : Tables) (i : Nat) : Byte := romAt T.exp i

/-- Entry `v` of `LOG`, as a number (rule R22). -/
def logAt (T : Tables) (v : Byte) : Nat := (romAt T.log v.toNat).toNat

/-- The control register numbered `index` in space 0, zero-extended; none where the index is unmapped (rule R69). -/
def ctrlRead (s : State) (index : Nat) : Option Word :=
  match index with
  | 0x00 => some (s.dlen.setWidth 32)
  | 0x01 => some (s.nsym.setWidth 32)
  | 0x02 => some (statusWord s.status)
  | 0x03 => some s.finfo
  | 0x04 => some (s.res.setWidth 32)
  | 0x05 => some (s.len.setWidth 32)
  | 0x06 => some (s.deg.setWidth 32)
  | 0x07 => some (s.nroot.setWidth 32)
  | 0x08 => some (s.errcnt.setWidth 32)
  | 0x09 => some (s.bdisc.setWidth 32)
  | 0x0A => some (s.mshift.setWidth 32)
  | 0x0B => some (BitVec.ofNat 32 (phaseCode s.phase))
  | _ => none

/-- Entry `index` of a 256-entry store, zero-extended; none beyond index 255 (rules R60, R65). -/
def storeRead (m : Mem) (index : Nat) : Option Word :=
  if index < Config.storeSize then some ((Mem.read m index).setWidth 32) else none

/-- What `HostRead(space, index)` returns when the pair is readable, and none when it is refused (rules R60, R63, R65):
spaces 11 to 15 do not exist, and `LOG[0]` is not readable. -/
def entryRead (s : State) (space : BitVec 4) (index : BitVec 16) : Option Word :=
  match space.toNat with
  | 0 => ctrlRead s index.toNat
  | 1 => storeRead s.cw index.toNat
  | 2 => storeRead s.g index.toNat
  | 3 => storeRead s.synd index.toNat
  | 4 => storeRead s.sigma index.toNat
  | 5 => storeRead s.bpoly index.toNat
  | 6 => storeRead s.omega index.toNat
  | 7 => storeRead s.epos index.toNat
  | 8 => storeRead s.emag index.toNat
  | 9 =>
    if index.toNat < Config.expSize then some ((expAt s.tables index.toNat).setWidth 32) else none
  | 10 =>
    if 1 ≤ index.toNat ∧ index.toNat < Config.logSize then some ((romAt s.tables.log index.toNat).setWidth 32) else none
  | _ => none

/-- The state after `HostWrite(space, index, data)` when the triple is writable, and none when it is refused: `DLEN`, `NSYM`
and `CW` only, and no data with a 1 in bits 31:8 (rules R60, R64, R65). -/
def entryWrite (s : State) (space : BitVec 4) (index : BitVec 16) (data : Word) : Option State :=
  if data.extractLsb' 8 24 ≠ 0 then none
  else
    match space.toNat with
    | 0 =>
      match index.toNat with
      | 0x00 => some { s with dlen := data.setWidth 8 }
      | 0x01 => some { s with nsym := data.setWidth 8 }
      | _ => none
    | 1 => if index.toNat < Config.storeSize then some (memWrite s index.toNat (data.setWidth 8)) else none
    | _ => none

/-- The information word of a refused access: `(w << 31) | (space << 16) | index`, `w` = 1 for a write (rule R215). -/
def accessWord (w : Bool) (space : BitVec 4) (index : BitVec 16) : Word :=
  BitVec.ofBool w ++ 0#11 ++ space ++ index

end Sys2Proof.Machine
end

