-- ==== Sys2Proof/Machine/Gf.lean ====
section
/-! DEFINITION. The Galois-field engine: the four functions by log and exp tables (rules R106 to R109), the bit-level
product (rule R102), and the commands `GFMUL`, `GFDIV`, `GFPOW`, `GFINV` (rules R110 to R113). Addition is `^^^` (rule R101). -/

namespace Sys2Proof.Machine

/-- `gf_mul(a, b)`; the zero test comes before any table look-up (rule R106). -/
def gfMul (T : Tables) (a b : Byte) : Byte :=
  if a = 0 ∨ b = 0 then 0 else expAt T (logAt T a + logAt T b)

/-- `gf_div(a, b)`, none for `DivisionByZero`; the divisor is tested first (rule R107). -/
def gfDiv (T : Tables) (a b : Byte) : Option Byte :=
  if b = 0 then none else if a = 0 then some 0 else some (expAt T (logAt T a + 255 - logAt T b))

/-- `gf_inv(a)`, none for `DivisionByZero` (rule R108). -/
def gfInv (T : Tables) (a : Byte) : Option Byte :=
  if a = 0 then none else some (expAt T (255 - logAt T a))

/-- `gf_pow(a, e)`; the empty product is 1, for a zero base too (rule R109). -/
def gfPow (T : Tables) (a : Byte) (e : Nat) : Byte :=
  if e = 0 then 1 else if a = 0 then 0 else expAt T ((logAt T a * e) % Config.groupOrder)

/-- `alpha(i)`, the element α^i (rule R8). -/
def alpha (T : Tables) (i : Nat) : Byte := expAt T (i % Config.groupOrder)

/-- `alpha_inv(i)`, for `i` at most 254: the element α^(-i) (rule R8). -/
def alphaInv (T : Tables) (i : Nat) : Byte := expAt T ((Config.groupOrder - i) % Config.groupOrder)

/-- The carry-less product of two bytes, in 15 bits (rule R102, first loop). -/
def carrylessMul (a b : Byte) : BitVec 15 :=
  loop 8 (fun i t => if b.getLsbD i then t ^^^ (a.setWidth 15 <<< i) else t) 0

/-- The remainder modulo x^8 + x^4 + x^3 + x^2 + 1 of a 15-bit polynomial: bits 14 down to 8 cleared in turn
(rule R102, second loop). -/
def reducePoly (t : BitVec 15) : BitVec 15 :=
  loop 7 (fun k t => if t.getLsbD (14 - k) then t ^^^ (BitVec.ofNat 15 Config.primitivePoly <<< (6 - k)) else t) t

/-- Multiplication in the field as mathematics, by bit operations and without the tables (rule R102). No command uses it: it
is what the tables are held against. -/
def bitMul (a b : Byte) : Byte := (reducePoly (carrylessMul a b)).setWidth 8

/-- `GFMUL a, b` (rule R110). -/
def execGfmul (a b : Byte) (s : State) : Host.Outcome State Fault Refusal :=
  .next { s with res := gfMul s.tables a b }

/-- `GFDIV a, b`: `DivisionByZero` for a zero divisor, whatever the dividend (rules R111, R212). -/
def execGfdiv (a b : Byte) (s : State) : Host.Outcome State Fault Refusal :=
  match gfDiv s.tables a b with
  | some q => .next { s with res := q }
  | none => .next (raiseFault .divisionByZero (encode (.gfdiv a b)) s)

/-- `GFPOW a, e` (rule R112). -/
def execGfpow (a : Byte) (e : BitVec 16) (s : State) : Host.Outcome State Fault Refusal :=
  .next { s with res := gfPow s.tables a e.toNat }

/-- `GFINV a`: `DivisionByZero` for zero (rules R113, R212). -/
def execGfinv (a : Byte) (s : State) : Host.Outcome State Fault Refusal :=
  match gfInv s.tables a with
  | some q => .next { s with res := q }
  | none => .next (raiseFault .divisionByZero (encode (.gfinv a)) s)

end Sys2Proof.Machine
end

