-- ==== Sys2Proof/Machine/Encoder.lean ====
section
/-! DEFINITION. The encoder's two phases, `GEN` and `DIV` (rules R132, R134), and the shift-register form of the division
(rule R137). -/

namespace Sys2Proof.Machine

/-- One pass of phase `GEN`: multiply the polynomial in `old`, highest degree first, by `x + alpha(i)` (rule R132). -/
def genStep (T : Tables) (i : Nat) (old : Mem) : Mem :=
  Mem.fill old 1 (i + 1) (fun j => Mem.read old j ^^^ gfMul T (Mem.read old (j - 1)) (alpha T i))

/-- The generator polynomial of degree `nsym`, as phase `GEN` leaves it in `G` (rule R132). -/
def generatorPoly (T : Tables) (nsym : Nat) : Mem :=
  loop nsym (genStep T) (Mem.tabulate (fun j => if j = 0 then 1 else 0))

/-- Phase `GEN` (rule R132). -/
def phaseGen (s : State) : State := { s with g := generatorPoly s.tables s.nsym.toNat, phase := .div }

/-- One pass of the division: the payload coefficient `c = w[i]` subtracts `c` times the generator from the `nsym` bytes
after it (rule R134). -/
def divStep (T : Tables) (g : Mem) (nsym i : Nat) (w : Mem) : Mem :=
  let c := Mem.read w i
  if c = 0 then w else Mem.fill w (i + 1) nsym (fun a => Mem.read w a ^^^ gfMul T (Mem.read g (a - i)) c)

/-- The local sequence `w` at the end of the division: the payload, then zeros, divided in place (rule R134). -/
def divSequence (T : Tables) (g cw : Mem) (dlen nsym : Nat) : Mem :=
  loop dlen (divStep T g nsym) (Mem.fill [] 0 dlen (Mem.read cw))

/-- Phase `DIV`: only the parity bytes of `CW` are written (rule R134). -/
def phaseDiv (s : State) : State :=
  let w := divSequence s.tables s.g s.cw s.dlen.toNat s.nsym.toNat
  toIdle (setOk { s with cw := Mem.fill s.cw s.dlen.toNat s.nsym.toNat (Mem.read w) })

/-- One pass of the feedback shift register `p[0..nsym-1]` for the payload byte `c`; entry `nsym` of `p` is 0, so the last
entry is the feedback term alone (rule R137). -/
def shiftStep (T : Tables) (g : Mem) (nsym : Nat) (c : Byte) (p : Mem) : Mem :=
  let f := c ^^^ Mem.read p 0
  Mem.fill [] 0 nsym (fun t => (if t + 1 < nsym then Mem.read p (t + 1) else 0) ^^^ gfMul T (Mem.read g (t + 1)) f)

/-- The shift register after the whole payload: parity byte `t` is entry `t` (rule R137). No command uses it: it is what
phase `DIV` is held against. -/
def shiftRegister (T : Tables) (g cw : Mem) (dlen nsym : Nat) : Mem :=
  loop dlen (fun i p => shiftStep T g nsym (Mem.read cw i) p) []

end Sys2Proof.Machine
end

