-- ==== Sys2Proof/Machine/Decoder.lean ====
section
/-! DEFINITION. The decoder's seven phases: `SYN`, `BMA`, `GATE`, `CHIEN`, `FORNEY`, `CORR`, `VERIFY`
(rules R151, R153, R154, R170, R172, R173, R175). -/

namespace Sys2Proof.Machine

/-! ### Phase SYN -/

/-- The received word evaluated at `x` by Horner's rule, highest degree first (rule R151). -/
def evalWord (T : Tables) (cw : Mem) (n : Nat) (x : Byte) : Byte :=
  loop n (fun j acc => gfMul T acc x ^^^ Mem.read cw j) 0

/-- All 256 entries of `S` (rule R151). -/
def syndromes (T : Tables) (cw : Mem) (n nsym : Nat) : Mem :=
  Mem.tabulate (fun i => if i < nsym then evalWord T cw n (alpha T i) else 0)

/-- The part of phase `SYN` before its successor test: `S` and `SZERO` (rule R151); phase `VERIFY` does the same
(rule R175). -/
def computeSyndromes (s : State) : State :=
  let m := syndromes s.tables s.cw (codewordLen s) s.nsym.toNat
  { s with synd := m, status := { s.status with szero := allZero m s.nsym.toNat } }

/-- Phase `SYN` (rule R151). -/
def phaseSyn (s : State) : State :=
  let t := computeSyndromes s
  if t.chain = false then toIdle (setOk t)
  else if t.status.szero then toIdle (setOk t)
  else { t with phase := .bma }

/-! ### Phases BMA and GATE -/

/-- The largest index below `n` with a nonzero entry, 0 if there is none (rule R153, `DEG`). -/
def topIndex (m : Mem) : Nat → Nat
  | 0 => 0
  | n + 1 => if Mem.read m n ≠ 0 then n else topIndex m n

/-- The state at the start of step 0: σ = B = 1, `L` = 0, `MSHIFT` = 1, `BDISC` = 1 (rule R153). -/
def bmaInit (s : State) : State :=
  { s with
    sigma := Mem.tabulate (fun i => if i = 0 then 1 else 0)
    bpoly := Mem.tabulate (fun i => if i = 0 then 1 else 0)
    len := 0
    mshift := 1
    bdisc := 1 }

/-- The discrepancy of step `n` (rule R153). -/
def discrepancy (s : State) (n : Nat) : Byte :=
  Mem.read s.synd n
    ^^^ xorSum s.len.toNat (fun i => gfMul s.tables (Mem.read s.sigma (i + 1)) (Mem.read s.synd (n - (i + 1))))

/-- σ - (d/b) x^m B, for the indices the store holds (rule R153). -/
def updateSigma (T : Tables) (sigma bpoly : Mem) (m : Nat) (q : Byte) : Mem :=
  Mem.fill sigma m (Config.storeSize - m) (fun a => Mem.read sigma a ^^^ gfMul T q (Mem.read bpoly (a - m)))

/-- Step `n` of the Berlekamp-Massey recurrence (rule R153). `BDISC` is never 0 here (rule R156 (c)), so the quotient is
always there: the default of `getD` is never taken. -/
def bmaStep (n : Nat) (s : State) : State :=
  let d := discrepancy s n
  if d = 0 then { s with mshift := s.mshift + 1 }
  else
    let q := (gfDiv s.tables d s.bdisc).getD 0
    let sigma := updateSigma s.tables s.sigma s.bpoly s.mshift.toNat q
    if 2 * s.len.toNat ≤ n then
      { s with
        sigma := sigma
        len := BitVec.ofNat 8 (n + 1 - s.len.toNat)
        bpoly := s.sigma
        bdisc := d
        mshift := 1 }
    else { s with sigma := sigma, mshift := s.mshift + 1 }

/-- Phase `BMA` (rule R153). -/
def phaseBma (s : State) : State :=
  let t := loop s.nsym.toNat bmaStep (bmaInit s)
  { t with deg := BitVec.ofNat 8 (topIndex t.sigma Config.storeSize), phase := .gate }

/-- Phase `GATE`: the test uses `DEG`, not `L` (rule R154). -/
def phaseGate (s : State) : State :=
  if 2 * s.deg.toNat > s.nsym.toNat then toIdle (failWith .tooManyErrors s)
  else if s.chain then { s with phase := .chien }
  else toIdle (setOk s)

/-! ### Phase CHIEN -/

/-- σ(x) for the polynomial of degree at most `deg` in `sigma` (rule R170). -/
def locatorAt (T : Tables) (sigma : Mem) (deg : Nat) (x : Byte) : Byte :=
  xorSum (deg + 1) (fun t => gfMul T (Mem.read sigma t) (gfPow T x t))

/-- The power indices below `n` at which σ(α^(-i)) = 0, in ascending order (rule R170). -/
def chienRoots (T : Tables) (sigma : Mem) (deg n : Nat) : List Nat :=
  (List.range n).filter (fun i => decide (locatorAt T sigma deg (alphaInv T i) = 0))

/-- All 256 entries of `EPOS`: the byte index `n - 1 - i` of each root's power index `i`, in the order found, then zeros
(rules R32, R170). -/
def rootPositions (roots : List Nat) (n : Nat) : Mem :=
  Mem.tabulate (fun k => match roots[k]? with
    | some i => BitVec.ofNat 8 (n - 1 - i)
    | none => 0)

/-- Phase `CHIEN`: `EPOS` and `NROOT` are written even when the count is wrong (rule R170). -/
def phaseChien (s : State) : State :=
  let roots := chienRoots s.tables s.sigma s.deg.toNat (codewordLen s)
  let t := { s with epos := rootPositions roots (codewordLen s), nroot := BitVec.ofNat 8 roots.length }
  if t.nroot ≠ t.deg then toIdle (failWith .tooManyErrors t)
  else if t.chain then { t with phase := .forney }
  else toIdle (setOk t)

/-! ### Phase FORNEY -/

/-- All 256 entries of `OMEGA`: (S(x) σ(x)) mod x^nsym (rule R172). -/
def errorEvaluator (T : Tables) (synd sigma : Mem) (deg nsym : Nat) : Mem :=
  Mem.tabulate (fun j =>
    if j < nsym then xorSum (min j deg + 1) (fun i => gfMul T (Mem.read sigma i) (Mem.read synd (j - i))) else 0)

/-- Ω(x) (rule R172, `num`). -/
def evaluatorAt (T : Tables) (omega : Mem) (nsym : Nat) (x : Byte) : Byte :=
  xorSum nsym (fun j => gfMul T (Mem.read omega j) (gfPow T x j))

/-- σ′(x), the formal derivative: odd degrees only (rule R172, `den`). -/
def derivativeAt (T : Tables) (sigma : Mem) (deg : Nat) (x : Byte) : Byte :=
  xorSum (deg + 1) (fun i => if i % 2 = 1 then gfMul T (Mem.read sigma i) (gfPow T x (i - 1)) else 0)

/-- The magnitude X Ω(X⁻¹) / σ′(X⁻¹) at byte position `pos`; none where the position is outside the codeword or the
derivative is zero (rule R172, `bad`). -/
def magnitudeAt (T : Tables) (omega sigma : Mem) (deg nsym n pos : Nat) : Option Byte :=
  if n ≤ pos then none
  else
    let p := n - 1 - pos
    let xi := alphaInv T p
    match gfDiv T (evaluatorAt T omega nsym xi) (derivativeAt T sigma deg xi) with
    | some q => some (gfMul T (alpha T p) q)
    | none => none

/-- The magnitudes at the `nroot` listed positions, in order (rule R172). -/
def magnitudes (s : State) (omega : Mem) : List (Option Byte) :=
  (List.range s.nroot.toNat).map (fun k =>
    magnitudeAt s.tables omega s.sigma s.deg.toNat s.nsym.toNat (codewordLen s) (Mem.read s.epos k).toNat)

/-- All 256 entries of `EMAG`: the magnitudes in order, then zeros (rules R33, R172). -/
def magnitudeStore (mags : List (Option Byte)) : Mem :=
  Mem.tabulate (fun k => match mags[k]? with
    | some (some v) => v
    | _ => 0)

/-- Phase `FORNEY`: every magnitude is computed before any byte is corrected (rule R172). -/
def phaseForney (s : State) : State :=
  let omega := errorEvaluator s.tables s.synd s.sigma s.deg.toNat s.nsym.toNat
  let mags := magnitudes s omega
  if mags.any Option.isNone then
    toIdle (failWith .degenerateLocator { s with omega := omega, emag := Mem.tabulate (fun _ => 0) })
  else
    { s with
      omega := omega
      emag := magnitudeStore mags
      phase := .corr }

/-! ### Phases CORR and VERIFY -/

/-- `MemWrite(EPOS[k], 1, MemRead(EPOS[k], 1) ^ EMAG[k])` for `k < nroot`, in order (rules R62, R173, R175). -/
def correctBytes (cw epos emag : Mem) (nroot : Nat) : Mem :=
  loop nroot
    (fun k m => Mem.write m (Mem.read epos k).toNat (Mem.read m (Mem.read epos k).toNat ^^^ Mem.read emag k)) cw

/-- The listed magnitudes applied to the buffer (rules R173, R175). -/
def applyMagnitudes (s : State) : State := { s with cw := correctBytes s.cw s.epos s.emag s.nroot.toNat }

/-- Phase `CORR` (rule R173). -/
def phaseCorr (s : State) : State :=
  let t := applyMagnitudes s
  let u := { t with
    errcnt := s.nroot
    status := { t.status with paychg := payloadChanged s.epos s.emag s.nroot.toNat s.dlen } }
  if u.chain then { u with phase := .verify } else toIdle (setOk u)

/-- Phase `VERIFY`: a nonzero syndrome undoes the correction (rule R175). -/
def phaseVerify (s : State) : State :=
  let t := computeSyndromes s
  if t.status.szero then toIdle (setOk t)
  else
    let u := applyMagnitudes t
    toIdle (failWith .verificationFailed { u with errcnt := 0, status := { u.status with paychg := false } })

end Sys2Proof.Machine
end

