-- ==== Sys2Proof/Machine/Phases.lean ====
section
/-! DEFINITION. The sequencer: the phase `PHASE` names, and running phases until `PHASE` is `IDLE` (rules R37, R176, R177). -/

namespace Sys2Proof.Machine

/-- Runs the phase that `PHASE` names; each phase sets its own successor (rule R177). -/
def runPhase (s : State) : State :=
  match s.phase with
  | .idle => s
  | .gen => phaseGen s
  | .div => phaseDiv s
  | .syn => phaseSyn s
  | .bma => phaseBma s
  | .gate => phaseGate s
  | .chien => phaseChien s
  | .forney => phaseForney s
  | .corr => phaseCorr s
  | .verify => phaseVerify s

/-- `while PHASE != IDLE: run the phase PHASE names`, at most `n` times (rule R176). -/
def runPhases : Nat → State → State
  | 0, s => s
  | n + 1, s => if s.phase = .idle then s else runPhases n (runPhase s)

/-- The longest path of the phase graph, `SYN` to `VERIFY`, has seven phases (rule R177), so seven passes always end in
`IDLE`: that they do is a claim. -/
def longestPath : Nat := 7

/-- Issues a Reed-Solomon command in state `s`: the configuration test comes before anything is written (rule R213); an
accepted command goes on from `start`, the state with `CHAIN` and the first `PHASE` set, until `PHASE` is `IDLE`. -/
def rsCommand (i : Instr) (s start : State) : State :=
  if configIllegal s then raiseFault .configError (encode i) s else runPhases longestPath start

end Sys2Proof.Machine
end

