-- ==== Sys2Proof/Machine/Rs.lean ====
section
/-! DEFINITION. The six Reed-Solomon commands (rules R135, R152, R155, R171, R174, R176). -/

namespace Sys2Proof.Machine

/-- `RSENC`: phases `GEN`, `DIV` (rule R135). -/
def execRsenc (s : State) : Host.Outcome State Fault Refusal :=
  .next (rsCommand .rsenc s { s with chain := true, phase := .gen })

/-- `RSDEC`: `ERRCNT` and `PAYCHG` are cleared and the decoder runs from `SYN` to its end (rule R176). -/
def execRsdec (s : State) : Host.Outcome State Fault Refusal :=
  .next (rsCommand .rsdec s
    { s with chain := true, phase := .syn, errcnt := 0, status := { s.status with paychg := false } })

/-- `SYND`: phase `SYN` alone (rule R152). -/
def execSynd (s : State) : Host.Outcome State Fault Refusal :=
  .next (rsCommand .synd s { s with chain := false, phase := .syn })

/-- `BMA`: phases `BMA`, `GATE` (rule R155). -/
def execBma (s : State) : Host.Outcome State Fault Refusal :=
  .next (rsCommand .bma s { s with chain := false, phase := .bma })

/-- `CHIEN`: phase `CHIEN` alone (rule R171). -/
def execChien (s : State) : Host.Outcome State Fault Refusal :=
  .next (rsCommand .chien s { s with chain := false, phase := .chien })

/-- `FORNEY`: phases `FORNEY`, `CORR` (rule R174). -/
def execForney (s : State) : Host.Outcome State Fault Refusal :=
  .next (rsCommand .forney s { s with chain := false, phase := .forney })

end Sys2Proof.Machine
end

