-- ==== Sys2Proof/Machine/System.lean ====
section
/-! DEFINITION. The system commands (rules R200, R201). -/

namespace Sys2Proof.Machine

/-- `NOP` changes nothing (rule R200). -/
def execNop (s : State) : Host.Outcome State Fault Refusal := .next s

/-- `CLRF`, the return from a fault (rules R201, R221). -/
def execClrf (s : State) : Host.Outcome State Fault Refusal := .next (clearFault s)

end Sys2Proof.Machine
end

