-- ==== Sys2Proof/Machine/Dispatch.lean ====
section
/-! DEFINITION. Executing a decoded command (rule R217, "execute the command"): one arm per command, each its own meaning. -/

namespace Sys2Proof.Machine

def exec (i : Instr) (s : State) : Host.Outcome State Fault Refusal :=
  match i with
  | .nop => Sys2Proof.Machine.execNop s
  | .gfmul a b => Sys2Proof.Machine.execGfmul a b s
  | .gfdiv a b => Sys2Proof.Machine.execGfdiv a b s
  | .gfpow a e => Sys2Proof.Machine.execGfpow a e s
  | .gfinv a => Sys2Proof.Machine.execGfinv a s
  | .rsenc => Sys2Proof.Machine.execRsenc s
  | .rsdec => Sys2Proof.Machine.execRsdec s
  | .synd => Sys2Proof.Machine.execSynd s
  | .bma => Sys2Proof.Machine.execBma s
  | .chien => Sys2Proof.Machine.execChien s
  | .forney => Sys2Proof.Machine.execForney s
  | .clrf => Sys2Proof.Machine.execClrf s

end Sys2Proof.Machine
end

