-- ==== Sys2Proof/Machine/Port.lean ====
section
/-! DEFINITION. The host port: the four host operations (rules R61, R63, R64, R217, R240) and one step of the machine. -/

namespace Sys2Proof.Machine

/-- `HostRead(space, index)`: the value goes to the host; a refused read raises `BadAccess` and returns 0 (rule R63). -/
def hostRead (space : BitVec 4) (index : BitVec 16) (s : State) : State :=
  match entryRead s space index with
  | some v => { s with returned := s.returned ++ [v] }
  | none => raiseFault .badAccess (accessWord false space index) { s with returned := s.returned ++ [0] }

/-- `HostWrite(space, index, data)`: a refused write raises `BadAccess` and writes nothing (rule R64). -/
def hostWrite (space : BitVec 4) (index : BitVec 16) (data : Word) (s : State) : State :=
  match entryWrite s space index data with
  | some t => t
  | none => raiseFault .badAccess (accessWord true space index) s

/-- `HostCmd(word)`: while a fault is pending every word but `CLRF`'s is dropped undecoded; otherwise an illegal word raises
`IllegalCommand` and a legal one is executed (rule R217). -/
def hostCmd (word : Word) (s : State) : Host.Outcome State Fault Refusal :=
  if s.status.fault ≠ .none then
    if word = 0x0000001F then exec .clrf s else .next s
  else
    match decode word with
    | .ok i => exec i s
    | .error _ => .next (raiseFault .illegalCommand word s)

/-- `HostReset`: every piece of the block's state takes its reset value; the host's side of the port is not the block's
(rule R240). -/
def hostReset (s : State) : State := { State.reset with script := s.script, returned := s.returned }

/-- One host operation that is enabled (rule R61). -/
def hostOp (op : HostOp) (s : State) : Host.Outcome State Fault Refusal :=
  match op with
  | .read space index => .next (hostRead space index s)
  | .write space index data => .next (hostWrite space index data s)
  | .cmd word => hostCmd word s
  | .reset => .next (hostReset s)

/-- One phase of a command that is under way; the host is held (rules R37, R61). No run from reset meets it, because a
command runs to its end in the step that issues it. -/
def runHeld (s : State) : Host.Outcome State Fault Refusal :=
  if configIllegal s then .fault .phaseBeyondCodeword else .next (runPhase s)

/-- One step: the host's next operation. `HostReset` is always enabled, the others only when `PHASE = IDLE` (rule R61);
with no operation pending an idle block waits (rules R177, R222, R241). -/
def portStep (s : State) : Host.Outcome State Fault Refusal :=
  match s.script with
  | [] => if s.phase = .idle then .next s else runHeld s
  | op :: rest => if s.phase = .idle ∨ op = .reset then hostOp op { s with script := rest } else runHeld s

/-- The state in which the next step issues `word`: it is the host's first operation, the block is idle and no fault is
pending, which is what rule R217 asks before a word is decoded. -/
def placeCommand (s : State) (word : Word) : State :=
  { s with
    script := .cmd word :: s.script
    phase := .idle
    chain := false
    status := { s.status with fault := .none }
    finfo := 0 }

end Sys2Proof.Machine
end

