-- ==== Sys2Proof/Machine/Step.lean ====
section
/-! DEFINITION. One step of the machine, and where a command word is placed for the next step. -/

namespace Sys2Proof.Machine

/-- One step is one host operation, a command running to completion (rules R37, R61, R248). -/
def step (s : State) : Host.Outcome State Fault Refusal := portStep s

/-- `s` with the command word of `nbits` bits, zero above them, as the host's next operation. There is no instruction
memory and no fetch (rule R74): a command comes from the host, so it is placed at the head of the host's script. -/
def State.withFetchWord (s : State) (nbits w : Nat) : State := placeCommand s (BitVec.ofNat 32 (w % 2 ^ nbits))

end Sys2Proof.Machine
end

