-- ==== Sys2Proof/Safety.lean ====
section
/-! DEFINITION. What the claims call a legal state and a safe run: the invariants of the block, in the terms of its rules. -/

namespace Sys2Proof.Machine

/-- The tables are those of rule R104, whatever `LOG[0]` holds: `EXP` whole, `LOG` from index 1 on (rules R21, R22). -/
def tablesIntact (T : Tables) : Prop :=
  T.exp = Tables.reset.exp ∧ ∀ i, 1 ≤ i → romAt T.log i = romAt Tables.reset.log i

/-- The tables with `LOG[0]` replaced by `z` (rule R22). -/
def withLogZero (z : Byte) (T : Tables) : Tables :=
  { T with log := match T.log with
    | (_ :: row) :: rows => (z :: row) :: rows
    | rows => rows }

/-- `PHASE = IDLE` and `CHAIN = 0`, the state of the sequencer between commands (rules R37, R38). -/
def atRest (s : State) : Prop := s.phase = .idle ∧ s.chain = false

/-- Every store is in its one canonical form. -/
def storesCanonical (s : State) : Prop :=
  Mem.wf s.cw = true ∧ Mem.wf s.g = true ∧ Mem.wf s.synd = true ∧ Mem.wf s.sigma = true ∧
  Mem.wf s.bpoly = true ∧ Mem.wf s.omega = true ∧ Mem.wf s.epos = true ∧ Mem.wf s.emag = true

/-- `CAUSE` is 0 unless `RESULT` is `FAIL`, and then it names the failure; `FINFO` is 0 while no fault is pending
(rules R35, R36, R211, R219). -/
def statusLegal (s : State) : Prop :=
  (s.status.result = .fail ↔ s.status.cause ≠ .none) ∧ (s.status.fault = .none → s.finfo = 0)

/-- The locator's registers: `DEG <= L`, no coefficient of σ above `DEG`, σ(0) = 1 unless no `BMA` phase has run, and
`MSHIFT` at most 256 (rules R29, R30, R34, R156). -/
def locatorLegal (s : State) : Prop :=
  s.deg.toNat ≤ s.len.toNat ∧ (∀ i, s.deg.toNat < i → Mem.read s.sigma i = 0) ∧
  (Mem.read s.sigma 0 = 1 ∨ ∀ i, Mem.read s.sigma i = 0) ∧ s.mshift.toNat ≤ 256

/-- The list of roots: `EPOS` is strictly descending below `NROOT` and zero from there on (rules R32, R170). -/
def rootListLegal (s : State) : Prop :=
  (∀ k, s.nroot.toNat ≤ k → Mem.read s.epos k = 0) ∧
  (∀ j k, j < k → k < s.nroot.toNat → (Mem.read s.epos k).toNat < (Mem.read s.epos j).toNat)

/-- `PAYCHG` is set only while corrections are applied: then `ERRCNT` is not 0 (rules R34, R35). -/
def correctionFlagsLegal (s : State) : Prop := s.status.paychg = true → s.errcnt ≠ 0

/-- All syndromes of the received word are zero: the first N bytes of `CW` are a codeword (rule R130). -/
def holdsCodeword (s : State) : Prop :=
  ∀ i, i < s.nsym.toNat → evalWord s.tables s.cw (codewordLen s) (alpha s.tables i) = 0

/-- The six Reed-Solomon commands (rule R213). -/
def isReedSolomon : Instr → Bool
  | .nop => false
  | .gfmul _ _ => false
  | .gfdiv _ _ => false
  | .gfpow _ _ => false
  | .gfinv _ => false
  | .rsenc => true
  | .rsdec => true
  | .synd => true
  | .bma => true
  | .chien => true
  | .forney => true
  | .clrf => false

/-- The four GF commands (rule R25). -/
def isGf : Instr → Bool
  | .nop => false
  | .gfmul _ _ => true
  | .gfdiv _ _ => true
  | .gfpow _ _ => true
  | .gfinv _ => true
  | .rsenc => false
  | .rsdec => false
  | .synd => false
  | .bma => false
  | .chien => false
  | .forney => false
  | .clrf => false

/-- The values of the table of rule R40, with the tables as the construction of rule R103 makes them. `LOG[0]` is left out:
the spec gives it no value. -/
def resetValues (t : State) : Prop :=
  (∀ i, i < 512 → expAt t.tables i = builtExp i) ∧
  (∀ v : Byte, v ≠ 0 → logAt t.tables v = (builtLog v).toNat) ∧
  t.dlen = 16 ∧ t.nsym = 16 ∧ t.res = 0 ∧
  (∀ a, Mem.read t.cw a = 0) ∧ (∀ a, Mem.read t.g a = 0) ∧ (∀ a, Mem.read t.synd a = 0) ∧
  (∀ a, Mem.read t.sigma a = 0) ∧ (∀ a, Mem.read t.bpoly a = 0) ∧ (∀ a, Mem.read t.omega a = 0) ∧
  (∀ a, Mem.read t.epos a = 0) ∧ (∀ a, Mem.read t.emag a = 0) ∧
  t.len = 0 ∧ t.deg = 0 ∧ t.nroot = 0 ∧ t.errcnt = 0 ∧ t.bdisc = 0 ∧ t.mshift = 0 ∧
  t.status.result = .none ∧ t.status.cause = .none ∧ t.status.szero = false ∧ t.status.paychg = false ∧
  t.status.fault = .none ∧ statusWord t.status = 0 ∧ t.finfo = 0 ∧ t.phase = .idle ∧ t.chain = false

end Sys2Proof.Machine
end

