-- ==== Sys2Proof/Certificates/Slice0/Obligations.lean ====
section
/-! DEFINITION. The statements for the provers, each a rule of the spec or drawn from several. -/

open Sys2Proof Sys2Proof.Machine

/-! ### Encoding -/

/-- Rules R81, R82, R86: the word of every instruction, with every operand value, decodes to that instruction. Every term of
`Instr` is well formed, so no hypothesis is needed. -/
def Obligations.DecodeInvertsEncode : Prop := ∀ i : Instr, decode (encode i) = .ok i

/-- Rule R83: decoding is total and ordered. A word is a command iff it matches its row's mask, it is then that row's command
with the operands in its fields and no bit dropped; an opcode outside the map is refused as such, and a known opcode with a
reserved bit set is refused as that. -/
def Obligations.DecodingFollowsTheOpcodeMap : Prop :=
  ∀ w : Word,
    (legalWord w = true ↔ ∃ i, decode w = .ok i) ∧
    (∀ i, decode w = .ok i → encode i = w) ∧
    ((∀ r ∈ opTable, opcodeOf w ≠ opcodeOf r.pattern) → decode w = .error .unknownOpcode) ∧
    ((∃ r ∈ opTable, opcodeOf w = opcodeOf r.pattern) → legalWord w = false → decode w = .error .reservedBits)

/-- Rule R86: no word matches two rows of the opcode map. -/
def Obligations.OpcodeRowsAreDisjoint : Prop :=
  ∀ (w : Word) (r q : OpRow), r ∈ opTable → q ∈ opTable → r.matches w = true → q.matches w = true → r = q

/-- Vectors V-CMD-1 and V-CMD-2: the listed legal words decode to the listed commands, the listed illegal ones do not. -/
def Obligations.ListedWordsDecode : Prop :=
  decode 0x00000000 = .ok .nop ∧ decode 0x00030201 = .ok (.gfmul 0x02 0x03) ∧
  decode 0x00FFFF01 = .ok (.gfmul 0xFF 0xFF) ∧ decode 0x00021D02 = .ok (.gfdiv 0x1D 0x02) ∧
  decode 0x00080203 = .ok (.gfpow 0x02 8) ∧ decode 0xFFFFFF03 = .ok (.gfpow 0xFF 65535) ∧
  decode 0x00000204 = .ok (.gfinv 0x02) ∧ decode 0x00000010 = .ok .rsenc ∧ decode 0x00000011 = .ok .rsdec ∧
  decode 0x00000012 = .ok .synd ∧ decode 0x00000013 = .ok .bma ∧ decode 0x00000014 = .ok .chien ∧
  decode 0x00000015 = .ok .forney ∧ decode 0x0000001F = .ok .clrf ∧
  decode 0x00000100 = .error .reservedBits ∧ decode 0x01000001 = .error .reservedBits ∧
  decode 0x00010204 = .error .reservedBits ∧ decode 0x8000001F = .error .reservedBits ∧
  decode 0x00000005 = .error .unknownOpcode ∧ decode 0x0000001E = .error .unknownOpcode ∧
  decode 0xFFFFFFFF = .error .unknownOpcode

/-! ### The port -/

/-- Rule R217: issuing a command word on an idle block. While a fault is pending `CLRF`'s word is executed and every other is
dropped; otherwise a word that decodes to an instruction runs exactly that instruction, on the state with the word taken from
the host's script, and an illegal word records `IllegalCommand` and itself, and nothing else. Reads and writes are carried
out whatever fault is pending. -/
def Obligations.StepIssuesTheCommand : Prop :=
  ∀ (s : State) (rest : List HostOp), s.phase = .idle →
    (∀ w : Word, s.script = .cmd w :: rest →
      (s.status.fault ≠ .none → w = 0x0000001F →
        step s = exec .clrf { s with script := rest } ∧
        step s = .next { s with script := rest, status := { s.status with fault := .none }, finfo := 0 }) ∧
      (s.status.fault ≠ .none → w ≠ 0x0000001F → step s = .next { s with script := rest }) ∧
      (s.status.fault = .none → ∀ i, decode w = .ok i → step s = exec i { s with script := rest }) ∧
      (s.status.fault = .none → ∀ r, decode w = .error r →
        step s = .next { s with
          script := rest, status := { s.status with fault := .illegalCommand }, finfo := w,
          phase := .idle, chain := false })) ∧
    (∀ space index, s.script = .read space index :: rest →
      step s = .next (hostRead space index { s with script := rest })) ∧
    (∀ space index data, s.script = .write space index data :: rest →
      step s = .next (hostWrite space index data { s with script := rest }))

/-- Rule R63 with the refusals of rule R65 that concern reads: what `HostRead` returns for each readable pair, changing
nothing of the block, and what a refused read does, with no fault pending and with one. -/
def Obligations.HostReadReturnsTheEntry : Prop :=
  ∀ (s : State) (space : BitVec 4) (index : BitVec 16) (rest : List HostOp),
    s.phase = .idle → s.script = .read space index :: rest →
    let n := index.toNat
    let refused := 11 ≤ space.toNat ∨ (space.toNat = 0 ∧ 12 ≤ n) ∨ (1 ≤ space.toNat ∧ space.toNat ≤ 8 ∧ 256 ≤ n) ∨
      (space.toNat = 9 ∧ 512 ≤ n) ∨ (space.toNat = 10 ∧ (n = 0 ∨ 256 ≤ n))
    let returns := fun v : Word => step s = .next { s with script := rest, returned := s.returned ++ [v] }
    (space = 1 → n < 256 → returns ((Mem.read s.cw n).setWidth 32)) ∧
    (space = 2 → n < 256 → returns ((Mem.read s.g n).setWidth 32)) ∧
    (space = 3 → n < 256 → returns ((Mem.read s.synd n).setWidth 32)) ∧
    (space = 4 → n < 256 → returns ((Mem.read s.sigma n).setWidth 32)) ∧
    (space = 5 → n < 256 → returns ((Mem.read s.bpoly n).setWidth 32)) ∧
    (space = 6 → n < 256 → returns ((Mem.read s.omega n).setWidth 32)) ∧
    (space = 7 → n < 256 → returns ((Mem.read s.epos n).setWidth 32)) ∧
    (space = 8 → n < 256 → returns ((Mem.read s.emag n).setWidth 32)) ∧
    (space = 9 → n < 512 → returns ((expAt s.tables n).setWidth 32)) ∧
    (space = 10 → 1 ≤ n → n < 256 → returns (BitVec.ofNat 32 (logAt s.tables (BitVec.ofNat 8 n)))) ∧
    (space = 0 → n = 0x00 → returns (s.dlen.setWidth 32)) ∧
    (space = 0 → n = 0x01 → returns (s.nsym.setWidth 32)) ∧
    (space = 0 → n = 0x02 → returns (statusWord s.status)) ∧
    (space = 0 → n = 0x03 → returns s.finfo) ∧
    (space = 0 → n = 0x04 → returns (s.res.setWidth 32)) ∧
    (space = 0 → n = 0x05 → returns (s.len.setWidth 32)) ∧
    (space = 0 → n = 0x06 → returns (s.deg.setWidth 32)) ∧
    (space = 0 → n = 0x07 → returns (s.nroot.setWidth 32)) ∧
    (space = 0 → n = 0x08 → returns (s.errcnt.setWidth 32)) ∧
    (space = 0 → n = 0x09 → returns (s.bdisc.setWidth 32)) ∧
    (space = 0 → n = 0x0A → returns (s.mshift.setWidth 32)) ∧
    (space = 0 → n = 0x0B → returns 0) ∧
    (refused → s.status.fault = .none → step s = .next { s with
      script := rest, returned := s.returned ++ [0], status := { s.status with fault := .badAccess },
      finfo := BitVec.ofNat 32 (2 ^ 16 * space.toNat + n), phase := .idle, chain := false }) ∧
    (refused → s.status.fault ≠ .none → step s = .next { s with
      script := rest, returned := s.returned ++ [0], phase := .idle, chain := false })

/-- Rule R64 with the refusals of rule R65 that concern writes: an accepted write changes one entry of `CW`, or `DLEN`, or
`NSYM`, whatever fault is pending; a refused one writes nothing and, with no fault pending, records `BadAccess`. -/
def Obligations.HostWriteWritesOneEntry : Prop :=
  ∀ (s : State) (space : BitVec 4) (index : BitVec 16) (data : Word) (rest : List HostOp),
    s.phase = .idle → s.script = .write space index data :: rest →
    let n := index.toNat
    let accepted := data.toNat < 256 ∧ ((space = 1 ∧ n < 256) ∨ (space = 0 ∧ n < 2))
    (data.toNat < 256 → space = 1 → n < 256 →
      ∃ t, step s = .next t ∧ t = { s with script := rest, cw := t.cw } ∧
        Mem.read t.cw n = BitVec.ofNat 8 data.toNat ∧ ∀ a, a ≠ n → Mem.read t.cw a = Mem.read s.cw a) ∧
    (data.toNat < 256 → space = 0 → n = 0 →
      step s = .next { s with script := rest, dlen := BitVec.ofNat 8 data.toNat }) ∧
    (data.toNat < 256 → space = 0 → n = 1 →
      step s = .next { s with script := rest, nsym := BitVec.ofNat 8 data.toNat }) ∧
    (¬ accepted → s.status.fault = .none → step s = .next { s with
      script := rest, status := { s.status with fault := .badAccess },
      finfo := BitVec.ofNat 32 (2 ^ 31 + 2 ^ 16 * space.toNat + n), phase := .idle, chain := false }) ∧
    (¬ accepted → s.status.fault ≠ .none → step s = .next { s with script := rest, phase := .idle, chain := false })

/-- Rule R240: a reset, in any state and in the middle of a command too, gives the block the reset values. That the host's
pending operations and the values it has read stay is the model's choice, a DESIGN CHOICE of assumption 3. -/
def Obligations.HostResetGivesTheResetValues : Prop :=
  ∀ (s : State) (rest : List HostOp), s.script = .reset :: rest →
    ∃ t, step s = .next t ∧ resetValues t ∧ t.script = rest ∧ t.returned = s.returned

/-- Rule R40: the state after reset. -/
def Obligations.ResetStateHoldsTheResetValues : Prop := resetValues State.reset

/-- Rules R177, R222, R241: between host operations the state of an idle block is constant. -/
def Obligations.IdleBlockWaits : Prop :=
  ∀ s : State, s.phase = .idle → s.script = [] → step s = .next s

/-- Rule R61: while a command is under way a host operation other than reset is held, and nothing that only the host or fault
entry writes changes. That such a step runs exactly one phase, the one that `PHASE` names, is the model's choice, a DESIGN
CHOICE of assumption 2, within rule R37's "A model may take one step per phase or one step per command". -/
def Obligations.HostIsHeldDuringACommand : Prop :=
  ∀ (s : State) (op : HostOp) (rest : List HostOp), s.phase ≠ .idle → s.script = op :: rest → op ≠ .reset →
    s.dlen.toNat + s.nsym.toNat ≤ 255 →
    step s = .next (runPhase s) ∧
    ∃ t, step s = .next t ∧ t.script = s.script ∧ t.returned = s.returned ∧ t.dlen = s.dlen ∧ t.nsym = s.nsym ∧
      t.status.fault = s.status.fault ∧ t.finfo = s.finfo

/-- The table of rule R177: the successor of every phase, with the condition on which it depends and the result it leaves
where the command ends. `FORNEY` is degenerate when a listed position is outside the codeword or has a zero derivative
(rule R172). That a step runs one phase is the model's choice, a DESIGN CHOICE of assumption 2. -/
def Obligations.PhaseSuccessors : Prop :=
  ∀ s : State, s.script = [] → s.dlen.toNat + s.nsym.toNat ≤ 255 →
    ∃ t, step s = .next t ∧
      (s.phase = .idle → t = s) ∧
      (s.phase = .gen → t.phase = .div) ∧
      (s.phase = .div → t.phase = .idle) ∧
      (s.phase = .syn → s.chain = true → t.phase = if t.status.szero then .idle else .bma) ∧
      (s.phase = .syn → s.chain = false → t.phase = .idle) ∧
      (s.phase = .syn → t.phase = .idle → t.status.result = .ok ∧ t.status.cause = .none) ∧
      (s.phase = .bma → t.phase = .gate) ∧
      (s.phase = .gate → s.nsym.toNat < 2 * s.deg.toNat →
        t.phase = .idle ∧ t.status.result = .fail ∧ t.status.cause = .tooManyErrors) ∧
      (s.phase = .gate → 2 * s.deg.toNat ≤ s.nsym.toNat → s.chain = true → t.phase = .chien) ∧
      (s.phase = .gate → 2 * s.deg.toNat ≤ s.nsym.toNat → s.chain = false →
        t.phase = .idle ∧ t.status.result = .ok ∧ t.status.cause = .none) ∧
      (s.phase = .chien → t.nroot ≠ t.deg →
        t.phase = .idle ∧ t.status.result = .fail ∧ t.status.cause = .tooManyErrors) ∧
      (s.phase = .chien → t.nroot = t.deg → s.chain = true → t.phase = .forney) ∧
      (s.phase = .chien → t.nroot = t.deg → s.chain = false →
        t.phase = .idle ∧ t.status.result = .ok ∧ t.status.cause = .none) ∧
      (s.phase = .forney →
        let n := s.dlen.toNat + s.nsym.toNat
        let pos := fun k : Nat => (Mem.read s.epos k).toNat
        let degenerate := ∃ k, k < s.nroot.toNat ∧
          (n ≤ pos k ∨ derivativeAt s.tables s.sigma s.deg.toNat (alphaInv s.tables (n - 1 - pos k)) = 0)
        (degenerate → t.phase = .idle ∧ t.status.result = .fail ∧ t.status.cause = .degenerateLocator) ∧
        (¬ degenerate → t.phase = .corr)) ∧
      (s.phase = .corr → s.chain = true → t.phase = .verify) ∧
      (s.phase = .corr → s.chain = false → t.phase = .idle ∧ t.status.result = .ok ∧ t.status.cause = .none) ∧
      (s.phase = .verify → t.phase = .idle ∧
        ((t.status.szero = true ∧ t.status.result = .ok ∧ t.status.cause = .none) ∨
         (t.status.szero = false ∧ t.status.result = .fail ∧ t.status.cause = .verificationFailed))) ∧
      (s.phase ≠ .idle → t.phase = .idle → t.chain = false) ∧
      (t.phase ≠ .idle → t.chain = s.chain)

/-! ### Faults -/

/-- Rules R216, R221: the first fault wins. While one is pending nothing but `CLRF` or a reset changes `FAULT` or `FINFO`. -/
def Obligations.FirstFaultIsKept : Prop :=
  ∀ s t : State, s.status.fault ≠ .none → step s = .next t →
    (∀ rest, s.script ≠ .reset :: rest) → (∀ rest, s.script ≠ .cmd 0x0000001F :: rest) →
    t.status.fault = s.status.fault ∧ t.finfo = s.finfo

/-- Rules R211, R216, R220: a command that faults changes nothing but `FAULT` and `FINFO`, which holds its word, and the
cause is `DivisionByZero` for a zero divisor of `GFDIV` or `GFINV`, or `ConfigError` for a Reed-Solomon command on an illegal
configuration. -/
def Obligations.CommandFaultsArePrecise : Prop :=
  ∀ (i : Instr) (s t : State), s.status.fault = .none → exec i s = .next t → t.status.fault ≠ .none →
    t = { s with
      status := { s.status with fault := t.status.fault }, finfo := encode i, phase := .idle, chain := false } ∧
    ((t.status.fault = .divisionByZero ∧ ((∃ a, i = .gfdiv a 0) ∨ i = .gfinv 0)) ∨
     (t.status.fault = .configError ∧ isReedSolomon i = true ∧ 255 < s.dlen.toNat + s.nsym.toNat))

/-- Rule R213: the host may write any byte to `DLEN` and to `NSYM`, and each of the six Reed-Solomon commands raises
`ConfigError` with its own word, before anything else is written, when the two registers together exceed 255. -/
def Obligations.ConfigErrorComesFirst : Prop :=
  (∀ (s : State) (v : Byte), hostWrite 0 0 (v.setWidth 32) s = { s with dlen := v } ∧
    hostWrite 0 1 (v.setWidth 32) s = { s with nsym := v }) ∧
  (∀ (i : Instr) (w : Word) (s : State),
    (i, w) ∈ [(Instr.rsenc, 0x10), (.rsdec, 0x11), (.synd, 0x12), (.bma, 0x13), (.chien, 0x14), (.forney, 0x15)] →
    s.status.fault = .none → s.dlen.toNat + s.nsym.toNat > 255 →
    exec i s = .next { s with
      status := { s.status with fault := .configError }, finfo := w, phase := .idle, chain := false })

/-! ### The Galois-field engine -/

/-- Rule R104's own inference ("derived: from rule R103"): the printed tables of the reset state are those of the
construction, `LOG[0]` apart. -/
def Obligations.ResetTablesAreTheConstruction : Prop :=
  (∀ i, i < 512 → expAt Tables.reset i = builtExp i) ∧
  (∀ v : Byte, v ≠ 0 → logAt Tables.reset v = (builtLog v).toNat)

/-- The inference of rule R105, which the spec marks derived, (a) to (e). -/
def Obligations.TablesArePermutations : Prop :=
  ∀ T : Tables, tablesIntact T →
    (((List.range 255).map (expAt T)).Nodup ∧ ∀ v : Byte, v ≠ 0 → ∃ i, i < 255 ∧ expAt T i = v) ∧
    ((∀ i, i ≤ 256 → expAt T (i + 255) = expAt T i) ∧ expAt T 255 = 1) ∧
    ((∀ v : Byte, v ≠ 0 → expAt T (logAt T v) = v) ∧ ∀ i, i < 255 → logAt T (expAt T i) = i) ∧
    (logAt T 1 = 0 ∧ logAt T 2 = 1 ∧ logAt T 0x8E = 254 ∧ ∀ v : Byte, v ≠ 0 → logAt T v ≤ 254) ∧
    (∀ i, i < 512 → expAt T i ≠ 0)

/-- The inference that rule R102 marks derived: the product by tables is the carry-less product reduced modulo 0x11D, for all
pairs. -/
def Obligations.TableProductIsPolynomialProduct : Prop :=
  ∀ T : Tables, tablesIntact T → ∀ a b : Byte, gfMul T a b = bitMul a b

/-- The inference of rule R114, which the spec marks derived: the field laws. -/
def Obligations.FieldLaws : Prop :=
  ∀ T : Tables, tablesIntact T → ∀ a b c : Byte,
    (a ^^^ b = b ^^^ a ∧ (a ^^^ b) ^^^ c = a ^^^ (b ^^^ c) ∧ a ^^^ 0 = a ∧ a ^^^ a = 0) ∧
    (gfMul T a b = gfMul T b a ∧ gfMul T (gfMul T a b) c = gfMul T a (gfMul T b c) ∧ gfMul T a 1 = a ∧
      gfMul T a 0 = 0 ∧ gfMul T a (b ^^^ c) = gfMul T a b ^^^ gfMul T a c ∧
      (gfMul T a b = 0 ↔ a = 0 ∨ b = 0)) ∧
    (b ≠ 0 → ∃ r q, gfInv T b = some r ∧ gfDiv T a b = some q ∧ q = gfMul T a r ∧ gfMul T q b = a) ∧
    (a ≠ 0 → ∃ r, gfInv T a = some r ∧ gfMul T a r = 1) ∧
    (gfPow T a 1 = a ∧ (∀ e f : Nat, gfPow T a (e + f) = gfMul T (gfPow T a e) (gfPow T a f)) ∧
      (a ≠ 0 → gfPow T a 255 = 1)) ∧
    ((∀ i : Nat, alpha T i = gfPow T 2 i) ∧ ∀ i : Nat, i ≤ 254 → gfMul T (alpha T i) (alphaInv T i) = 1)

/-- Rule R110: `GFMUL` completes in every state; `RES` takes the product and nothing else changes. Its encoding, its illegal
words, its corner cases and its example, in every state of the tables that a run reaches. That the product is the polynomial
product is rule R102's own inference, stated by `TableProductIsPolynomialProduct`. -/
def Obligations.GfmulWritesTheProduct : Prop :=
  (∀ (a b : Byte) (s : State), exec (.gfmul a b) s = .next { s with res := gfMul s.tables a b }) ∧
  (∀ a b : Byte, encode (.gfmul a b) = 0#8 ++ b ++ a ++ 0x01#8) ∧
  (∀ w : Word, opcodeOf w = 0x01 → w.extractLsb' 24 8 ≠ 0 → decode w = .error .reservedBits) ∧
  ∀ T : Tables, tablesIntact T → ∀ a b : Byte,
    (a = 0 ∨ b = 0 → gfMul T a b = 0) ∧ gfMul T 1 b = b ∧ gfMul T a b = gfMul T b a ∧ gfMul T 0x02 0x80 = 0x1D

/-- Rule R111: `GFDIV` by a nonzero divisor completes with `RES` the quotient and nothing else changed; by zero it records
`DivisionByZero` and its word, `RES` unchanged. Its encoding, its corner cases and its example. The clause with `bitMul`,
that the quotient is the one element whose product with the divisor is the dividend, is the spec's own inference (rules R107,
R114 and R102 mark it derived). -/
def Obligations.GfdivWritesTheQuotient : Prop :=
  (∀ a b : Byte, encode (.gfdiv a b) = 0#8 ++ b ++ a ++ 0x02#8) ∧
  (∀ (a b : Byte) (s : State), tablesIntact s.tables →
    (b ≠ 0 → ∃ q, gfDiv s.tables a b = some q ∧ exec (.gfdiv a b) s = .next { s with res := q } ∧
      (bitMul q b = a ∧ ∀ r, bitMul r b = a → r = q) ∧
      (a = 0 → q = 0) ∧ (a = b → q = 1) ∧ (b = 1 → q = a)) ∧
    (b = 0 → s.status.fault = .none → exec (.gfdiv a b) s = .next { s with
      status := { s.status with fault := .divisionByZero },
      finfo := BitVec.ofNat 32 (2 ^ 8 * a.toNat + 2), phase := .idle, chain := false })) ∧
  ∀ T : Tables, tablesIntact T → gfDiv T 0x1D 0x02 = some 0x80

/-- Rule R112: `GFPOW` completes in every state with `RES` the power and nothing else changed; it has no illegal word and no
fault. Its encoding, its corner cases and its example. The clause with `bitMul`, that the table formula gives the product of
`e` copies of the base, is the spec's own inference (rules R109 and R102 mark it derived). -/
def Obligations.GfpowWritesTheRepeatedProduct : Prop :=
  (∀ (a : Byte) (e : BitVec 16) (s : State), exec (.gfpow a e) s = .next { s with res := gfPow s.tables a e.toNat }) ∧
  (∀ (a : Byte) (e : BitVec 16), encode (.gfpow a e) = e ++ a ++ 0x03#8) ∧
  (∀ w : Word, opcodeOf w = 0x03 → ∃ a e, decode w = .ok (.gfpow a e)) ∧
  ∀ T : Tables, tablesIntact T → ∀ (a : Byte) (e : BitVec 16),
    gfPow T a e.toNat = loop e.toNat (fun _ p => bitMul p a) 1 ∧
    (e = 0 → gfPow T a e.toNat = 1) ∧ (a = 0 → e ≠ 0 → gfPow T a e.toNat = 0) ∧ (a = 1 → gfPow T a e.toNat = 1) ∧
    (a ≠ 0 → gfPow T a e.toNat = gfPow T a (e.toNat % 255) ∧ gfPow T a 255 = 1 ∧ gfPow T a 256 = a) ∧
    gfPow T 0x02 8 = 0x1D

/-- Rule R113: `GFINV` of a nonzero element completes with `RES` its inverse and nothing else changed; of zero it records
`DivisionByZero` and its word, `RES` unchanged. Its encoding, its corner cases and its example. The clause with `bitMul`, that
the product of the element and its inverse is 1, is the spec's own inference (rules R114 and R102 mark it derived). -/
def Obligations.GfinvWritesTheInverse : Prop :=
  (∀ a : Byte, encode (.gfinv a) = 0#16 ++ a ++ 0x04#8) ∧
  (∀ (a : Byte) (s : State), tablesIntact s.tables →
    (a ≠ 0 → ∃ q, gfInv s.tables a = some q ∧ exec (.gfinv a) s = .next { s with res := q } ∧
      bitMul a q = 1 ∧ gfInv s.tables q = some a ∧ (a = 1 → q = 1)) ∧
    (a = 0 → s.status.fault = .none → exec (.gfinv a) s = .next { s with
      status := { s.status with fault := .divisionByZero }, finfo := 0x00000004, phase := .idle, chain := false })) ∧
  ∀ T : Tables, tablesIntact T → gfInv T 0x02 = some 0x8E ∧ gfMul T 0x8E 0x02 = 1

/-- Rule R22, entry U1: no command's result depends on `LOG[0]`. Changing that entry changes nothing else of the state a
command leaves, in any state. -/
def Obligations.NoResultDependsOnLogZero : Prop :=
  ∀ (i : Instr) (s : State) (z : Byte), ∃ t,
    exec i s = .next t ∧
    exec i { s with tables := withLogZero z s.tables } = .next { t with tables := withLogZero z t.tables }

/-! ### System commands -/

/-- Rule R200: `NOP`, the word 0x00000000, completes and changes nothing; issued while a fault is pending it changes nothing
either; opcode 0x00 with any other bit set is not `NOP` but illegal. -/
def Obligations.NopChangesNothing : Prop :=
  encode .nop = 0x00000000 ∧ (∀ s : State, exec .nop s = .next s ∧ hostCmd 0x00000000 s = .next s) ∧
  (∀ w : Word, opcodeOf w = 0 → w ≠ 0 → decode w = .error .reservedBits)

/-- Rule R201: `CLRF`, the word 0x0000001F, completes, clears `FAULT` and `FINFO` and changes nothing else; in the word the
host reads, bits 15:12 become 0 and every other bit stays; with no fault pending and `FINFO` 0 it changes nothing. It is
executed while a fault is pending, and no other word is; a word of opcode 0x1F with a bit above set is illegal, and ignored
while a fault is pending. -/
def Obligations.ClrfClearsTheFaultAlone : Prop :=
  encode .clrf = 0x0000001F ∧
  (∀ s : State,
    exec .clrf s = .next { s with status := { s.status with fault := .none }, finfo := 0 } ∧
    statusWord { s.status with fault := .none } = statusWord s.status &&& 0xFFFF0FFF ∧
    (s.status.fault = .none → s.finfo = 0 → exec .clrf s = .next s) ∧
    (s.status.fault ≠ .none → ∀ w : Word,
      hostCmd w s = if w = 0x0000001F then exec .clrf s else .next s)) ∧
  (∀ w : Word, opcodeOf w = 0x1F → w ≠ 0x0000001F → decode w = .error .reservedBits)

/-! ### The encoder -/

/-- Rules R132, R134, R135: `RSENC` on a legal configuration completes. It leaves the generator polynomial in `G` and the
division's remainder in the parity bytes, sets `RESULT` and `CAUSE`, and changes no other byte of `CW` and no other
register. -/
def Obligations.RsencWritesTheParityAlone : Prop :=
  ∀ s : State, s.dlen.toNat + s.nsym.toNat ≤ 255 →
    ∃ t, exec .rsenc s = .next t ∧
      t = { s with
        g := t.g, cw := t.cw, status := { s.status with result := .ok, cause := .none },
        phase := .idle, chain := false } ∧
      t.g = generatorPoly s.tables s.nsym.toNat ∧
      (∀ a, a < s.dlen.toNat ∨ s.dlen.toNat + s.nsym.toNat ≤ a → Mem.read t.cw a = Mem.read s.cw a) ∧
      (∀ k, k < s.nsym.toNat → Mem.read t.cw (s.dlen.toNat + k) =
        Mem.read (divSequence s.tables t.g s.cw s.dlen.toNat s.nsym.toNat) (s.dlen.toNat + k))

/-- Rules R27, R132: the polynomial that `RSENC` leaves in `G` is monic of degree `NSYM`, highest degree first, and α^i is a
root of it for every i < `NSYM`. -/
def Obligations.GeneratorHasTheRoots : Prop :=
  ∀ s t : State, tablesIntact s.tables → s.dlen.toNat + s.nsym.toNat ≤ 255 → exec .rsenc s = .next t →
    Mem.read t.g 0 = 1 ∧ (∀ j, s.nsym.toNat < j → Mem.read t.g j = 0) ∧ Mem.read t.g s.nsym.toNat ≠ 0 ∧
    ∀ i, i < s.nsym.toNat → evalWord s.tables t.g (s.nsym.toNat + 1) (alpha s.tables i) = 0

/-- The inference that rule R137 marks derived: the parity that `RSENC` writes is what the feedback shift register leaves. -/
def Obligations.ParityIsTheShiftRegister : Prop :=
  ∀ s : State, s.dlen.toNat + s.nsym.toNat ≤ 255 →
    ∃ t, exec .rsenc s = .next t ∧ ∀ k, k < s.nsym.toNat →
      Mem.read t.cw (s.dlen.toNat + k) =
        Mem.read (shiftRegister s.tables t.g s.cw s.dlen.toNat s.nsym.toNat) k

/-- The inference of rule R136 (a), (b), which the spec marks derived: after `RSENC` the buffer holds the payload and a
codeword, so `SYND` finds every syndrome zero. -/
def Obligations.EncodedWordHasZeroSyndromes : Prop :=
  ∀ s : State, tablesIntact s.tables → s.dlen.toNat + s.nsym.toNat ≤ 255 →
    ∃ t u, exec .rsenc s = .next t ∧ holdsCodeword t ∧
      (∀ j, j < s.dlen.toNat → Mem.read t.cw j = Mem.read s.cw j) ∧
      exec .synd t = .next u ∧ u.status.szero = true ∧ ∀ i, Mem.read u.synd i = 0

/-- The inference of rule R136 (a), which the spec marks derived: after `RSENC`, `RSDEC` returns `OK` with `ERRCNT = 0` and
leaves the buffer as it is. -/
def Obligations.EncodedWordDecodesClean : Prop :=
  ∀ s : State, tablesIntact s.tables → s.dlen.toNat + s.nsym.toNat ≤ 255 →
    ∃ t u, exec .rsenc s = .next t ∧ exec .rsdec t = .next u ∧ u.status.result = .ok ∧ u.errcnt = 0 ∧
      u.status.paychg = false ∧ u.cw = t.cw

/-- A corner case of rule R135: `RSENC` is idempotent. The premise on the buffer's form, which is the model's own
(assumption 5), holds in every reachable state. -/
def Obligations.RsencIsIdempotent : Prop :=
  ∀ s : State, Mem.wf s.cw = true → s.dlen.toNat + s.nsym.toNat ≤ 255 →
    ∃ t, exec .rsenc s = .next t ∧ exec .rsenc t = .next t

/-! ### The stage commands -/

/-- Rules R151, R152: `SYND` on a legal configuration completes. `S[i]` is the received word at α^i as a sum of powers, zero
from `NSYM` on; `SZERO` says whether all are zero; nothing else changes but `RESULT` and `CAUSE`. -/
def Obligations.SyndEvaluatesTheWord : Prop :=
  ∀ s : State, tablesIntact s.tables → s.dlen.toNat + s.nsym.toNat ≤ 255 →
    ∃ t, exec .synd s = .next t ∧
      t = { s with
        synd := t.synd, status := { s.status with result := .ok, cause := .none, szero := t.status.szero },
        phase := .idle, chain := false } ∧
      (∀ i, i < s.nsym.toNat → Mem.read t.synd i =
        xorSum (s.dlen.toNat + s.nsym.toNat) (fun j =>
          bitMul (Mem.read s.cw j) (gfPow s.tables (alpha s.tables i) (s.dlen.toNat + s.nsym.toNat - 1 - j)))) ∧
      (∀ i, s.nsym.toNat ≤ i → Mem.read t.synd i = 0) ∧
      (t.status.szero = true ↔ ∀ i, i < s.nsym.toNat → Mem.read t.synd i = 0)

/-- Rules R153 to R155: `BMA` on a legal configuration completes. It writes σ, B, `L`, `DEG`, `BDISC`, `MSHIFT` and the
gate's verdict, nothing else; `DEG` is the degree of σ. -/
def Obligations.BmaWritesTheLocator : Prop :=
  ∀ s : State, s.dlen.toNat + s.nsym.toNat ≤ 255 →
    ∃ t, exec .bma s = .next t ∧
      t = { s with
        sigma := t.sigma, bpoly := t.bpoly, len := t.len, deg := t.deg, bdisc := t.bdisc, mshift := t.mshift,
        status := { s.status with result := t.status.result, cause := t.status.cause },
        phase := .idle, chain := false } ∧
      Mem.read t.sigma t.deg.toNat ≠ 0 ∧ (∀ i, t.deg.toNat < i → Mem.read t.sigma i = 0) ∧
      (s.nsym.toNat < 2 * t.deg.toNat → t.status.result = .fail ∧ t.status.cause = .tooManyErrors) ∧
      (2 * t.deg.toNat ≤ s.nsym.toNat → t.status.result = .ok ∧ t.status.cause = .none)

/-- The inferences of rule R156 (a) to (e), which the spec marks derived, as they stand after the phase. -/
def Obligations.BmaInvariantsHold : Prop :=
  ∀ s : State, s.dlen.toNat + s.nsym.toNat ≤ 255 →
    ∃ t, exec .bma s = .next t ∧
      Mem.read t.sigma 0 = 1 ∧ t.len.toNat ≤ s.nsym.toNat ∧ t.bdisc ≠ 0 ∧ t.deg.toNat ≤ t.len.toNat ∧
      1 ≤ t.mshift.toNat ∧ t.mshift.toNat ≤ s.nsym.toNat + 1 ∧
      (∀ i, Mem.read t.bpoly i ≠ 0 → i + t.mshift.toNat ≤ s.nsym.toNat + 1)

/-- The inference of rule R156 (f), which the spec checks by evaluation: the locator that `BMA` leaves annihilates the
syndromes from `L` on. -/
def Obligations.LocatorAnnihilatesTheSyndromes : Prop :=
  ∀ s : State, tablesIntact s.tables → s.dlen.toNat + s.nsym.toNat ≤ 255 →
    ∃ t, exec .bma s = .next t ∧
      ∀ k, t.len.toNat ≤ k → k < s.nsym.toNat →
        xorSum (t.len.toNat + 1) (fun i => gfMul s.tables (Mem.read t.sigma i) (Mem.read s.synd (k - i))) = 0

/-- Rule R155, corner case: with every syndrome zero, or none, `BMA` leaves σ = 1, `L` = `DEG` = 0, `BDISC` = 1,
`MSHIFT` = `NSYM` + 1, and `OK`. -/
def Obligations.BmaOnZeroSyndromes : Prop :=
  ∀ s : State, s.dlen.toNat + s.nsym.toNat ≤ 255 → (∀ i, i < s.nsym.toNat → Mem.read s.synd i = 0) →
    exec .bma s = .next { s with
      sigma := [(0, 1)], bpoly := [(0, 1)], len := 0, deg := 0, bdisc := 1,
      mshift := BitVec.ofNat 9 (s.nsym.toNat + 1), status := { s.status with result := .ok, cause := .none },
      phase := .idle, chain := false }

/-- Rules R170, R171: `CHIEN` on a legal configuration completes. `EPOS` lists, strictly descending, exactly the byte
positions whose power index gives a root of σ, and is zero after them; `NROOT` counts them; it fails iff the count is not
`DEG`; nothing else changes. -/
def Obligations.ChienListsTheRoots : Prop :=
  ∀ s : State, s.dlen.toNat + s.nsym.toNat ≤ 255 →
    ∃ t, exec .chien s = .next t ∧
      t = { s with
        epos := t.epos, nroot := t.nroot, status := { s.status with result := t.status.result, cause := t.status.cause },
        phase := .idle, chain := false } ∧
      (∀ p : Nat, (∃ k, k < t.nroot.toNat ∧ (Mem.read t.epos k).toNat = p) ↔
        p < s.dlen.toNat + s.nsym.toNat ∧
        xorSum (s.deg.toNat + 1) (fun d => gfMul s.tables (Mem.read s.sigma d)
          (gfPow s.tables (alphaInv s.tables (s.dlen.toNat + s.nsym.toNat - 1 - p)) d)) = 0) ∧
      (∀ j k, j < k → k < t.nroot.toNat → (Mem.read t.epos k).toNat < (Mem.read t.epos j).toNat) ∧
      (∀ k, t.nroot.toNat ≤ k → Mem.read t.epos k = 0) ∧
      (t.nroot ≠ s.deg → t.status.result = .fail ∧ t.status.cause = .tooManyErrors) ∧
      (t.nroot = s.deg → t.status.result = .ok ∧ t.status.cause = .none)

/-- Rules R172 to R174: `FORNEY` on a legal configuration completes. `OMEGA` is S·σ mod x^NSYM. If some listed position is
outside the codeword or has a zero derivative it fails, with `EMAG` zero and `CW`, `ERRCNT`, `PAYCHG` unchanged. Otherwise
each magnitude times σ′(X⁻¹) is X·Ω(X⁻¹), each byte of `CW` takes the exclusive-or of the magnitudes listed for it and no
other byte changes, `ERRCNT` is `NROOT`, and `PAYCHG` says whether a payload byte changed. Nothing else changes. -/
def Obligations.ForneyCorrectsOrRefuses : Prop :=
  ∀ s : State, tablesIntact s.tables → s.dlen.toNat + s.nsym.toNat ≤ 255 →
    let T := s.tables
    let n := s.dlen.toNat + s.nsym.toNat
    let pos := fun k : Nat => (Mem.read s.epos k).toNat
    let xi := fun k : Nat => alphaInv T (n - 1 - pos k)
    let bad := ∃ k, k < s.nroot.toNat ∧ (n ≤ pos k ∨ derivativeAt T s.sigma s.deg.toNat (xi k) = 0)
    ∃ t, exec .forney s = .next t ∧
      (∀ j, Mem.read t.omega j = if j < s.nsym.toNat then
        xorSum (min j s.deg.toNat + 1) (fun i => gfMul T (Mem.read s.sigma i) (Mem.read s.synd (j - i))) else 0) ∧
      (bad →
        t = { s with
          omega := t.omega, emag := t.emag,
          status := { s.status with result := .fail, cause := .degenerateLocator }, phase := .idle, chain := false } ∧
        ∀ k, Mem.read t.emag k = 0) ∧
      (¬ bad →
        t = { s with
          omega := t.omega, emag := t.emag, cw := t.cw, errcnt := s.nroot,
          status := { s.status with result := .ok, cause := .none, paychg := t.status.paychg },
          phase := .idle, chain := false } ∧
        (∀ k, k < s.nroot.toNat →
          gfMul T (Mem.read t.emag k) (derivativeAt T s.sigma s.deg.toNat (xi k)) =
            gfMul T (alpha T (n - 1 - pos k)) (evaluatorAt T t.omega s.nsym.toNat (xi k))) ∧
        (∀ k, s.nroot.toNat ≤ k → Mem.read t.emag k = 0) ∧
        (∀ a, Mem.read t.cw a =
          Mem.read s.cw a ^^^ xorSum s.nroot.toNat (fun k => if pos k = a then Mem.read t.emag k else 0)) ∧
        (∀ a, (∀ k, k < s.nroot.toNat → pos k ≠ a) → Mem.read t.cw a = Mem.read s.cw a) ∧
        (t.status.paychg = true ↔ ∃ k, k < s.nroot.toNat ∧ pos k < s.dlen.toNat ∧ Mem.read t.emag k ≠ 0))

/-- Rule R174, corner case: `FORNEY` issued twice in a row restores the buffer, while `ERRCNT` and `PAYCHG` are as the first
set them. -/
def Obligations.ForneyTwiceRestoresTheBuffer : Prop :=
  ∀ s t : State, s.dlen.toNat + s.nsym.toNat ≤ 255 → exec .forney s = .next t → t.status.result = .ok →
    ∃ u, exec .forney t = .next u ∧ (∀ a, Mem.read u.cw a = Mem.read s.cw a) ∧ u.errcnt = t.errcnt ∧
      u.status = t.status

/-! ### The decoder -/

/-- Rules R151, R176, R244: `RSDEC` on a word with all syndromes zero returns `OK` at once; `S` is zeroed, `ERRCNT` and
`PAYCHG` are cleared, and everything the later phases write stays as it was. -/
def Obligations.CleanWordTakesTheEarlyExit : Prop :=
  ∀ s : State, s.dlen.toNat + s.nsym.toNat ≤ 255 → holdsCodeword s →
    exec .rsdec s = .next { s with
      synd := [], errcnt := 0,
      status := { s.status with result := .ok, cause := .none, szero := true, paychg := false },
      phase := .idle, chain := false }

/-- Rules R175 and R176, with the inference of R178 (d), which the spec marks derived, but for its exact count, which
`RsdecCountsTheChangedBytes` states: `RSDEC` on a legal configuration completes, with `OK` or `FAIL`. It never writes the
tables, the configuration, `RES`, `G` or the fault registers. On `OK` the buffer holds a codeword, `SZERO` is set, `ERRCNT` is
at most floor(NSYM/2), and only bytes at the first `ERRCNT` listed positions may differ from the received word. On `FAIL` the
buffer is the received word, `ERRCNT` is 0 and `PAYCHG` is 0. The premise on the buffer's form is of the model's own form
(assumption 5). -/
def Obligations.RsdecCorrectsOrLeavesTheWord : Prop :=
  ∀ s : State, Mem.wf s.cw = true → s.dlen.toNat + s.nsym.toNat ≤ 255 →
    ∃ t, exec .rsdec s = .next t ∧
      t = { t with
        tables := s.tables, dlen := s.dlen, nsym := s.nsym, res := s.res, g := s.g, finfo := s.finfo,
        status := { t.status with fault := s.status.fault }, script := s.script, returned := s.returned,
        phase := .idle, chain := false } ∧
      (t.status.result = .ok ∨ t.status.result = .fail) ∧
      (t.status.result = .ok →
        t.status.cause = .none ∧ t.status.szero = true ∧ holdsCodeword t ∧ (∀ i, Mem.read t.synd i = 0) ∧
        2 * t.errcnt.toNat ≤ s.nsym.toNat ∧
        ∀ a, (∀ k, k < t.errcnt.toNat → (Mem.read t.epos k).toNat ≠ a) → Mem.read t.cw a = Mem.read s.cw a) ∧
      (t.status.result = .fail →
        t.status.cause ≠ .none ∧ t.cw = s.cw ∧ t.errcnt = 0 ∧ t.status.paychg = false)

/-- The inference of R178 (b), which the spec marks as general knowledge, for one error: a codeword with any one byte changed
is restored, with `ERRCNT` = 1 and `PAYCHG` telling whether the byte was in the payload, for every payload and every parity
length of at least 2. -/
def Obligations.SingleByteErrorIsCorrected : Prop :=
  ∀ (s : State) (j : Nat) (e : Byte), tablesIntact s.tables → Mem.wf s.cw = true →
    s.dlen.toNat + s.nsym.toNat ≤ 255 → 2 ≤ s.nsym.toNat → holdsCodeword s →
    j < s.dlen.toNat + s.nsym.toNat → e ≠ 0 →
    ∃ t, exec .rsdec { s with cw := Mem.write s.cw j (Mem.read s.cw j ^^^ e) } = .next t ∧
      t.status.result = .ok ∧ t.cw = s.cw ∧ t.errcnt = 1 ∧ (t.status.paychg = true ↔ j < s.dlen.toNat)

/-- The inference of R178 (b), which the spec marks as general knowledge, in full: a codeword with v byte positions of it
changed, where v is at least 1 and at most floor(NSYM/2), is restored, and `ERRCNT` is v. -/
def Obligations.ErrorsUpToHalfTheParityAreCorrected : Prop :=
  ∀ (s : State) (m : Mem), tablesIntact s.tables → Mem.wf s.cw = true → Mem.wf m = true →
    s.dlen.toNat + s.nsym.toNat ≤ 255 → holdsCodeword s →
    (∀ a, s.dlen.toNat + s.nsym.toNat ≤ a → Mem.read m a = Mem.read s.cw a) →
    let v := ((List.range (s.dlen.toNat + s.nsym.toNat)).filter (fun a => decide (Mem.read m a ≠ Mem.read s.cw a))).length
    1 ≤ v → 2 * v ≤ s.nsym.toNat →
    ∃ t, exec .rsdec { s with cw := m } = .next t ∧ t.status.result = .ok ∧ t.cw = s.cw ∧ t.errcnt.toNat = v

/-- The inference of rule R179, which the spec marks derived: `DegenerateLocator` is not reachable from `RSDEC`. -/
def Obligations.RsdecNeverFindsADegenerateLocator : Prop :=
  ∀ s : State, tablesIntact s.tables → s.dlen.toNat + s.nsym.toNat ≤ 255 →
    ∃ t, exec .rsdec s = .next t ∧ t.status.cause ≠ .degenerateLocator

/-- Rule R176, corner cases: with no parity byte `RSDEC` returns `OK` with `SZERO` set; with one it returns `OK` for a clean
word and `TooManyErrors` otherwise, the buffer unchanged. -/
def Obligations.RsdecWithFewParityBytes : Prop :=
  ∀ s : State, tablesIntact s.tables → s.dlen.toNat + s.nsym.toNat ≤ 255 →
    (s.nsym = 0 → ∃ t, exec .rsdec s = .next t ∧ t.status.result = .ok ∧ t.status.szero = true ∧ t.cw = s.cw) ∧
    (s.nsym = 1 → holdsCodeword s → ∃ t, exec .rsdec s = .next t ∧ t.status.result = .ok ∧ t.cw = s.cw) ∧
    (s.nsym = 1 → ¬ holdsCodeword s → ∃ t, exec .rsdec s = .next t ∧
      t.status.result = .fail ∧ t.status.cause = .tooManyErrors ∧ t.cw = s.cw)

/-- Program P4 against P3 (rules R152, R155, R171, R174, R176): where `RSDEC` corrects a word, the stage commands `SYND`,
`BMA`, `CHIEN`, `FORNEY`, `SYND` issued in order end in the very same state. -/
def Obligations.StagesAgreeWithTheComposite : Prop :=
  ∀ s t : State, s.dlen.toNat + s.nsym.toNat ≤ 255 → ¬ holdsCodeword s →
    exec .rsdec s = .next t → t.status.result = .ok →
    ∃ s1 s2 s3 s4, exec .synd s = .next s1 ∧ exec .bma s1 = .next s2 ∧ exec .chien s2 = .next s3 ∧
      exec .forney s3 = .next s4 ∧ exec .synd s4 = .next t

/-! ### The whole machine -/

/-- The inference of rule R37, which the spec marks derived, with rule R176: running an accepted command one phase a step,
from the state with its first `PHASE` and `CHAIN` set and no host operation pending, ends within seven steps in the state the
command leaves when it runs as one step. Both granularities are the model's choice (assumption 2). -/
def Obligations.PhaseStepsAgreeWithCommandSteps : Prop :=
  ∀ s : State, s.script = [] → s.dlen.toNat + s.nsym.toNat ≤ 255 →
    exec .rsenc s = Sys2Proof.core.run 7 { s with chain := true, phase := .gen } ∧
    exec .rsdec s = Sys2Proof.core.run 7 { s with
      chain := true, phase := .syn, errcnt := 0, status := { s.status with paychg := false } } ∧
    exec .synd s = Sys2Proof.core.run 7 { s with chain := false, phase := .syn } ∧
    exec .bma s = Sys2Proof.core.run 7 { s with chain := false, phase := .bma } ∧
    exec .chien s = Sys2Proof.core.run 7 { s with chain := false, phase := .chien } ∧
    exec .forney s = Sys2Proof.core.run 7 { s with chain := false, phase := .forney }

/-- Rule R41 with the "written by" of rules R23 to R36: what no command writes, and for each register and store the commands
that are the only ones to write it. -/
def Obligations.OnlyTheNamedCommandsWrite : Prop :=
  ∀ (i : Instr) (s t : State), exec i s = .next t →
    (t.tables = s.tables ∧ t.dlen = s.dlen ∧ t.nsym = s.nsym ∧ t.script = s.script ∧ t.returned = s.returned) ∧
    (isGf i = false → t.res = s.res) ∧
    (i ≠ .rsenc → t.g = s.g) ∧
    (i ≠ .rsenc → i ≠ .rsdec → i ≠ .forney → t.cw = s.cw) ∧
    (i ≠ .synd → i ≠ .rsdec → t.synd = s.synd ∧ t.status.szero = s.status.szero) ∧
    (i ≠ .bma → i ≠ .rsdec → t.sigma = s.sigma ∧ t.bpoly = s.bpoly ∧ t.len = s.len ∧ t.deg = s.deg ∧
      t.bdisc = s.bdisc ∧ t.mshift = s.mshift) ∧
    (i ≠ .chien → i ≠ .rsdec → t.epos = s.epos ∧ t.nroot = s.nroot) ∧
    (i ≠ .forney → i ≠ .rsdec → t.omega = s.omega ∧ t.emag = s.emag ∧ t.errcnt = s.errcnt ∧
      t.status.paychg = s.status.paychg) ∧
    (isReedSolomon i = false → t.status.result = s.status.result ∧ t.status.cause = s.status.cause)

/-- Rule R247: no command reads or writes a byte of the buffer beyond the codeword. Changing one changes nothing else of the
state any command leaves, and no command changes it. -/
def Obligations.BytesBeyondTheCodewordAreInert : Prop :=
  ∀ (i : Instr) (s : State) (a : Nat) (v : Byte), Mem.wf s.cw = true → s.dlen.toNat + s.nsym.toNat ≤ a → a < 256 →
    ∃ t, exec i s = .next t ∧ Mem.read t.cw a = Mem.read s.cw a ∧
      exec i { s with cw := Mem.write s.cw a v } = .next { t with cw := Mem.write t.cw a v }

/-- Rules R177, R249: from an idle block every host operation, every command word among them, has a next state, and it is an
idle block again. -/
def Obligations.StepKeepsTheBlockAtRest : Prop :=
  ∀ s : State, atRest s → ∃ t, step s = .next t ∧ atRest t

/-- Rules R21, R22: the tables are read-only; every step keeps their contents. -/
def Obligations.StepKeepsTheTables : Prop :=
  ∀ s t : State, step s = .next t → tablesIntact s.tables → tablesIntact t.tables

/-- Every step keeps every store in its canonical form (indices strictly rising and below 256, no zero listed), in the middle
of a command too. The form is the model's own way to hold a store of 256 bytes, DEDUCED in assumption 5; no rule speaks of
it. -/
def Obligations.StepKeepsStoresCanonical : Prop :=
  ∀ s t : State, step s = .next t → storesCanonical s → storesCanonical t

/-- Rules R35, R36, R211, R219: every step keeps `CAUSE` and `RESULT` in agreement, and `FINFO` zero while no fault is
pending. -/
def Obligations.StepKeepsStatusLegal : Prop :=
  ∀ s t : State, step s = .next t → statusLegal s → statusLegal t

/-- Rules R29, R30, R34, R156: every step keeps the locator's registers legal. -/
def Obligations.StepKeepsLocatorLegal : Prop :=
  ∀ s t : State, step s = .next t → locatorLegal s → locatorLegal t

/-- Rules R32, R170: every step keeps the list of roots strictly descending and zero beyond its end. -/
def Obligations.StepKeepsRootListLegal : Prop :=
  ∀ s t : State, step s = .next t → rootListLegal s → rootListLegal t

/-- Rules R34, R35: every step keeps `PAYCHG` clear unless corrections are counted in `ERRCNT`. -/
def Obligations.StepKeepsCorrectionFlagsLegal : Prop :=
  ∀ s t : State, step s = .next t → correctionFlagsLegal s → correctionFlagsLegal t

/-- The reset state meets every invariant. -/
def Obligations.ResetMeetsTheInvariants : Prop :=
  tablesIntact State.reset.tables ∧ atRest State.reset ∧ storesCanonical State.reset ∧ statusLegal State.reset ∧
  locatorLegal State.reset ∧ rootListLegal State.reset ∧ correctionFlagsLegal State.reset

/-! ### What a result of the decoder tells -/

/-- The inference of R178 (d), which the spec marks derived, its count: when `RSDEC` returns `OK`, the buffer differs from the
received word in exactly `ERRCNT` positions, all of them in the codeword, and `ERRCNT` is at most floor(NSYM/2). -/
def Obligations.RsdecCountsTheChangedBytes : Prop :=
  ∀ s : State, tablesIntact s.tables → Mem.wf s.cw = true → s.dlen.toNat + s.nsym.toNat ≤ 255 →
    ∃ t, exec .rsdec s = .next t ∧
      (t.status.result = .ok →
        ((List.range (s.dlen.toNat + s.nsym.toNat)).filter
          (fun a => decide (Mem.read t.cw a ≠ Mem.read s.cw a))).length = t.errcnt.toNat ∧
        2 * t.errcnt.toNat ≤ s.nsym.toNat ∧
        ∀ a, s.dlen.toNat + s.nsym.toNat ≤ a → Mem.read t.cw a = Mem.read s.cw a)

/-- The inference of R178 (e), which the spec marks as general knowledge: a codeword with v byte positions of it changed,
where v is at least 1 and at most NSYM, has a nonzero syndrome, and `RSDEC` on it never returns `OK` with `ERRCNT` = 0. -/
def Obligations.CorruptionIsNeverReportedClean : Prop :=
  ∀ (s : State) (m : Mem), tablesIntact s.tables → s.dlen.toNat + s.nsym.toNat ≤ 255 → holdsCodeword s →
    let v := ((List.range (s.dlen.toNat + s.nsym.toNat)).filter (fun a => decide (Mem.read m a ≠ Mem.read s.cw a))).length
    1 ≤ v → v ≤ s.nsym.toNat →
    ¬ holdsCodeword { s with cw := m } ∧
    ∃ t, exec .rsdec { s with cw := m } = .next t ∧ ¬ (t.status.result = .ok ∧ t.errcnt = 0)
end

