-- ==== Sys2Proof/Laws/Gf.lean ====
section
/-! SUPPORT. The small laws of the four field functions, for any tables: the zero cases, and what each can answer. -/

namespace Sys2Proof.Machine

@[simp] theorem gfMul_zero_left (T : Tables) (b : Byte) : gfMul T 0 b = 0 := by simp [gfMul]

@[simp] theorem gfMul_zero_right (T : Tables) (a : Byte) : gfMul T a 0 = 0 := by simp [gfMul]

/-- The table product does not depend on the order of its operands (rule R110). -/
theorem gfMul_comm (T : Tables) (a b : Byte) : gfMul T a b = gfMul T b a := by
  unfold gfMul; rw [Nat.add_comm]; exact if_congr Or.comm rfl rfl

/-- Of nonzero operands the product is the `EXP` entry at the sum of the logarithms (rule R106). -/
theorem gfMul_of_ne (T : Tables) {a b : Byte} (ha : a ≠ 0) (hb : b ≠ 0) :
    gfMul T a b = expAt T (logAt T a + logAt T b) := by
  unfold gfMul; rw [if_neg (by simp only [not_or]; exact ⟨ha, hb⟩)]

/-- Everything a division can answer: none for a zero divisor, else zero for a zero dividend, else a table entry
(rule R107). -/
theorem gfDiv_cases (T : Tables) (a b : Byte) :
    (b = 0 ∧ gfDiv T a b = none) ∨ (b ≠ 0 ∧ a = 0 ∧ gfDiv T a b = some 0) ∨
    (b ≠ 0 ∧ a ≠ 0 ∧ gfDiv T a b = some (expAt T (logAt T a + 255 - logAt T b))) := by
  unfold gfDiv
  by_cases hb : b = 0
  · exact .inl ⟨hb, if_pos hb⟩
  · by_cases ha : a = 0
    · exact .inr (.inl ⟨hb, ha, by rw [if_neg hb, if_pos ha]⟩)
    · exact .inr (.inr ⟨hb, ha, by rw [if_neg hb, if_neg ha]⟩)

/-- A division has no quotient exactly for a zero divisor (rule R107). -/
theorem gfDiv_eq_none (T : Tables) (a b : Byte) : gfDiv T a b = none ↔ b = 0 := by
  obtain ⟨h, e⟩ | ⟨h, _, e⟩ | ⟨h, _, e⟩ := gfDiv_cases T a b <;> rw [e] <;> simpa using h

/-- Everything an inversion can answer (rule R108). -/
theorem gfInv_cases (T : Tables) (a : Byte) :
    (a = 0 ∧ gfInv T a = none) ∨ (a ≠ 0 ∧ gfInv T a = some (expAt T (255 - logAt T a))) := by
  unfold gfInv
  by_cases ha : a = 0
  · exact .inl ⟨ha, if_pos ha⟩
  · exact .inr ⟨ha, if_neg ha⟩

@[simp] theorem gfPow_zero (T : Tables) (a : Byte) : gfPow T a 0 = 1 := by simp [gfPow]

/-- A positive power of zero is zero (rule R109). -/
theorem gfPow_zero_base (T : Tables) {e : Nat} (he : e ≠ 0) : gfPow T 0 e = 0 := by simp [gfPow, he]

/-- A positive power of a nonzero base is a table entry (rule R109). -/
theorem gfPow_of_ne (T : Tables) {a : Byte} {e : Nat} (ha : a ≠ 0) (he : e ≠ 0) :
    gfPow T a e = expAt T ((logAt T a * e) % 255) := by
  unfold gfPow; rw [if_neg he, if_neg ha]; rfl

end Sys2Proof.Machine
end

