-- ==== Sys2Proof/Laws/Mem.lean ====
section
/-! SUPPORT. The laws of byte stores: what each operation reads as, and that each keeps the canonical form. -/

namespace Sys2Proof.Machine

/-! ### Reads -/

@[simp] theorem Mem.read_nil (a : Nat) : Mem.read [] a = 0 := rfl

theorem Mem.read_cons (k : Nat) (v : Byte) (m : Mem) (a : Nat) :
    Mem.read ((k, v) :: m) a = if k = a then v else Mem.read m a := rfl

/-- An erased index reads as 0 and no other entry changes. -/
theorem Mem.read_erase (m : Mem) (a b : Nat) : Mem.read (Mem.erase m a) b = if b = a then 0 else Mem.read m b := by
  induction m with
  | nil => simp [Mem.erase]
  | cons e m ih =>
    obtain ⟨k, v⟩ := e
    by_cases hk : k = a
    · by_cases hb : b = a
      · subst hb; simpa [Mem.erase, hk] using ih
      · simp [Mem.erase, hk, hb, ih, Mem.read, Ne.symm hb]
    · by_cases hb : b = a
      · subst hb; simp [Mem.erase, hk, Mem.read, ih]
      · simp [Mem.erase, hk, hb, ih, Mem.read]

/-- Inserting at an index that is not listed changes that entry alone. -/
theorem Mem.read_insert (m : Mem) (a b : Nat) (v : Byte) (h : ∀ e ∈ m, e.1 ≠ a) :
    Mem.read (Mem.insert m a v) b = if b = a then v else Mem.read m b := by
  induction m with
  | nil => simp [Mem.insert, Mem.read, eq_comm]
  | cons e m ih =>
    obtain ⟨k, w⟩ := e
    have hk : k ≠ a := h (k, w) (by simp)
    have hm : ∀ e ∈ m, e.1 ≠ a := fun e he => h e (by simp [he])
    unfold Mem.insert
    split
    · simp [Mem.read, eq_comm]
    · by_cases hb : b = a
      · subst hb; simp [Mem.read, hk, ih hm]
      · simp [Mem.read, hb, ih hm]

theorem Mem.not_mem_erase (m : Mem) (a : Nat) : ∀ e ∈ Mem.erase m a, e.1 ≠ a := by
  induction m with
  | nil => simp [Mem.erase]
  | cons e m ih =>
    obtain ⟨k, v⟩ := e
    by_cases hk : k = a
    · simpa [Mem.erase, hk] using ih
    · simp only [Mem.erase, hk, if_false, List.mem_cons]
      rintro e (rfl | he)
      · exact hk
      · exact ih e he

/-- Read after write, for every store: the entry written reads as the value, every other entry as before. -/
theorem Mem.read_write (m : Mem) (a b : Nat) (v : Byte) :
    Mem.read (Mem.write m a v) b = if b = a then v else Mem.read m b := by
  unfold Mem.write
  split
  · next h => rw [Mem.read_erase, h]
  · rw [Mem.read_insert _ _ _ _ (Mem.not_mem_erase m a), Mem.read_erase]
    split <;> rfl

@[simp] theorem Mem.read_write_same (m : Mem) (a : Nat) (v : Byte) : Mem.read (Mem.write m a v) a = v := by
  simp [Mem.read_write]

theorem Mem.read_write_other (m : Mem) {a b : Nat} (v : Byte) (h : b ≠ a) :
    Mem.read (Mem.write m a v) b = Mem.read m b := by
  simp [Mem.read_write, h]

/-- A filled range reads as the function, every entry outside it as before. -/
theorem Mem.read_fill (m : Mem) (lo n : Nat) (f : Nat → Byte) (b : Nat) :
    Mem.read (Mem.fill m lo n f) b = if lo ≤ b ∧ b < lo + n then f b else Mem.read m b := by
  induction n generalizing lo with
  | zero => simp [Mem.fill]
  | succ n ih =>
    rw [Mem.fill, Mem.read_write, ih]
    by_cases hb : b = lo
    · subst hb; simp
    · have : (lo + 1 ≤ b ∧ b < lo + 1 + n) ↔ (lo ≤ b ∧ b < lo + (n + 1)) := by omega
      simp only [hb, if_false, this]

theorem Mem.read_tabulateFrom (lo n : Nat) (f : Nat → Byte) (b : Nat) :
    Mem.read (Mem.tabulateFrom lo n f) b = if lo ≤ b ∧ b < lo + n then f b else 0 := by
  induction n generalizing lo with
  | zero => simp [Mem.tabulateFrom]
  | succ n ih =>
    unfold Mem.tabulateFrom
    by_cases hb : b = lo
    · subst hb
      split
      · next h => rw [ih]; simp [h]
      · simp [Mem.read]
    · have hiff : (lo + 1 ≤ b ∧ b < lo + 1 + n) ↔ (lo ≤ b ∧ b < lo + (n + 1)) := by omega
      split
      · rw [ih]; exact if_congr hiff rfl rfl
      · rw [Mem.read_cons, if_neg (Ne.symm hb), ih]; exact if_congr hiff rfl rfl

/-- A store written whole reads as the function on its 256 entries. -/
theorem Mem.read_tabulate (f : Nat → Byte) (b : Nat) :
    Mem.read (Mem.tabulate f) b = if b < Config.storeSize then f b else 0 := by
  simp [Mem.tabulate, Mem.read_tabulateFrom]

/-! ### The canonical form -/

theorem Mem.wfFrom_cons (lo k : Nat) (v : Byte) (m : Mem) :
    Mem.wfFrom lo ((k, v) :: m) = true ↔ lo ≤ k ∧ k < Config.storeSize ∧ v ≠ 0 ∧ Mem.wfFrom (k + 1) m = true := by
  simp [Mem.wfFrom, and_assoc]

theorem Mem.wfFrom_mono {lo lo' : Nat} (h : lo' ≤ lo) (m : Mem) (hm : Mem.wfFrom lo m = true) :
    Mem.wfFrom lo' m = true := by
  cases m with
  | nil => rfl
  | cons e m =>
    obtain ⟨k, v⟩ := e
    rw [Mem.wfFrom_cons] at hm ⊢
    exact ⟨by omega, hm.2⟩

/-- Below its lower bound a canonical store lists nothing. -/
theorem Mem.read_of_lt_wfFrom {lo a : Nat} (m : Mem) (hm : Mem.wfFrom lo m = true) (ha : a < lo) : Mem.read m a = 0 := by
  induction m generalizing lo with
  | nil => rfl
  | cons e m ih =>
    obtain ⟨k, v⟩ := e
    rw [Mem.wfFrom_cons] at hm
    have hk : k ≠ a := by omega
    simp only [Mem.read, hk, if_false]
    exact ih hm.2.2.2 (by omega)

theorem Mem.wfFrom_erase (lo : Nat) (m : Mem) (a : Nat) (hm : Mem.wfFrom lo m = true) :
    Mem.wfFrom lo (Mem.erase m a) = true := by
  induction m generalizing lo with
  | nil => rfl
  | cons e m ih =>
    obtain ⟨k, v⟩ := e
    have h := (Mem.wfFrom_cons lo k v m).mp hm
    unfold Mem.erase
    split
    · exact Mem.wfFrom_mono (by omega) _ (ih (k + 1) h.2.2.2)
    · exact (Mem.wfFrom_cons _ _ _ _).mpr ⟨h.1, h.2.1, h.2.2.1, ih (k + 1) h.2.2.2⟩

theorem Mem.wfFrom_insert (lo : Nat) (m : Mem) (a : Nat) (v : Byte) (hm : Mem.wfFrom lo m = true) (hlo : lo ≤ a)
    (ha : a < Config.storeSize) (hv : v ≠ 0) (hne : ∀ e ∈ m, e.1 ≠ a) : Mem.wfFrom lo (Mem.insert m a v) = true := by
  induction m generalizing lo with
  | nil => exact (Mem.wfFrom_cons _ _ _ _).mpr ⟨hlo, ha, hv, rfl⟩
  | cons e m ih =>
    obtain ⟨k, w⟩ := e
    have h := (Mem.wfFrom_cons lo k w m).mp hm
    have hk : k ≠ a := hne (k, w) (by simp)
    unfold Mem.insert
    split
    · exact (Mem.wfFrom_cons _ _ _ _).mpr
        ⟨hlo, ha, hv, (Mem.wfFrom_cons _ _ _ _).mpr ⟨by omega, h.2⟩⟩
    · exact (Mem.wfFrom_cons _ _ _ _).mpr
        ⟨h.1, h.2.1, h.2.2.1, ih (k + 1) h.2.2.2 (by omega) (fun e he => hne e (by simp [he]))⟩

/-- A write to one of the 256 entries keeps the canonical form. -/
theorem Mem.wf_write (m : Mem) (a : Nat) (v : Byte) (hm : Mem.wf m = true) (ha : a < Config.storeSize) :
    Mem.wf (Mem.write m a v) = true := by
  unfold Mem.write
  split
  · exact Mem.wfFrom_erase 0 m a hm
  · next hv =>
    exact Mem.wfFrom_insert 0 _ a v (Mem.wfFrom_erase 0 m a hm) (Nat.zero_le a) ha hv (Mem.not_mem_erase m a)

/-- Filling a range inside the 256 entries keeps the canonical form. -/
theorem Mem.wf_fill (m : Mem) (lo n : Nat) (f : Nat → Byte) (hm : Mem.wf m = true) (hn : lo + n ≤ Config.storeSize) :
    Mem.wf (Mem.fill m lo n f) = true := by
  induction n generalizing lo with
  | zero => exact hm
  | succ n ih => exact Mem.wf_write _ _ _ (ih (lo + 1) (by omega)) (by omega)

theorem Mem.wfFrom_tabulateFrom (lo n : Nat) (f : Nat → Byte) (hn : lo + n ≤ Config.storeSize) :
    Mem.wfFrom lo (Mem.tabulateFrom lo n f) = true := by
  induction n generalizing lo with
  | zero => rfl
  | succ n ih =>
    unfold Mem.tabulateFrom
    split
    · exact Mem.wfFrom_mono (by omega) _ (ih (lo + 1) (by omega))
    · next h => exact (Mem.wfFrom_cons _ _ _ _).mpr ⟨le_refl lo, by omega, h, ih (lo + 1) (by omega)⟩

/-- A store written whole is in the canonical form. -/
theorem Mem.wf_tabulate (f : Nat → Byte) : Mem.wf (Mem.tabulate f) = true :=
  Mem.wfFrom_tabulateFrom 0 Config.storeSize f (by simp)

theorem Mem.ext_wfFrom {lo : Nat} {m m' : Mem} (hm : Mem.wfFrom lo m = true) (hm' : Mem.wfFrom lo m' = true)
    (h : ∀ a, Mem.read m a = Mem.read m' a) : m = m' := by
  induction m generalizing lo m' with
  | nil =>
    cases m' with
    | nil => rfl
    | cons e m' =>
      obtain ⟨k, v⟩ := e
      have h' := (Mem.wfFrom_cons lo k v m').mp hm'
      exact absurd (by simpa [Mem.read] using (h k).symm) h'.2.2.1
  | cons e m ih =>
    obtain ⟨k, v⟩ := e
    have hk := (Mem.wfFrom_cons lo k v m).mp hm
    cases m' with
    | nil => exact absurd (by simpa [Mem.read] using h k) hk.2.2.1
    | cons e' m' =>
      obtain ⟨k', v'⟩ := e'
      have hk' := (Mem.wfFrom_cons lo k' v' m').mp hm'
      have hkk : k = k' := by
        rcases Nat.lt_trichotomy k k' with hlt | heq | hlt
        · have := h k
          rw [Mem.read_of_lt_wfFrom ((k', v') :: m') (lo := k')
            ((Mem.wfFrom_cons _ _ _ _).mpr ⟨le_refl k', hk'.2⟩) hlt] at this
          exact absurd (by simpa [Mem.read] using this) hk.2.2.1
        · exact heq
        · have := h k'
          rw [Mem.read_of_lt_wfFrom ((k, v) :: m) (lo := k)
            ((Mem.wfFrom_cons _ _ _ _).mpr ⟨le_refl k, hk.2⟩) hlt] at this
          exact absurd (by simpa [Mem.read] using this.symm) hk'.2.2.1
      subst hkk
      have hv : v = v' := by simpa [Mem.read] using h k
      subst hv
      have : m = m' := by
        refine ih hk.2.2.2 hk'.2.2.2 (fun a => ?_)
        by_cases ha : k = a
        · subst ha
          rw [Mem.read_of_lt_wfFrom m hk.2.2.2 (by omega), Mem.read_of_lt_wfFrom m' hk'.2.2.2 (by omega)]
        · simpa [Mem.read, ha] using h a
      rw [this]

/-- Canonical stores that read alike are equal lists. -/
theorem Mem.ext {m m' : Mem} (hm : Mem.wf m = true) (hm' : Mem.wf m' = true)
    (h : ∀ a, Mem.read m a = Mem.read m' a) : m = m' := Mem.ext_wfFrom hm hm' h

/-- A canonical store reads as 0 from index 256 on. -/
theorem Mem.read_of_wf_ge {m : Mem} (hm : Mem.wf m = true) {a : Nat} (ha : Config.storeSize ≤ a) : Mem.read m a = 0 := by
  have key : ∀ lo (m : Mem), Mem.wfFrom lo m = true → Mem.read m a = 0 := by
    intro lo m
    induction m generalizing lo with
    | nil => intro _; rfl
    | cons e m ih =>
      obtain ⟨k, v⟩ := e
      intro h
      have h' := (Mem.wfFrom_cons lo k v m).mp h
      have : k ≠ a := by omega
      simpa [Mem.read, this] using ih (k + 1) h'.2.2.2
  exact key 0 m hm

/-! ### Loops -/

@[simp] theorem loop_zero {α : Type} (f : Nat → α → α) (a : α) : loop 0 f a = a := rfl

theorem loop_succ {α : Type} (n : Nat) (f : Nat → α → α) (a : α) : loop (n + 1) f a = f n (loop n f a) := rfl

/-- A property that the start has and every pass keeps holds at the end. -/
theorem loop_induction {α : Type} (P : Nat → α → Prop) (n : Nat) (f : Nat → α → α) (a : α) (h0 : P 0 a)
    (hs : ∀ i x, i < n → P i x → P (i + 1) (f i x)) : P n (loop n f a) := by
  have key : ∀ k, k ≤ n → P k (loop k f a) := by
    intro k
    induction k with
    | zero => intro _; exact h0
    | succ k ih => intro hk; exact hs k _ (by omega) (ih (by omega))
  exact key n (le_refl n)

@[simp] theorem xorSum_zero (t : Nat → Byte) : xorSum 0 t = 0 := rfl

theorem xorSum_succ (n : Nat) (t : Nat → Byte) : xorSum (n + 1) t = xorSum n t ^^^ t n := rfl

/-- Sums of equal terms are equal. -/
theorem xorSum_congr {n : Nat} {t u : Nat → Byte} (h : ∀ i, i < n → t i = u i) : xorSum n t = xorSum n u := by
  induction n with
  | zero => rfl
  | succ n ih => rw [xorSum_succ, xorSum_succ, ih (fun i hi => h i (by omega)), h n (by omega)]

/-- A sum of zero terms is zero. -/
theorem xorSum_eq_zero {n : Nat} {t : Nat → Byte} (h : ∀ i, i < n → t i = 0) : xorSum n t = 0 := by
  induction n with
  | zero => rfl
  | succ n ih => rw [xorSum_succ, ih (fun i hi => h i (by omega)), h n (by omega)]; rfl

/-- The sum of sums is the sum of the sums of terms. -/
theorem xorSum_xor (n : Nat) (t u : Nat → Byte) : xorSum n (fun i => t i ^^^ u i) = xorSum n t ^^^ xorSum n u := by
  induction n with
  | zero => simp
  | succ n ih =>
    rw [xorSum_succ, xorSum_succ, xorSum_succ, ih, BitVec.xor_assoc, BitVec.xor_assoc,
      ← BitVec.xor_assoc (xorSum n u), BitVec.xor_comm (xorSum n u), BitVec.xor_assoc]

end Sys2Proof.Machine
end

