-- ==== Sys2Proof/Laws/PerInstr.lean ====
section
/-! SUPPORT. Statements about every instruction as syntax, one lemma per constructor. -/

namespace Sys2Proof.Laws.LegalEncoding

/-- The word of an instruction is a command by the match and mask columns of the opcode map (rules R83, R86). -/
def Statement (i : Instr) : Prop := legalWord (encode i) = true

theorem nop : Statement .nop := by unfold Statement; decide
theorem rsenc : Statement .rsenc := by unfold Statement; decide
theorem rsdec : Statement .rsdec := by unfold Statement; decide
theorem synd : Statement .synd := by unfold Statement; decide
theorem bma : Statement .bma := by unfold Statement; decide
theorem chien : Statement .chien := by unfold Statement; decide
theorem forney : Statement .forney := by unfold Statement; decide
theorem clrf : Statement .clrf := by unfold Statement; decide

/-- A word whose bits under a row's mask are the row's pattern is legal. -/
theorem of_row {w : Word} (r : OpRow) (hr : r ∈ opTable) (h : w &&& r.mask = r.pattern) : legalWord w = true := by
  simp only [legalWord, List.any_eq_true]
  exact ⟨r, hr, by simp [OpRow.matches, h]⟩

theorem gfmul (a b : Byte) : Statement (.gfmul a b) := by
  refine of_row ⟨"GFMUL", 0x00000001, 0xFF0000FF⟩ (by decide) ?_
  simp only [encode, wordAB]
  refine BitVec.eq_of_getLsbD_eq (fun i hi => ?_)
  interval_cases i <;> simp only [BitVec.getLsbD_and, BitVec.getLsbD_append] <;> simp

theorem gfdiv (a b : Byte) : Statement (.gfdiv a b) := by
  refine of_row ⟨"GFDIV", 0x00000002, 0xFF0000FF⟩ (by decide) ?_
  simp only [encode, wordAB]
  refine BitVec.eq_of_getLsbD_eq (fun i hi => ?_)
  interval_cases i <;> simp only [BitVec.getLsbD_and, BitVec.getLsbD_append] <;> simp

theorem gfpow (a : Byte) (e : BitVec 16) : Statement (.gfpow a e) := by
  refine of_row ⟨"GFPOW", 0x00000003, 0x000000FF⟩ (by decide) ?_
  simp only [encode, wordAE]
  refine BitVec.eq_of_getLsbD_eq (fun i hi => ?_)
  interval_cases i <;> simp only [BitVec.getLsbD_and, BitVec.getLsbD_append] <;> simp

theorem gfinv (a : Byte) : Statement (.gfinv a) := by
  refine of_row ⟨"GFINV", 0x00000004, 0xFFFF00FF⟩ (by decide) ?_
  simp only [encode, wordA]
  refine BitVec.eq_of_getLsbD_eq (fun i hi => ?_)
  interval_cases i <;> simp only [BitVec.getLsbD_and, BitVec.getLsbD_append] <;> simp

end Sys2Proof.Laws.LegalEncoding
end

