-- ==== Sys2Proof/Laws/State.lean ====
section
/-! SUPPORT. What each named update of the state leaves in each field: one lemma per field per update, so that no proof
unfolds a record update. -/

namespace Sys2Proof.Machine


/-! ### toIdle -/

@[simp] theorem toIdle_tables (s : State) : (toIdle s).tables = s.tables := rfl
@[simp] theorem toIdle_dlen (s : State) : (toIdle s).dlen = s.dlen := rfl
@[simp] theorem toIdle_nsym (s : State) : (toIdle s).nsym = s.nsym := rfl
@[simp] theorem toIdle_res (s : State) : (toIdle s).res = s.res := rfl
@[simp] theorem toIdle_cw (s : State) : (toIdle s).cw = s.cw := rfl
@[simp] theorem toIdle_g (s : State) : (toIdle s).g = s.g := rfl
@[simp] theorem toIdle_synd (s : State) : (toIdle s).synd = s.synd := rfl
@[simp] theorem toIdle_sigma (s : State) : (toIdle s).sigma = s.sigma := rfl
@[simp] theorem toIdle_bpoly (s : State) : (toIdle s).bpoly = s.bpoly := rfl
@[simp] theorem toIdle_omega (s : State) : (toIdle s).omega = s.omega := rfl
@[simp] theorem toIdle_epos (s : State) : (toIdle s).epos = s.epos := rfl
@[simp] theorem toIdle_emag (s : State) : (toIdle s).emag = s.emag := rfl
@[simp] theorem toIdle_len (s : State) : (toIdle s).len = s.len := rfl
@[simp] theorem toIdle_deg (s : State) : (toIdle s).deg = s.deg := rfl
@[simp] theorem toIdle_nroot (s : State) : (toIdle s).nroot = s.nroot := rfl
@[simp] theorem toIdle_errcnt (s : State) : (toIdle s).errcnt = s.errcnt := rfl
@[simp] theorem toIdle_bdisc (s : State) : (toIdle s).bdisc = s.bdisc := rfl
@[simp] theorem toIdle_mshift (s : State) : (toIdle s).mshift = s.mshift := rfl
@[simp] theorem toIdle_status (s : State) : (toIdle s).status = s.status := rfl
@[simp] theorem toIdle_finfo (s : State) : (toIdle s).finfo = s.finfo := rfl
@[simp] theorem toIdle_phase (s : State) : (toIdle s).phase = .idle := rfl
@[simp] theorem toIdle_chain (s : State) : (toIdle s).chain = false := rfl
@[simp] theorem toIdle_script (s : State) : (toIdle s).script = s.script := rfl
@[simp] theorem toIdle_returned (s : State) : (toIdle s).returned = s.returned := rfl

/-! ### setOk -/

@[simp] theorem setOk_tables (s : State) : (setOk s).tables = s.tables := rfl
@[simp] theorem setOk_dlen (s : State) : (setOk s).dlen = s.dlen := rfl
@[simp] theorem setOk_nsym (s : State) : (setOk s).nsym = s.nsym := rfl
@[simp] theorem setOk_res (s : State) : (setOk s).res = s.res := rfl
@[simp] theorem setOk_cw (s : State) : (setOk s).cw = s.cw := rfl
@[simp] theorem setOk_g (s : State) : (setOk s).g = s.g := rfl
@[simp] theorem setOk_synd (s : State) : (setOk s).synd = s.synd := rfl
@[simp] theorem setOk_sigma (s : State) : (setOk s).sigma = s.sigma := rfl
@[simp] theorem setOk_bpoly (s : State) : (setOk s).bpoly = s.bpoly := rfl
@[simp] theorem setOk_omega (s : State) : (setOk s).omega = s.omega := rfl
@[simp] theorem setOk_epos (s : State) : (setOk s).epos = s.epos := rfl
@[simp] theorem setOk_emag (s : State) : (setOk s).emag = s.emag := rfl
@[simp] theorem setOk_len (s : State) : (setOk s).len = s.len := rfl
@[simp] theorem setOk_deg (s : State) : (setOk s).deg = s.deg := rfl
@[simp] theorem setOk_nroot (s : State) : (setOk s).nroot = s.nroot := rfl
@[simp] theorem setOk_errcnt (s : State) : (setOk s).errcnt = s.errcnt := rfl
@[simp] theorem setOk_bdisc (s : State) : (setOk s).bdisc = s.bdisc := rfl
@[simp] theorem setOk_mshift (s : State) : (setOk s).mshift = s.mshift := rfl
@[simp] theorem setOk_status (s : State) : (setOk s).status = { s.status with result := .ok, cause := .none } := rfl
@[simp] theorem setOk_finfo (s : State) : (setOk s).finfo = s.finfo := rfl
@[simp] theorem setOk_phase (s : State) : (setOk s).phase = s.phase := rfl
@[simp] theorem setOk_chain (s : State) : (setOk s).chain = s.chain := rfl
@[simp] theorem setOk_script (s : State) : (setOk s).script = s.script := rfl
@[simp] theorem setOk_returned (s : State) : (setOk s).returned = s.returned := rfl

/-! ### failWith -/

@[simp] theorem failWith_tables (c : FailCause) (s : State) : (failWith c s).tables = s.tables := rfl
@[simp] theorem failWith_dlen (c : FailCause) (s : State) : (failWith c s).dlen = s.dlen := rfl
@[simp] theorem failWith_nsym (c : FailCause) (s : State) : (failWith c s).nsym = s.nsym := rfl
@[simp] theorem failWith_res (c : FailCause) (s : State) : (failWith c s).res = s.res := rfl
@[simp] theorem failWith_cw (c : FailCause) (s : State) : (failWith c s).cw = s.cw := rfl
@[simp] theorem failWith_g (c : FailCause) (s : State) : (failWith c s).g = s.g := rfl
@[simp] theorem failWith_synd (c : FailCause) (s : State) : (failWith c s).synd = s.synd := rfl
@[simp] theorem failWith_sigma (c : FailCause) (s : State) : (failWith c s).sigma = s.sigma := rfl
@[simp] theorem failWith_bpoly (c : FailCause) (s : State) : (failWith c s).bpoly = s.bpoly := rfl
@[simp] theorem failWith_omega (c : FailCause) (s : State) : (failWith c s).omega = s.omega := rfl
@[simp] theorem failWith_epos (c : FailCause) (s : State) : (failWith c s).epos = s.epos := rfl
@[simp] theorem failWith_emag (c : FailCause) (s : State) : (failWith c s).emag = s.emag := rfl
@[simp] theorem failWith_len (c : FailCause) (s : State) : (failWith c s).len = s.len := rfl
@[simp] theorem failWith_deg (c : FailCause) (s : State) : (failWith c s).deg = s.deg := rfl
@[simp] theorem failWith_nroot (c : FailCause) (s : State) : (failWith c s).nroot = s.nroot := rfl
@[simp] theorem failWith_errcnt (c : FailCause) (s : State) : (failWith c s).errcnt = s.errcnt := rfl
@[simp] theorem failWith_bdisc (c : FailCause) (s : State) : (failWith c s).bdisc = s.bdisc := rfl
@[simp] theorem failWith_mshift (c : FailCause) (s : State) : (failWith c s).mshift = s.mshift := rfl
@[simp] theorem failWith_status (c : FailCause) (s : State) : (failWith c s).status = { s.status with result := .fail, cause := c } := rfl
@[simp] theorem failWith_finfo (c : FailCause) (s : State) : (failWith c s).finfo = s.finfo := rfl
@[simp] theorem failWith_phase (c : FailCause) (s : State) : (failWith c s).phase = s.phase := rfl
@[simp] theorem failWith_chain (c : FailCause) (s : State) : (failWith c s).chain = s.chain := rfl
@[simp] theorem failWith_script (c : FailCause) (s : State) : (failWith c s).script = s.script := rfl
@[simp] theorem failWith_returned (c : FailCause) (s : State) : (failWith c s).returned = s.returned := rfl

/-! ### clearFault -/

@[simp] theorem clearFault_tables (s : State) : (clearFault s).tables = s.tables := rfl
@[simp] theorem clearFault_dlen (s : State) : (clearFault s).dlen = s.dlen := rfl
@[simp] theorem clearFault_nsym (s : State) : (clearFault s).nsym = s.nsym := rfl
@[simp] theorem clearFault_res (s : State) : (clearFault s).res = s.res := rfl
@[simp] theorem clearFault_cw (s : State) : (clearFault s).cw = s.cw := rfl
@[simp] theorem clearFault_g (s : State) : (clearFault s).g = s.g := rfl
@[simp] theorem clearFault_synd (s : State) : (clearFault s).synd = s.synd := rfl
@[simp] theorem clearFault_sigma (s : State) : (clearFault s).sigma = s.sigma := rfl
@[simp] theorem clearFault_bpoly (s : State) : (clearFault s).bpoly = s.bpoly := rfl
@[simp] theorem clearFault_omega (s : State) : (clearFault s).omega = s.omega := rfl
@[simp] theorem clearFault_epos (s : State) : (clearFault s).epos = s.epos := rfl
@[simp] theorem clearFault_emag (s : State) : (clearFault s).emag = s.emag := rfl
@[simp] theorem clearFault_len (s : State) : (clearFault s).len = s.len := rfl
@[simp] theorem clearFault_deg (s : State) : (clearFault s).deg = s.deg := rfl
@[simp] theorem clearFault_nroot (s : State) : (clearFault s).nroot = s.nroot := rfl
@[simp] theorem clearFault_errcnt (s : State) : (clearFault s).errcnt = s.errcnt := rfl
@[simp] theorem clearFault_bdisc (s : State) : (clearFault s).bdisc = s.bdisc := rfl
@[simp] theorem clearFault_mshift (s : State) : (clearFault s).mshift = s.mshift := rfl
@[simp] theorem clearFault_status (s : State) : (clearFault s).status = { s.status with fault := .none } := rfl
@[simp] theorem clearFault_finfo (s : State) : (clearFault s).finfo = 0 := rfl
@[simp] theorem clearFault_phase (s : State) : (clearFault s).phase = s.phase := rfl
@[simp] theorem clearFault_chain (s : State) : (clearFault s).chain = s.chain := rfl
@[simp] theorem clearFault_script (s : State) : (clearFault s).script = s.script := rfl
@[simp] theorem clearFault_returned (s : State) : (clearFault s).returned = s.returned := rfl

/-! ### memWrite -/

@[simp] theorem memWrite_tables (a : Nat) (v : Byte) (s : State) : (memWrite s a v).tables = s.tables := rfl
@[simp] theorem memWrite_dlen (a : Nat) (v : Byte) (s : State) : (memWrite s a v).dlen = s.dlen := rfl
@[simp] theorem memWrite_nsym (a : Nat) (v : Byte) (s : State) : (memWrite s a v).nsym = s.nsym := rfl
@[simp] theorem memWrite_res (a : Nat) (v : Byte) (s : State) : (memWrite s a v).res = s.res := rfl
@[simp] theorem memWrite_cw (a : Nat) (v : Byte) (s : State) : (memWrite s a v).cw = Mem.write s.cw a v := rfl
@[simp] theorem memWrite_g (a : Nat) (v : Byte) (s : State) : (memWrite s a v).g = s.g := rfl
@[simp] theorem memWrite_synd (a : Nat) (v : Byte) (s : State) : (memWrite s a v).synd = s.synd := rfl
@[simp] theorem memWrite_sigma (a : Nat) (v : Byte) (s : State) : (memWrite s a v).sigma = s.sigma := rfl
@[simp] theorem memWrite_bpoly (a : Nat) (v : Byte) (s : State) : (memWrite s a v).bpoly = s.bpoly := rfl
@[simp] theorem memWrite_omega (a : Nat) (v : Byte) (s : State) : (memWrite s a v).omega = s.omega := rfl
@[simp] theorem memWrite_epos (a : Nat) (v : Byte) (s : State) : (memWrite s a v).epos = s.epos := rfl
@[simp] theorem memWrite_emag (a : Nat) (v : Byte) (s : State) : (memWrite s a v).emag = s.emag := rfl
@[simp] theorem memWrite_len (a : Nat) (v : Byte) (s : State) : (memWrite s a v).len = s.len := rfl
@[simp] theorem memWrite_deg (a : Nat) (v : Byte) (s : State) : (memWrite s a v).deg = s.deg := rfl
@[simp] theorem memWrite_nroot (a : Nat) (v : Byte) (s : State) : (memWrite s a v).nroot = s.nroot := rfl
@[simp] theorem memWrite_errcnt (a : Nat) (v : Byte) (s : State) : (memWrite s a v).errcnt = s.errcnt := rfl
@[simp] theorem memWrite_bdisc (a : Nat) (v : Byte) (s : State) : (memWrite s a v).bdisc = s.bdisc := rfl
@[simp] theorem memWrite_mshift (a : Nat) (v : Byte) (s : State) : (memWrite s a v).mshift = s.mshift := rfl
@[simp] theorem memWrite_status (a : Nat) (v : Byte) (s : State) : (memWrite s a v).status = s.status := rfl
@[simp] theorem memWrite_finfo (a : Nat) (v : Byte) (s : State) : (memWrite s a v).finfo = s.finfo := rfl
@[simp] theorem memWrite_phase (a : Nat) (v : Byte) (s : State) : (memWrite s a v).phase = s.phase := rfl
@[simp] theorem memWrite_chain (a : Nat) (v : Byte) (s : State) : (memWrite s a v).chain = s.chain := rfl
@[simp] theorem memWrite_script (a : Nat) (v : Byte) (s : State) : (memWrite s a v).script = s.script := rfl
@[simp] theorem memWrite_returned (a : Nat) (v : Byte) (s : State) : (memWrite s a v).returned = s.returned := rfl

/-! ### raiseFault -/

@[simp] theorem raiseFault_tables (c : FaultCause) (info : Word) (s : State) : (raiseFault c info s).tables = s.tables := by
  unfold raiseFault; split <;> rfl
@[simp] theorem raiseFault_dlen (c : FaultCause) (info : Word) (s : State) : (raiseFault c info s).dlen = s.dlen := by
  unfold raiseFault; split <;> rfl
@[simp] theorem raiseFault_nsym (c : FaultCause) (info : Word) (s : State) : (raiseFault c info s).nsym = s.nsym := by
  unfold raiseFault; split <;> rfl
@[simp] theorem raiseFault_res (c : FaultCause) (info : Word) (s : State) : (raiseFault c info s).res = s.res := by
  unfold raiseFault; split <;> rfl
@[simp] theorem raiseFault_cw (c : FaultCause) (info : Word) (s : State) : (raiseFault c info s).cw = s.cw := by
  unfold raiseFault; split <;> rfl
@[simp] theorem raiseFault_g (c : FaultCause) (info : Word) (s : State) : (raiseFault c info s).g = s.g := by
  unfold raiseFault; split <;> rfl
@[simp] theorem raiseFault_synd (c : FaultCause) (info : Word) (s : State) : (raiseFault c info s).synd = s.synd := by
  unfold raiseFault; split <;> rfl
@[simp] theorem raiseFault_sigma (c : FaultCause) (info : Word) (s : State) : (raiseFault c info s).sigma = s.sigma := by
  unfold raiseFault; split <;> rfl
@[simp] theorem raiseFault_bpoly (c : FaultCause) (info : Word) (s : State) : (raiseFault c info s).bpoly = s.bpoly := by
  unfold raiseFault; split <;> rfl
@[simp] theorem raiseFault_omega (c : FaultCause) (info : Word) (s : State) : (raiseFault c info s).omega = s.omega := by
  unfold raiseFault; split <;> rfl
@[simp] theorem raiseFault_epos (c : FaultCause) (info : Word) (s : State) : (raiseFault c info s).epos = s.epos := by
  unfold raiseFault; split <;> rfl
@[simp] theorem raiseFault_emag (c : FaultCause) (info : Word) (s : State) : (raiseFault c info s).emag = s.emag := by
  unfold raiseFault; split <;> rfl
@[simp] theorem raiseFault_len (c : FaultCause) (info : Word) (s : State) : (raiseFault c info s).len = s.len := by
  unfold raiseFault; split <;> rfl
@[simp] theorem raiseFault_deg (c : FaultCause) (info : Word) (s : State) : (raiseFault c info s).deg = s.deg := by
  unfold raiseFault; split <;> rfl
@[simp] theorem raiseFault_nroot (c : FaultCause) (info : Word) (s : State) : (raiseFault c info s).nroot = s.nroot := by
  unfold raiseFault; split <;> rfl
@[simp] theorem raiseFault_errcnt (c : FaultCause) (info : Word) (s : State) : (raiseFault c info s).errcnt = s.errcnt := by
  unfold raiseFault; split <;> rfl
@[simp] theorem raiseFault_bdisc (c : FaultCause) (info : Word) (s : State) : (raiseFault c info s).bdisc = s.bdisc := by
  unfold raiseFault; split <;> rfl
@[simp] theorem raiseFault_mshift (c : FaultCause) (info : Word) (s : State) : (raiseFault c info s).mshift = s.mshift := by
  unfold raiseFault; split <;> rfl
@[simp] theorem raiseFault_phase (c : FaultCause) (info : Word) (s : State) : (raiseFault c info s).phase = .idle := by
  unfold raiseFault; split <;> rfl
@[simp] theorem raiseFault_chain (c : FaultCause) (info : Word) (s : State) : (raiseFault c info s).chain = false := by
  unfold raiseFault; split <;> rfl
@[simp] theorem raiseFault_script (c : FaultCause) (info : Word) (s : State) : (raiseFault c info s).script = s.script := by
  unfold raiseFault; split <;> rfl
@[simp] theorem raiseFault_returned (c : FaultCause) (info : Word) (s : State) : (raiseFault c info s).returned = s.returned := by
  unfold raiseFault; split <;> rfl

/-- Fault entry with no fault pending records the cause. -/
theorem raiseFault_status_of_none (c : FaultCause) (info : Word) (s : State) (h : s.status.fault = .none) :
    (raiseFault c info s).status = { s.status with fault := c } := by
  unfold raiseFault; rw [if_pos h]; rfl

/-- Fault entry with no fault pending records the information word. -/
theorem raiseFault_finfo_of_none (c : FaultCause) (info : Word) (s : State) (h : s.status.fault = .none) :
    (raiseFault c info s).finfo = info := by
  unfold raiseFault; rw [if_pos h]; rfl

/-- Fault entry with a fault pending keeps `STATUS`. -/
theorem raiseFault_status_of_pending (c : FaultCause) (info : Word) (s : State) (h : s.status.fault ≠ .none) :
    (raiseFault c info s).status = s.status := by
  unfold raiseFault; rw [if_neg h]; rfl

/-- Fault entry with a fault pending keeps `FINFO`. -/
theorem raiseFault_finfo_of_pending (c : FaultCause) (info : Word) (s : State) (h : s.status.fault ≠ .none) :
    (raiseFault c info s).finfo = s.finfo := by
  unfold raiseFault; rw [if_neg h]; rfl

/-- Everything fault entry can do: with no fault pending it records the cause and the information word, with one pending it
records nothing, and the block is idle either way (rule R216). -/
theorem raiseFault_cases (c : FaultCause) (info : Word) (s : State) :
    (s.status.fault = .none ∧ raiseFault c info s =
      { s with status := { s.status with fault := c }, finfo := info, phase := .idle, chain := false }) ∨
    (s.status.fault ≠ .none ∧ raiseFault c info s = { s with phase := .idle, chain := false }) := by
  by_cases h : s.status.fault = .none
  · exact .inl ⟨h, by unfold raiseFault; rw [if_pos h]; rfl⟩
  · exact .inr ⟨h, by unfold raiseFault; rw [if_neg h]; rfl⟩

/-- Fault entry never writes `RESULT`, `CAUSE`, `SZERO` or `PAYCHG` (rule R216). -/
theorem raiseFault_status_results (c : FaultCause) (info : Word) (s : State) :
    (raiseFault c info s).status.result = s.status.result ∧ (raiseFault c info s).status.cause = s.status.cause ∧
    (raiseFault c info s).status.szero = s.status.szero ∧ (raiseFault c info s).status.paychg = s.status.paychg := by
  obtain ⟨_, h⟩ | ⟨_, h⟩ := raiseFault_cases c info s <;> rw [h] <;> exact ⟨rfl, rfl, rfl, rfl⟩

end Sys2Proof.Machine
end

