-- ==== Sys2Proof/Laws/Phases.lean ====
section
/-! SUPPORT. What each phase and each command can do, said once: a phase as the record update it makes, its branches as
cases, and a command as the phases it runs. -/

namespace Sys2Proof.Machine

/-! ### The encoder's phases -/

theorem phaseGen_eq (s : State) :
    phaseGen s = { s with g := generatorPoly s.tables s.nsym.toNat, phase := .div } := rfl

theorem phaseDiv_eq (s : State) :
    phaseDiv s =
      { s with
        cw := Mem.fill s.cw s.dlen.toNat s.nsym.toNat
          (Mem.read (divSequence s.tables s.g s.cw s.dlen.toNat s.nsym.toNat))
        status := { s.status with result := .ok, cause := .none }
        phase := .idle
        chain := false } := rfl

/-! ### Phase SYN -/

theorem computeSyndromes_eq (s : State) :
    computeSyndromes s =
      { s with
        synd := syndromes s.tables s.cw (codewordLen s) s.nsym.toNat
        status := { s.status with
          szero := allZero (syndromes s.tables s.cw (codewordLen s) s.nsym.toNat) s.nsym.toNat } } := rfl

/-- Entry `i` of `S` after a syndrome phase (rule R151). -/
theorem read_syndromes (T : Tables) (cw : Mem) (n nsym i : Nat) (h : nsym ≤ Config.storeSize) :
    Mem.read (syndromes T cw n nsym) i = if i < nsym then evalWord T cw n (alpha T i) else 0 := by
  unfold syndromes
  rw [Mem.read_tabulate]
  split
  · rfl
  · rw [if_neg (by omega)]

/-- `SZERO` says that every syndrome is zero (rule R35). -/
theorem allZero_iff (m : Mem) (nsym : Nat) : allZero m nsym = true ↔ ∀ i, i < nsym → Mem.read m i = 0 := by
  simp [allZero]

/-- The two ways phase `SYN` can end (rule R151). -/
theorem phaseSyn_cases (s : State) :
    ((s.chain = false ∨ (computeSyndromes s).status.szero = true) ∧ phaseSyn s = toIdle (setOk (computeSyndromes s))) ∨
    (s.chain = true ∧ (computeSyndromes s).status.szero = false ∧
      phaseSyn s = { computeSyndromes s with phase := .bma }) := by
  have hc : (computeSyndromes s).chain = s.chain := rfl
  unfold phaseSyn
  cases hch : s.chain <;> cases hz : (computeSyndromes s).status.szero <;> simp [hc, hch, hz]

/-! ### Phases BMA and GATE -/

/-- The three things a step of the recurrence can do (rule R153). -/
theorem bmaStep_cases (n : Nat) (s : State) :
    (discrepancy s n = 0 ∧ bmaStep n s = { s with mshift := s.mshift + 1 }) ∨
    (discrepancy s n ≠ 0 ∧ 2 * s.len.toNat ≤ n ∧ bmaStep n s =
      { s with
        sigma := updateSigma s.tables s.sigma s.bpoly s.mshift.toNat
          ((gfDiv s.tables (discrepancy s n) s.bdisc).getD 0)
        len := BitVec.ofNat 8 (n + 1 - s.len.toNat)
        bpoly := s.sigma
        bdisc := discrepancy s n
        mshift := 1 }) ∨
    (discrepancy s n ≠ 0 ∧ n < 2 * s.len.toNat ∧ bmaStep n s =
      { s with
        sigma := updateSigma s.tables s.sigma s.bpoly s.mshift.toNat
          ((gfDiv s.tables (discrepancy s n) s.bdisc).getD 0)
        mshift := s.mshift + 1 }) := by
  by_cases hd : discrepancy s n = 0
  · exact .inl ⟨hd, by simp [bmaStep, hd]⟩
  · by_cases hl : 2 * s.len.toNat ≤ n
    · exact .inr (.inl ⟨hd, hl, by simp only [bmaStep, if_neg hd, if_pos hl]⟩)
    · exact .inr (.inr ⟨hd, by omega, by simp only [bmaStep, if_neg hd, if_neg hl]⟩)

/-- A step of the recurrence writes σ, B and the three scalars, nothing else (rule R153). -/
theorem bmaStep_frame (n : Nat) (s : State) : ∃ sg bp l b m,
    bmaStep n s = { s with sigma := sg, bpoly := bp, len := l, bdisc := b, mshift := m } := by
  obtain ⟨_, h⟩ | ⟨_, _, h⟩ | ⟨_, _, h⟩ := bmaStep_cases n s <;> exact ⟨_, _, _, _, _, h⟩

/-- The recurrence after `n` steps from the phase's start (rule R153). -/
abbrev bmaRun (n : Nat) (s : State) : State := loop n bmaStep (bmaInit s)

theorem bmaRun_succ (n : Nat) (s : State) : bmaRun (n + 1) s = bmaStep n (bmaRun n s) := rfl

/-- The recurrence writes σ, B and the three scalars, nothing else (rule R153). -/
theorem bmaRun_frame (n : Nat) (s : State) : ∃ sg bp l b m,
    bmaRun n s = { s with sigma := sg, bpoly := bp, len := l, bdisc := b, mshift := m } := by
  induction n with
  | zero => exact ⟨_, _, _, _, _, rfl⟩
  | succ n ih =>
    obtain ⟨_, _, _, _, _, hi⟩ := ih
    obtain ⟨_, _, _, _, _, hs⟩ := bmaStep_frame n (bmaRun n s)
    exact ⟨_, _, _, _, _, by rw [bmaRun_succ, hs, hi]⟩

theorem phaseBma_eq (s : State) :
    phaseBma s = { s with
      sigma := (bmaRun s.nsym.toNat s).sigma, bpoly := (bmaRun s.nsym.toNat s).bpoly,
      len := (bmaRun s.nsym.toNat s).len, bdisc := (bmaRun s.nsym.toNat s).bdisc,
      mshift := (bmaRun s.nsym.toNat s).mshift,
      deg := BitVec.ofNat 8 (topIndex (bmaRun s.nsym.toNat s).sigma Config.storeSize), phase := .gate } := by
  have h : phaseBma s = { bmaRun s.nsym.toNat s with
      deg := BitVec.ofNat 8 (topIndex (bmaRun s.nsym.toNat s).sigma Config.storeSize), phase := .gate } := rfl
  obtain ⟨_, _, _, _, _, hr⟩ := bmaRun_frame s.nsym.toNat s
  rw [h, hr]

/-- The ways phase `GATE` can end (rule R154). -/
theorem phaseGate_cases (s : State) :
    (2 * s.deg.toNat > s.nsym.toNat ∧ phaseGate s = toIdle (failWith .tooManyErrors s)) ∨
    (2 * s.deg.toNat ≤ s.nsym.toNat ∧ s.chain = true ∧ phaseGate s = { s with phase := .chien }) ∨
    (2 * s.deg.toNat ≤ s.nsym.toNat ∧ s.chain = false ∧ phaseGate s = toIdle (setOk s)) := by
  unfold phaseGate
  by_cases h : 2 * s.deg.toNat > s.nsym.toNat
  · exact .inl ⟨h, by simp [h]⟩
  · cases hc : s.chain
    · exact .inr (.inr ⟨by omega, rfl, by simp [h]⟩)
    · exact .inr (.inl ⟨by omega, rfl, by simp [h]⟩)

/-! ### Phase CHIEN -/

/-- What phase `CHIEN` writes before its successor test (rule R170). -/
abbrev chienSearch (s : State) : State :=
  { s with
    epos := rootPositions (chienRoots s.tables s.sigma s.deg.toNat (codewordLen s)) (codewordLen s)
    nroot := BitVec.ofNat 8 (chienRoots s.tables s.sigma s.deg.toNat (codewordLen s)).length }

/-- The ways phase `CHIEN` can end (rule R170). -/
theorem phaseChien_cases (s : State) :
    ((chienSearch s).nroot ≠ s.deg ∧ phaseChien s = toIdle (failWith .tooManyErrors (chienSearch s))) ∨
    ((chienSearch s).nroot = s.deg ∧ s.chain = true ∧ phaseChien s = { chienSearch s with phase := .forney }) ∨
    ((chienSearch s).nroot = s.deg ∧ s.chain = false ∧ phaseChien s = toIdle (setOk (chienSearch s))) := by
  have hd : (chienSearch s).deg = s.deg := rfl
  have hc : (chienSearch s).chain = s.chain := rfl
  have h : phaseChien s =
      if (chienSearch s).nroot ≠ (chienSearch s).deg then toIdle (failWith .tooManyErrors (chienSearch s))
      else if (chienSearch s).chain then { chienSearch s with phase := .forney }
      else toIdle (setOk (chienSearch s)) := rfl
  rw [h, hd, hc]
  by_cases hn : (chienSearch s).nroot = s.deg
  · rw [if_neg (not_not.mpr hn)]
    cases s.chain
    · exact .inr (.inr ⟨hn, rfl, by rw [if_neg (by simp)]⟩)
    · exact .inr (.inl ⟨hn, rfl, by rw [if_pos rfl]⟩)
  · exact .inl ⟨hn, by rw [if_pos hn]⟩

/-! ### Phase FORNEY -/

/-- `OMEGA` as phase `FORNEY` computes it from the state (rule R172). -/
abbrev forneyOmega (s : State) : Mem := errorEvaluator s.tables s.synd s.sigma s.deg.toNat s.nsym.toNat

/-- The two ways phase `FORNEY` can end (rule R172). -/
theorem phaseForney_cases (s : State) :
    ((magnitudes s (forneyOmega s)).any Option.isNone = true ∧ phaseForney s =
      toIdle (failWith .degenerateLocator { s with omega := forneyOmega s, emag := Mem.tabulate (fun _ => 0) })) ∨
    ((magnitudes s (forneyOmega s)).any Option.isNone = false ∧ phaseForney s =
      { s with
        omega := forneyOmega s
        emag := magnitudeStore (magnitudes s (forneyOmega s))
        phase := .corr }) := by
  unfold phaseForney
  cases h : (magnitudes s (forneyOmega s)).any Option.isNone
  · exact .inr ⟨rfl, by rw [if_neg (by simp only [h]; exact Bool.false_ne_true)]⟩
  · exact .inl ⟨rfl, by rw [if_pos h]⟩

/-! ### Phases CORR and VERIFY -/

theorem applyMagnitudes_eq (s : State) :
    applyMagnitudes s = { s with cw := correctBytes s.cw s.epos s.emag s.nroot.toNat } := rfl

/-- Each byte after the magnitudes are applied: itself, exclusive-or every magnitude listed for it. -/
theorem read_correctBytes (cw epos emag : Mem) (n a : Nat) :
    Mem.read (correctBytes cw epos emag n) a =
      Mem.read cw a ^^^ xorSum n (fun k => if (Mem.read epos k).toNat = a then Mem.read emag k else 0) := by
  unfold correctBytes
  induction n with
  | zero => simp
  | succ n ih =>
    rw [loop_succ, xorSum_succ, Mem.read_write, ← BitVec.xor_assoc, ← ih]
    by_cases h : a = (Mem.read epos n).toNat
    · subst h; simp
    · simp [h, Ne.symm h]

/-- Applying the magnitudes keeps the buffer's canonical form. -/
theorem wf_correctBytes (cw epos emag : Mem) (n : Nat) (h : Mem.wf cw = true) :
    Mem.wf (correctBytes cw epos emag n) = true := by
  unfold correctBytes
  exact loop_induction (fun _ m => Mem.wf m = true) _ _ _ h
    (fun k m _ hm => Mem.wf_write _ _ _ hm (Mem.read epos k).isLt)

/-- The two ways phase `CORR` can end (rule R173). -/
theorem phaseCorr_cases (s : State) :
    (s.chain = true ∧ phaseCorr s =
      { applyMagnitudes s with
        errcnt := s.nroot
        status := { s.status with paychg := payloadChanged s.epos s.emag s.nroot.toNat s.dlen }
        phase := .verify }) ∨
    (s.chain = false ∧ phaseCorr s =
      toIdle (setOk { applyMagnitudes s with
        errcnt := s.nroot
        status := { s.status with paychg := payloadChanged s.epos s.emag s.nroot.toNat s.dlen } })) := by
  have hch : (applyMagnitudes s).chain = s.chain := rfl
  unfold phaseCorr
  simp only [hch]
  cases s.chain
  · exact .inr ⟨rfl, by rw [if_neg (by simp)]; rfl⟩
  · exact .inl ⟨rfl, by rw [if_pos rfl]; rfl⟩

/-- The two ways phase `VERIFY` can end (rule R175). -/
theorem phaseVerify_cases (s : State) :
    ((computeSyndromes s).status.szero = true ∧ phaseVerify s = toIdle (setOk (computeSyndromes s))) ∨
    ((computeSyndromes s).status.szero = false ∧ phaseVerify s =
      toIdle (failWith .verificationFailed { applyMagnitudes (computeSyndromes s) with
        errcnt := 0
        status := { (computeSyndromes s).status with paychg := false } })) := by
  unfold phaseVerify
  cases hz : (computeSyndromes s).status.szero
  · exact .inr ⟨rfl, by simp only [hz, Bool.false_eq_true, if_false, applyMagnitudes_eq]⟩
  · exact .inl ⟨rfl, by simp only [hz, if_true]⟩

/-! ### The sequencer -/

/-- What no phase writes: the tables, the configuration, `RES`, the pending fault, and the host's side. -/
theorem runPhase_frame (s : State) :
    (runPhase s).tables = s.tables ∧ (runPhase s).dlen = s.dlen ∧ (runPhase s).nsym = s.nsym ∧
    (runPhase s).res = s.res ∧ (runPhase s).status.fault = s.status.fault ∧ (runPhase s).finfo = s.finfo ∧
    (runPhase s).script = s.script ∧ (runPhase s).returned = s.returned := by
  unfold runPhase
  cases s.phase with
  | idle => simp
  | gen => rw [phaseGen_eq]; simp
  | div => rw [phaseDiv_eq]; simp
  | syn => obtain ⟨_, h⟩ | ⟨_, _, h⟩ := phaseSyn_cases s <;> simp only [h] <;> simp [computeSyndromes_eq]
  | bma => simp only [phaseBma_eq]; simp
  | gate => obtain ⟨_, h⟩ | ⟨_, _, h⟩ | ⟨_, _, h⟩ := phaseGate_cases s <;> simp only [h] <;> simp
  | chien => obtain ⟨_, h⟩ | ⟨_, _, h⟩ | ⟨_, _, h⟩ := phaseChien_cases s <;> simp only [h] <;> simp
  | forney => obtain ⟨_, h⟩ | ⟨_, h⟩ := phaseForney_cases s <;> simp only [h] <;> simp
  | corr => obtain ⟨_, h⟩ | ⟨_, h⟩ := phaseCorr_cases s <;> simp only [h] <;> simp [applyMagnitudes_eq]
  | verify =>
    obtain ⟨_, h⟩ | ⟨_, h⟩ := phaseVerify_cases s <;> simp only [h]
    · simp [computeSyndromes_eq]
    · simp [computeSyndromes_eq, applyMagnitudes_eq]

/-- A property that every phase keeps holds when the phases have run. -/
theorem runPhases_induction (P : State → Prop) (hP : ∀ s, P s → P (runPhase s)) (n : Nat) (s : State) (h : P s) :
    P (runPhases n s) := by
  induction n generalizing s with
  | zero => exact h
  | succ n ih =>
    unfold runPhases
    split
    · exact h
    · exact ih _ (hP s h)

theorem runPhases_idle (n : Nat) (s : State) (h : s.phase = .idle) : runPhases n s = s := by
  cases n <;> simp [runPhases, h]

theorem runPhases_running (n : Nat) (s : State) (h : s.phase ≠ .idle) :
    runPhases (n + 1) s = runPhases n (runPhase s) := by
  simp [runPhases, h]

/-! ### The commands -/

/-- A Reed-Solomon command on an illegal configuration raises `ConfigError` (rule R213). -/
theorem rsCommand_illegal (i : Instr) (s start : State) (h : configIllegal s) :
    rsCommand i s start = raiseFault .configError (encode i) s := by
  unfold rsCommand; rw [if_pos h]

/-- On a legal configuration it runs its phases. -/
theorem rsCommand_legal (i : Instr) (s start : State) (h : ¬ configIllegal s) :
    rsCommand i s start = runPhases longestPath start := by
  unfold rsCommand; rw [if_neg h]

/-- `RSENC` runs `GEN`, then `DIV` (rule R135). -/
theorem exec_rsenc_legal (s : State) (h : ¬ configIllegal s) :
    exec .rsenc s = .next (phaseDiv (phaseGen { s with chain := true, phase := .gen })) := by
  simp only [exec, execRsenc]
  rw [rsCommand_legal _ _ _ h, longestPath, runPhases_running _ _ (by simp), runPhases_running _ _ (by
    simp [runPhase, phaseGen_eq]), runPhases_idle]
  · simp [runPhase, phaseGen_eq]
  · simp [runPhase, phaseGen_eq, phaseDiv_eq]

/-- `SYND` runs `SYN` (rule R152). -/
theorem exec_synd_legal (s : State) (h : ¬ configIllegal s) :
    exec .synd s = .next (toIdle (setOk (computeSyndromes { s with chain := false, phase := .syn }))) := by
  obtain ⟨_, hs⟩ | ⟨hc, _⟩ := phaseSyn_cases { s with chain := false, phase := .syn }
  · simp only [exec, execSynd]
    rw [rsCommand_legal _ _ _ h, longestPath, runPhases_running _ _ (by simp)]
    simp only [runPhase, hs]
    rw [runPhases_idle _ _ (by simp)]
  · exact absurd hc (by simp)

/-- `BMA` runs `BMA`, then `GATE` (rule R155). -/
theorem exec_bma_legal (s : State) (h : ¬ configIllegal s) :
    exec .bma s = .next (phaseGate (phaseBma { s with chain := false, phase := .bma })) := by
  simp only [exec, execBma]
  have hch : (phaseBma { s with chain := false, phase := .bma }).chain = false := by rw [phaseBma_eq]
  rw [rsCommand_legal _ _ _ h, longestPath, runPhases_running _ _ (by simp)]
  simp only [runPhase]
  rw [runPhases_running _ _ (by rw [phaseBma_eq]; simp)]
  have hg : runPhase (phaseBma { s with chain := false, phase := .bma }) =
      phaseGate (phaseBma { s with chain := false, phase := .bma }) := by
    have hp : (phaseBma { s with chain := false, phase := .bma }).phase = .gate := by rw [phaseBma_eq]
    unfold runPhase; rw [hp]
  rw [hg, runPhases_idle]
  obtain ⟨_, hs⟩ | ⟨_, hc, _⟩ | ⟨_, _, hs⟩ := phaseGate_cases (phaseBma { s with chain := false, phase := .bma })
  · rw [hs]; simp
  · rw [hch] at hc; exact absurd hc (by simp)
  · rw [hs]; simp

/-- `CHIEN` runs `CHIEN` (rule R171). -/
theorem exec_chien_legal (s : State) (h : ¬ configIllegal s) :
    exec .chien s = .next (phaseChien { s with chain := false, phase := .chien }) := by
  simp only [exec, execChien]
  rw [rsCommand_legal _ _ _ h, longestPath, runPhases_running _ _ (by simp)]
  simp only [runPhase]
  rw [runPhases_idle]
  obtain ⟨_, hs⟩ | ⟨_, hc, _⟩ | ⟨_, _, hs⟩ := phaseChien_cases { s with chain := false, phase := .chien }
  · rw [hs]; simp
  · exact absurd hc (by simp)
  · rw [hs]; simp

/-- `FORNEY` runs `FORNEY` and, if it did not fail, `CORR` (rule R174). -/
theorem exec_forney_legal (s : State) (h : ¬ configIllegal s) :
    exec .forney s = .next
      (if (magnitudes s (forneyOmega s)).any Option.isNone = true
        then phaseForney { s with chain := false, phase := .forney }
        else phaseCorr (phaseForney { s with chain := false, phase := .forney })) := by
  simp only [exec, execForney]
  rw [rsCommand_legal _ _ _ h, longestPath, runPhases_running _ _ (by simp)]
  simp only [runPhase]
  have hm : magnitudes { s with chain := false, phase := .forney } (forneyOmega { s with chain := false, phase := .forney })
      = magnitudes s (forneyOmega s) := rfl
  obtain ⟨hb, hs⟩ | ⟨hb, hs⟩ := phaseForney_cases { s with chain := false, phase := .forney }
  · rw [hm] at hb
    rw [if_pos hb, runPhases_idle]
    rw [hs]; simp
  · rw [hm] at hb
    rw [if_neg (by simp [hb])]
    have hp : (phaseForney { s with chain := false, phase := .forney }).phase = .corr := by rw [hs]
    have hc : (phaseForney { s with chain := false, phase := .forney }).chain = false := by rw [hs]
    rw [runPhases_running _ _ (by rw [hp]; simp)]
    have hr : runPhase (phaseForney { s with chain := false, phase := .forney }) =
        phaseCorr (phaseForney { s with chain := false, phase := .forney }) := by
      unfold runPhase; rw [hp]
    rw [hr, runPhases_idle]
    obtain ⟨ht, _⟩ | ⟨_, ht⟩ := phaseCorr_cases (phaseForney { s with chain := false, phase := .forney })
    · rw [hc] at ht; exact absurd ht (by simp)
    · rw [ht]; simp

/-- The state in which an accepted `RSDEC` enters phase `SYN` (rule R176). -/
abbrev rsdecStart (s : State) : State :=
  { s with chain := true, phase := .syn, errcnt := 0, status := { s.status with paychg := false } }

/-- The state in which `RSDEC` leaves phase `SYN` for phase `BMA`. -/
abbrev rsdecAfterSyn (s : State) : State := { computeSyndromes (rsdecStart s) with phase := .bma }

/-- The state in which `RSDEC` leaves phase `BMA` for the gate. -/
abbrev rsdecAfterBma (s : State) : State := phaseBma (rsdecAfterSyn s)

/-- The state in which `RSDEC` leaves the gate with its search done, before the root count is tested. -/
abbrev rsdecAfterSearch (s : State) : State := chienSearch { rsdecAfterBma s with phase := .chien }

/-- The state in which `RSDEC` enters phase `FORNEY`. -/
abbrev rsdecBeforeForney (s : State) : State := { rsdecAfterSearch s with phase := .forney }

/-- Everything an accepted `RSDEC` can do, by the phase at which it ends (rule R176): clean after `SYN`, too many errors at
the gate or at the root count, a degenerate locator, or the verification's verdict. -/
theorem exec_rsdec_cases (s : State) (h : ¬ configIllegal s) :
    ((computeSyndromes (rsdecStart s)).status.szero = true ∧
      exec .rsdec s = .next (toIdle (setOk (computeSyndromes (rsdecStart s))))) ∨
    ((computeSyndromes (rsdecStart s)).status.szero = false ∧
      2 * (rsdecAfterBma s).deg.toNat > (rsdecAfterBma s).nsym.toNat ∧
      exec .rsdec s = .next (toIdle (failWith .tooManyErrors (rsdecAfterBma s)))) ∨
    ((computeSyndromes (rsdecStart s)).status.szero = false ∧
      2 * (rsdecAfterBma s).deg.toNat ≤ (rsdecAfterBma s).nsym.toNat ∧
      (rsdecAfterSearch s).nroot ≠ (rsdecAfterBma s).deg ∧
      exec .rsdec s = .next (toIdle (failWith .tooManyErrors (rsdecAfterSearch s)))) ∨
    ((computeSyndromes (rsdecStart s)).status.szero = false ∧
      2 * (rsdecAfterBma s).deg.toNat ≤ (rsdecAfterBma s).nsym.toNat ∧
      (rsdecAfterSearch s).nroot = (rsdecAfterBma s).deg ∧
      (magnitudes (rsdecBeforeForney s) (forneyOmega (rsdecBeforeForney s))).any Option.isNone = true ∧
      exec .rsdec s = .next (phaseForney (rsdecBeforeForney s))) ∨
    ((computeSyndromes (rsdecStart s)).status.szero = false ∧
      2 * (rsdecAfterBma s).deg.toNat ≤ (rsdecAfterBma s).nsym.toNat ∧
      (rsdecAfterSearch s).nroot = (rsdecAfterBma s).deg ∧
      (magnitudes (rsdecBeforeForney s) (forneyOmega (rsdecBeforeForney s))).any Option.isNone = false ∧
      exec .rsdec s = .next (phaseVerify (phaseCorr (phaseForney (rsdecBeforeForney s))))) := by
  have hrun : ∀ (n : Nat) (t u : State), t.phase ≠ .idle → runPhase t = u → runPhases (n + 1) t = runPhases n u :=
    fun n t u ht hu => by rw [runPhases_running n t ht, hu]
  have hexec : exec .rsdec s = .next (runPhases 7 (rsdecStart s)) := by
    simp only [exec, execRsdec]; rw [rsCommand_legal _ _ _ h, longestPath]
  obtain ⟨hor, hsyn⟩ | ⟨_, hz, hsyn⟩ := phaseSyn_cases (rsdecStart s)
  · have hz : (computeSyndromes (rsdecStart s)).status.szero = true := by
      rcases hor with hc | hz
      · exact absurd hc (by simp)
      · exact hz
    exact .inl ⟨hz, by rw [hexec, hrun 6 (rsdecStart s) _ (by simp) hsyn, runPhases_idle _ _ (by simp)]⟩
  have e1 : exec .rsdec s = .next (runPhases 6 (rsdecAfterSyn s)) := by rw [hexec, hrun 6 (rsdecStart s) _ (by simp) hsyn]
  have e2 : exec .rsdec s = .next (runPhases 5 (rsdecAfterBma s)) := by rw [e1, hrun 5 (rsdecAfterSyn s) (rsdecAfterBma s) (by simp) rfl]
  have hp2 : (rsdecAfterBma s).phase = .gate := by rw [rsdecAfterBma, phaseBma_eq]
  have hc2 : (rsdecAfterBma s).chain = true := by rw [rsdecAfterBma, phaseBma_eq]; rfl
  have r2 : runPhase (rsdecAfterBma s) = phaseGate (rsdecAfterBma s) := by
    generalize rsdecAfterBma s = t at hp2
    unfold runPhase; rw [hp2]
  obtain ⟨hd, hg⟩ | ⟨hd, _, hg⟩ | ⟨_, hc, _⟩ := phaseGate_cases (rsdecAfterBma s)
  · exact .inr (.inl ⟨hz, hd, by rw [e2, hrun 4 _ _ (by rw [hp2]; simp) (r2.trans hg), runPhases_idle _ _ (by simp)]⟩)
  · have e3 : exec .rsdec s = .next (runPhases 4 { rsdecAfterBma s with phase := .chien }) := by
      rw [e2, hrun 4 _ _ (by rw [hp2]; simp) (r2.trans hg)]
    obtain ⟨hn, hs⟩ | ⟨hn, _, hs⟩ | ⟨_, hc, _⟩ := phaseChien_cases { rsdecAfterBma s with phase := .chien }
    · exact .inr (.inr (.inl ⟨hz, hd, hn, by rw [e3, hrun 3 { rsdecAfterBma s with phase := .chien } _ (by simp) hs, runPhases_idle _ _ (by simp)]⟩))
    · have e4 : exec .rsdec s = .next (runPhases 3 (rsdecBeforeForney s)) := by
        rw [e3, hrun 3 { rsdecAfterBma s with phase := .chien } _ (by simp) hs]
      obtain ⟨hb, hf⟩ | ⟨hb, hf⟩ := phaseForney_cases (rsdecBeforeForney s)
      · refine .inr (.inr (.inr (.inl ⟨hz, hd, hn, hb, ?_⟩)))
        rw [e4, hrun 2 (rsdecBeforeForney s) (phaseForney (rsdecBeforeForney s)) (by simp) rfl, runPhases_idle]
        · show (phaseForney (rsdecBeforeForney s)).phase = .idle
          rw [hf]; simp
      · refine .inr (.inr (.inr (.inr ⟨hz, hd, hn, hb, ?_⟩)))
        have e5 : exec .rsdec s = .next (runPhases 2 (phaseForney (rsdecBeforeForney s))) := by
          rw [e4, hrun 2 (rsdecBeforeForney s) (phaseForney (rsdecBeforeForney s)) (by simp) rfl]
        have hp5 : (phaseForney (rsdecBeforeForney s)).phase = .corr := by rw [hf]
        have hc5 : (phaseForney (rsdecBeforeForney s)).chain = true := by rw [hf]; exact hc2
        rw [e5]
        generalize phaseForney (rsdecBeforeForney s) = t at hp5 hc5
        have r5 : runPhase t = phaseCorr t := by unfold runPhase; rw [hp5]
        obtain ⟨_, hk⟩ | ⟨hk, _⟩ := phaseCorr_cases t
        · have hp6 : (phaseCorr t).phase = .verify := by rw [hk]
          have r6 : runPhase (phaseCorr t) = phaseVerify (phaseCorr t) := by
            generalize phaseCorr t = u at hp6
            unfold runPhase; rw [hp6]
          rw [hrun 1 _ _ (by rw [hp5]; simp) r5, hrun 0 _ _ (by rw [hp6]; simp) r6]
          rfl
        · rw [hc5] at hk; exact absurd hk (by simp)
    · exact absurd (hc.symm.trans hc2) (by simp)
  · exact absurd (hc.symm.trans hc2) (by simp)

end Sys2Proof.Machine
end

