-- ==== Sys2Proof/Laws/Port.lean ====
section
/-! SUPPORT. What one step and each host operation can do, said once. -/

namespace Sys2Proof.Machine

/-- Everything a step can do: wait, run a phase of a command under way, stop there on an illegal configuration, or issue
the host's next operation (rules R61, R177, R241). -/
theorem step_cases (s : State) :
    (s.script = [] ∧ s.phase = .idle ∧ step s = .next s) ∨
    (s.phase ≠ .idle ∧ configIllegal s ∧ step s = .fault .phaseBeyondCodeword) ∨
    (s.phase ≠ .idle ∧ ¬ configIllegal s ∧ step s = .next (runPhase s)) ∨
    (∃ op rest, s.script = op :: rest ∧ (s.phase = .idle ∨ op = .reset) ∧
      step s = hostOp op { s with script := rest }) := by
  have hheld : s.phase ≠ .idle → step s = runHeld s →
      (s.phase ≠ .idle ∧ configIllegal s ∧ step s = .fault .phaseBeyondCodeword) ∨
      (s.phase ≠ .idle ∧ ¬ configIllegal s ∧ step s = .next (runPhase s)) := by
    intro hp hs
    by_cases hc : configIllegal s
    · exact .inl ⟨hp, hc, by rw [hs, runHeld, if_pos hc]⟩
    · exact .inr ⟨hp, hc, by rw [hs, runHeld, if_neg hc]⟩
  cases hscr : s.script with
  | nil =>
    by_cases hp : s.phase = .idle
    · exact .inl ⟨rfl, hp, by unfold step portStep; rw [hscr]; exact if_pos hp⟩
    · obtain h | h := hheld hp (by unfold step portStep; rw [hscr]; exact if_neg hp)
      · exact .inr (.inl h)
      · exact .inr (.inr (.inl h))
  | cons op rest =>
    by_cases hp : s.phase = .idle ∨ op = .reset
    · exact .inr (.inr (.inr ⟨op, rest, rfl, hp, by unfold step portStep; rw [hscr]; exact if_pos hp⟩))
    · obtain h | h := hheld (fun h => hp (.inl h)) (by unfold step portStep; rw [hscr]; exact if_neg hp)
      · exact .inr (.inl h)
      · exact .inr (.inr (.inl h))

/-- Issuing an enabled operation. -/
theorem step_op (s : State) (op : HostOp) (rest : List HostOp) (hs : s.script = op :: rest)
    (h : s.phase = .idle ∨ op = .reset) : step s = hostOp op { s with script := rest } := by
  unfold step portStep; rw [hs]; exact if_pos h

/-- Everything a command word can do (rule R217). -/
theorem hostCmd_cases (w : Word) (s : State) :
    (s.status.fault ≠ .none ∧ w = 0x0000001F ∧ hostCmd w s = .next (clearFault s)) ∨
    (s.status.fault ≠ .none ∧ w ≠ 0x0000001F ∧ hostCmd w s = .next s) ∨
    (s.status.fault = .none ∧ ∃ r, decode w = .error r ∧ hostCmd w s = .next (raiseFault .illegalCommand w s)) ∨
    (s.status.fault = .none ∧ ∃ i, decode w = .ok i ∧ hostCmd w s = exec i s) := by
  by_cases hf : s.status.fault = .none
  · cases hd : decode w with
    | error r =>
      exact .inr (.inr (.inl ⟨hf, r, rfl, by unfold hostCmd; rw [if_neg (not_not.mpr hf), hd]⟩))
    | ok i => exact .inr (.inr (.inr ⟨hf, i, rfl, by unfold hostCmd; rw [if_neg (not_not.mpr hf), hd]⟩))
  · by_cases hw : w = 0x0000001F
    · exact .inl ⟨hf, hw, by unfold hostCmd; rw [if_pos hf, if_pos hw]; rfl⟩
    · exact .inr (.inl ⟨hf, hw, by unfold hostCmd; rw [if_pos hf, if_neg hw]⟩)

/-- Everything a read can do (rule R63). -/
theorem hostRead_cases (space : BitVec 4) (index : BitVec 16) (s : State) :
    (∃ v, entryRead s space index = some v ∧ hostRead space index s = { s with returned := s.returned ++ [v] }) ∨
    (entryRead s space index = none ∧ hostRead space index s =
      raiseFault .badAccess (accessWord false space index) { s with returned := s.returned ++ [0] }) := by
  unfold hostRead
  cases h : entryRead s space index with
  | some v => exact .inl ⟨v, rfl, rfl⟩
  | none => exact .inr ⟨rfl, rfl⟩

/-- Everything an accepted write can do (rule R64). -/
theorem entryWrite_cases (s t : State) (space : BitVec 4) (index : BitVec 16) (data : Word)
    (h : entryWrite s space index data = some t) :
    (space.toNat = 0 ∧ index.toNat = 0 ∧ t = { s with dlen := data.setWidth 8 }) ∨
    (space.toNat = 0 ∧ index.toNat = 1 ∧ t = { s with nsym := data.setWidth 8 }) ∨
    (space.toNat = 1 ∧ index.toNat < Config.storeSize ∧ t = memWrite s index.toNat (data.setWidth 8)) := by
  unfold entryWrite at h
  split at h
  · cases h
  · split at h
    · next hsp =>
      split at h
      · next hi => cases h; exact .inl ⟨hsp, hi, rfl⟩
      · next hi => cases h; exact .inr (.inl ⟨hsp, hi, rfl⟩)
      · cases h
    · next hsp =>
      split at h
      · next hi => cases h; exact .inr (.inr ⟨hsp, hi, rfl⟩)
      · cases h
    · cases h

/-- Everything a write can do (rule R64). -/
theorem hostWrite_cases (space : BitVec 4) (index : BitVec 16) (data : Word) (s : State) :
    (∃ t, entryWrite s space index data = some t ∧ hostWrite space index data s = t) ∨
    (entryWrite s space index data = none ∧ hostWrite space index data s =
      raiseFault .badAccess (accessWord true space index) s) := by
  unfold hostWrite
  cases h : entryWrite s space index data with
  | some t => exact .inl ⟨t, rfl, rfl⟩
  | none => exact .inr ⟨rfl, rfl⟩

/-- A placed command word is what the next step issues, with no fault pending (rule R217). -/
theorem step_withFetchWord (s : State) (nbits w : Nat) :
    step (s.withFetchWord nbits w) = hostCmd (BitVec.ofNat 32 (w % 2 ^ nbits))
      { s with phase := .idle, chain := false, status := { s.status with fault := .none }, finfo := 0 } :=
  step_op (s.withFetchWord nbits w) (.cmd (BitVec.ofNat 32 (w % 2 ^ nbits))) s.script rfl (.inl rfl)

end Sys2Proof.Machine
end

