-- ==== Sys2Proof/Tests/Slice0.lean ====
section
/-! SUPPORT. The model's own tests. Expected values come from the spec: the encodings of rules R81 and R86, the worked examples
of the command rules, and the vectors V-... of 95_test_vectors.md. The `witness_...` theorems show states and operands that
meet the hypotheses of the statement they are named after. -/

namespace Sys2Proof.Tests

open Sys2Proof Sys2Proof.Machine

/-! ### Helpers -/

/-- A store holding the listed bytes from index 0 on. -/
def bytes (l : List Nat) : Mem := Mem.tabulateFrom 0 l.length (fun i => BitVec.ofNat 8 (l.getD i 0))

/-- The reset state with a configuration and the first bytes of the buffer. -/
def block (dlen nsym : Nat) (l : List Nat) : State :=
  { State.reset with dlen := BitVec.ofNat 8 dlen, nsym := BitVec.ofNat 8 nsym, cw := bytes l }

/-- The state a command leaves. -/
def after (i : Instr) (s : State) : State :=
  match exec i s with
  | .next t => t
  | .fault _ => s
  | .refused _ => s

/-- The state a step leaves. -/
def stepped (s : State) : State :=
  match step s with
  | .next t => t
  | .fault _ => s
  | .refused _ => s

/-- `after` is the next state: every command has one. -/
theorem exec_eq_after (i : Instr) (s : State) : exec i s = .next (after i s) := by
  cases i <;> simp only [after, exec] <;> try rfl
  · simp only [execGfdiv]; split <;> rfl
  · simp only [execGfinv]; split <;> rfl

/-- A host operation about to be carried out on an idle block, with a fault pending or none. -/
def asked (op : HostOp) (fault : FaultCause) : State :=
  { State.reset with script := [op], status := { State.reset.status with fault := fault } }

/-- The source's scenario, encoded (V-ENC-1). -/
def cleanWord : State := block 8 4 [1, 2, 3, 4, 5, 6, 7, 8, 0x45, 0x53, 0xEB, 0xF5]

/-- The same with bytes 2 and 7 changed (V-DEC-2). -/
def twoErrors : State := block 8 4 [1, 2, 0xFF, 4, 5, 6, 7, 0, 0x45, 0x53, 0xEB, 0xF5]

/-- The registers of the example of rule R174. -/
def located : State :=
  { twoErrors with
    synd := bytes [0xF4, 0x5B, 0x86, 0x42], sigma := bytes [1, 0x2A, 0x87], deg := 2, epos := bytes [7, 2], nroot := 2 }

/-- Three bytes of parity-one data, clean (V-DEC-12), and changed (V-DEC-7). -/
def parityOne (b : Nat) : State := block 3 1 [9, b, 7, 6]

/-! ### WellFormed: every reserved bit of every format, and opcodes outside the map, are refused -/

theorem test_wf_Z_lowest : legalWord 0x00000100 = false := by decide
theorem test_wf_Z_highest : legalWord 0x80000011 = false := by decide
theorem test_wf_A_lowest : legalWord 0x00010204 = false := by decide
theorem test_wf_A_highest : legalWord 0x80000204 = false := by decide
theorem test_wf_AB_lowest : legalWord 0x01000001 = false := by decide
theorem test_wf_AB_highest : legalWord 0x80030202 = false := by decide
theorem test_wf_opcode : [0x05, 0x0F, 0x16, 0x1E, 0x20, 0xFF].all (fun w => !legalWord (BitVec.ofNat 32 w)) = true := by decide
theorem test_wf_AE_full : legalWord 0xFFFFFF03 = true := by decide

/-! ### Decode: each command's word written out field by field from rules R81 and R86 (fields from bit 31 down) -/

theorem test_decode_nop : decode (0b000000000000000000000000#24 ++ 0b00000000#8) = .ok .nop := by decide
theorem test_decode_gfmul :
    decode (0b00000000#8 ++ 0b10000000#8 ++ 0b00000010#8 ++ 0b00000001#8) = .ok (.gfmul 0x02 0x80) := by decide
theorem test_decode_gfdiv :
    decode (0b00000000#8 ++ 0b00000010#8 ++ 0b00011101#8 ++ 0b00000010#8) = .ok (.gfdiv 0x1D 0x02) := by decide
theorem test_decode_gfpow :
    decode (0b0000000000001000#16 ++ 0b00000010#8 ++ 0b00000011#8) = .ok (.gfpow 0x02 8) := by decide
theorem test_decode_gfinv :
    decode (0b0000000000000000#16 ++ 0b00000010#8 ++ 0b00000100#8) = .ok (.gfinv 0x02) := by decide
theorem test_decode_rsenc : decode (0b000000000000000000000000#24 ++ 0b00010000#8) = .ok .rsenc := by decide
theorem test_decode_rsdec : decode (0b000000000000000000000000#24 ++ 0b00010001#8) = .ok .rsdec := by decide
theorem test_decode_synd : decode (0b000000000000000000000000#24 ++ 0b00010010#8) = .ok .synd := by decide
theorem test_decode_bma : decode (0b000000000000000000000000#24 ++ 0b00010011#8) = .ok .bma := by decide
theorem test_decode_chien : decode (0b000000000000000000000000#24 ++ 0b00010100#8) = .ok .chien := by decide
theorem test_decode_forney : decode (0b000000000000000000000000#24 ++ 0b00010101#8) = .ok .forney := by decide
theorem test_decode_clrf : decode (0b000000000000000000000000#24 ++ 0b00011111#8) = .ok .clrf := by decide
theorem test_decode_table_word : decodeTableWord 32 0x00CA5301 = some (.gfmul 0x53 0xCA) := by decide
theorem test_encode_gfpow : encode (.gfpow 0x53 300) = 0x012C5303 := by decide

/-! ### One step each -/

/-- V-GF-1: the first reduction, through the port. -/
theorem test_gfmul_reduces : (stepped (State.reset.withFetchWord 32 0x00800201)).res = 0x1D := by decide
/-- V-GF-1: the largest index of `EXP`, 508. -/
theorem test_gfmul_largest_index : (after (.gfmul 0x8E 0x8E) State.reset).res = 0x47 := by decide
/-- V-GF-2: the largest index of a quotient, 509. -/
theorem test_gfdiv_largest_index : (after (.gfdiv 0x8E 0x01) State.reset).res = 0x8E := by decide
/-- V-GF-2: the divisor is tested first. -/
theorem test_gfdiv_zero_by_zero :
    after (.gfdiv 0 0) State.reset =
      { State.reset with status := { State.reset.status with fault := .divisionByZero }, finfo := 2 } := by decide
/-- V-GF-4: the empty product. -/
theorem test_gfpow_zero_to_zero : (after (.gfpow 0 0) State.reset).res = 1 := by decide
/-- V-GF-4: the largest product `LOG a * e`. -/
theorem test_gfpow_largest : (after (.gfpow 0x8E 65535) State.reset).res = 1 := by decide
/-- V-GF-3. -/
theorem test_gfinv : (after (.gfinv 0x53) State.reset).res = 0x8C := by decide
/-- V-GF-3: the inverse of zero. -/
theorem test_gfinv_zero : statusWord (after (.gfinv 0) State.reset).status = 0x1000 := by decide
/-- Rule R200. -/
theorem test_nop : after .nop cleanWord = cleanWord := by rfl
/-- V-FLT-1: after a fault, `CLRF` gives the state before it. -/
theorem test_clrf : after .clrf (after (.gfdiv 5 0) State.reset) = State.reset := by decide
/-- V-ENC-11: old parity is overwritten. -/
theorem test_rsenc : (after .rsenc (block 8 4 [1, 2, 3, 4, 5, 6, 7, 8, 0xFF, 0xFF, 0xFF, 0xFF])).cw = cleanWord.cw := by
  decide +kernel
/-- Rule R133, V-ENC-1: the generator of degree 4. -/
theorem test_rsenc_generator : (after .rsenc (block 0 4 [])).g = bytes [1, 0x0F, 0x36, 0x78, 0x40] := by decide +kernel
/-- V-SYN-2. -/
theorem test_synd : (after .synd twoErrors).synd = bytes [0xF4, 0x5B, 0x86, 0x42] := by decide +kernel
/-- V-SYN-1. -/
theorem test_synd_clean : statusWord (after .synd cleanWord).status = 0x00000101 := by decide +kernel
/-- V-BM-1. -/
theorem test_bma :
    (fun t : State => (t.sigma, t.bpoly, t.len, t.deg, t.bdisc, t.mshift)) (after .bma located) =
      (bytes [1, 0x2A, 0x87], bytes [1, 0xED], 2, 2, 0x24, 2) := by decide +kernel
/-- V-BM-6: the degree below `L`. -/
theorem test_bma_degree_below_len :
    (fun t : State => (t.sigma, t.len, t.deg)) (after .bma { located with synd := bytes [0x91, 0xB0, 0x6C, 0x08] }) =
      (bytes [1, 0x1D], 2, 1) := by decide +kernel
/-- The example of rule R171. -/
theorem test_chien : (after .chien { located with epos := [], nroot := 0 }).epos = bytes [7, 2] := by decide +kernel
/-- V-DEC-17, last sentence. -/
theorem test_chien_empty : statusWord (after .chien (block 0 0 [])).status = 1 := by decide +kernel
/-- The example of rule R174. -/
theorem test_forney :
    (fun t : State => (t.omega, t.emag, t.cw, t.errcnt, statusWord t.status)) (after .forney located) =
      (bytes [0xF4, 0xB6], bytes [0x08, 0xFC], cleanWord.cw, 2, 0x00000201) := by decide +kernel
/-- V-DEC-13 (a): a zero derivative. -/
theorem test_forney_degenerate :
    statusWord (after .forney { located with
      synd := bytes [0xA8, 0x54, 0x52, 0x29], sigma := bytes [1, 0, 0x10], epos := bytes [9], nroot := 1 }).status
        = 0x00000032 := by decide +kernel
/-- V-DEC-6: one byte of a word without payload. -/
theorem test_rsdec_corrects :
    (fun t : State => (t.cw, t.errcnt, statusWord t.status)) (after .rsdec (block 0 4 [0, 0, 5, 0])) =
      ([], 1, 0x00000101) := by decide +kernel
/-- V-DEC-10: verification fails and the correction is undone. -/
theorem test_rsdec_undoes :
    (fun t : State => (t.cw, t.synd, statusWord t.status))
        (after .rsdec (block 8 4 [1, 2, 3, 4, 0x94, 6, 7, 0x9D, 0x45, 0xC6, 0xEB, 0xF5])) =
      (bytes [1, 2, 3, 4, 0x94, 6, 7, 0x9D, 0x45, 0xC6, 0xEB, 0xF5], bytes [0x6A], 0x00000022) := by decide +kernel

/-! ### The port -/

/-- V-FLT-3: a write of more than a byte. -/
theorem test_write_too_wide : (stepped (asked (.write 0 0 256) .none)).finfo = 0x80000000 := by decide
/-- V-FLT-3: the last index of a space that does not exist, and what the host gets. -/
theorem test_read_no_space :
    (fun t : State => (t.finfo, t.returned)) (stepped (asked (.read 15 0xFFFF) .none)) = (0x000FFFFF, [0]) := by decide
/-- V-FLT-1: host access is not blocked by a fault. -/
theorem test_write_while_faulted : (stepped (asked (.write 1 0 0x55) .divisionByZero)).cw = [(0, 0x55)] := by decide
/-- V-FLT-1: a command is dropped while a fault is pending. -/
theorem test_command_dropped : (stepped (asked (.cmd 0x00030201) .divisionByZero)).res = 0 := by decide
/-- Rule R240: a reset in the middle of a command. -/
theorem test_reset_midway :
    stepped { State.reset with phase := .chien, chain := true, nroot := 3, script := [.reset] } = State.reset := by decide

/-! ### Witnesses for the hypotheses of the statements -/

/-- The tables after reset are intact. -/
theorem witness_tablesIntact : tablesIntact State.reset.tables := ⟨rfl, fun _ _ => rfl⟩

/-- So they are with `LOG[0]` at its other extreme, 0xFF. -/
theorem witness_tablesIntact_other : tablesIntact (withLogZero 0xFF Tables.reset) := by
  refine ⟨rfl, fun i hi => ?_⟩
  by_cases h : i < 16
  · interval_cases i <;> rfl
  · obtain ⟨k, hk⟩ : ∃ k, i / 16 = k + 1 := ⟨i / 16 - 1, by omega⟩
    simp only [romAt, hk]
    rfl

/-- The legal configurations at the ceiling (hypothesis of every statement on an accepted Reed-Solomon command). -/
theorem witness_legal_configuration :
    ((block 255 0 []).dlen.toNat + (block 255 0 []).nsym.toNat ≤ 255) ∧
    ((block 0 255 []).dlen.toNat + (block 0 255 []).nsym.toNat ≤ 255) ∧
    ((block 200 55 []).dlen.toNat + (block 200 55 []).nsym.toNat ≤ 255) := by decide

theorem witness_DecodingFollowsTheOpcodeMap :
    decode 0xFFFFFF03 = .ok (.gfpow 0xFF 65535) ∧
    (∀ r ∈ opTable, opcodeOf 0x00000005 ≠ opcodeOf r.pattern) ∧ (∀ r ∈ opTable, opcodeOf 0xFFFFFFFF ≠ opcodeOf r.pattern) ∧
    ((∃ r ∈ opTable, opcodeOf 0x00000100 = opcodeOf r.pattern) ∧ legalWord 0x00000100 = false) ∧
    ((∃ r ∈ opTable, opcodeOf 0x8000001F = opcodeOf r.pattern) ∧ legalWord 0x8000001F = false) := by decide

theorem witness_OpcodeRowsAreDisjoint :
    (⟨"GFPOW", 0x00000003, 0x000000FF⟩ : OpRow) ∈ opTable ∧
    (⟨"GFPOW", 0x00000003, 0x000000FF⟩ : OpRow).matches 0xFFFFFF03 = true := by decide

theorem witness_StepIssuesTheCommand :
    ((asked (.cmd 0x0000001F) .badAccess).phase = .idle ∧
      (asked (.cmd 0x0000001F) .badAccess).script = [.cmd 0x0000001F] ∧
      (asked (.cmd 0x0000001F) .badAccess).status.fault ≠ .none) ∧
    ((asked (.cmd 0x8000001F) .badAccess).script = [.cmd 0x8000001F] ∧ (0x8000001F : Word) ≠ 0x0000001F ∧
      (asked (.cmd 0x8000001F) .badAccess).status.fault ≠ .none) ∧
    ((asked (.cmd 0x0000001F) .none).status.fault = .none ∧ decode 0x0000001F = .ok .clrf) ∧
    ((asked (.cmd 0x00000020) .none).status.fault = .none ∧ decode 0x00000020 = .error .unknownOpcode) ∧
    (asked (.read 15 0xFFFF) .badAccess).script = [.read 15 0xFFFF] ∧
    (asked (.write 0 0 5) .badAccess).script = [.write 0 0 5] := by decide

/-- The hypotheses on the state, for every host operation. -/
theorem witness_asked (op : HostOp) (fault : FaultCause) :
    (asked op fault).phase = .idle ∧ (asked op fault).script = [op] ∧ (asked op fault).status.fault = fault := ⟨rfl, rfl, rfl⟩

/-- The hypotheses on the operands, clause by clause at both ends of each range: readable indices, then refused ones; with
`witness_asked` for the state. No pair is in two clauses: the clauses differ in the space or split its indices. -/
theorem witness_HostReadReturnsTheEntry :
    ((0 : BitVec 16).toNat < 256 ∧ (255 : BitVec 16).toNat < 256) ∧
    ((0 : BitVec 16).toNat < 512 ∧ (511 : BitVec 16).toNat < 512) ∧
    ((1 ≤ (1 : BitVec 16).toNat ∧ (1 : BitVec 16).toNat < 256) ∧ 1 ≤ (255 : BitVec 16).toNat ∧ (255 : BitVec 16).toNat < 256) ∧
    ((0x00 : BitVec 16).toNat = 0x00 ∧ (0x01 : BitVec 16).toNat = 0x01 ∧ (0x02 : BitVec 16).toNat = 0x02 ∧
      (0x03 : BitVec 16).toNat = 0x03 ∧ (0x04 : BitVec 16).toNat = 0x04 ∧ (0x05 : BitVec 16).toNat = 0x05 ∧
      (0x06 : BitVec 16).toNat = 0x06 ∧ (0x07 : BitVec 16).toNat = 0x07 ∧ (0x08 : BitVec 16).toNat = 0x08 ∧
      (0x09 : BitVec 16).toNat = 0x09 ∧ (0x0A : BitVec 16).toNat = 0x0A ∧ (0x0B : BitVec 16).toNat = 0x0B) ∧
    (11 ≤ (11 : BitVec 4).toNat ∧ 11 ≤ (15 : BitVec 4).toNat) ∧
    ((0 : BitVec 4).toNat = 0 ∧ 12 ≤ (12 : BitVec 16).toNat) ∧
    ((1 ≤ (1 : BitVec 4).toNat ∧ (8 : BitVec 4).toNat ≤ 8) ∧ 256 ≤ (256 : BitVec 16).toNat) ∧
    ((9 : BitVec 4).toNat = 9 ∧ 512 ≤ (512 : BitVec 16).toNat) ∧
    ((10 : BitVec 4).toNat = 10 ∧ (0 : BitVec 16).toNat = 0 ∧ 256 ≤ (256 : BitVec 16).toNat) := by decide

/-- The operands, clause by clause at the ends of each range: accepted data and indices, then each kind of refusal. -/
theorem witness_HostWriteWritesOneEntry :
    ((255 : Word).toNat < 256 ∧ (255 : BitVec 16).toNat < 256) ∧
    ((0 : BitVec 16).toNat = 0 ∧ (1 : BitVec 16).toNat = 1) ∧
    ¬ ((256 : Word).toNat < 256) ∧
    ¬ (((1 : BitVec 4) = 1 ∧ (256 : BitVec 16).toNat < 256) ∨ ((1 : BitVec 4) = 0 ∧ (256 : BitVec 16).toNat < 2)) ∧
    ¬ (((0 : BitVec 4) = 1 ∧ (2 : BitVec 16).toNat < 256) ∨ ((0 : BitVec 4) = 0 ∧ (2 : BitVec 16).toNat < 2)) := by decide

theorem witness_HostResetGivesTheResetValues :
    ({ State.reset with phase := .chien, chain := true, script := [.reset, .cmd 0] } : State).script = .reset :: [.cmd 0] := by
  decide

theorem witness_IdleBlockWaits : State.reset.phase = .idle ∧ State.reset.script = [] := by decide

/-- A block in the middle of a command. -/
def midway (p : Phase) (chain : Bool) : State := { State.reset with dlen := 1, nsym := 2, phase := p, chain := chain }

theorem witness_HostIsHeldDuringACommand :
    (fun s : State => s.phase ≠ .idle ∧ s.script = .cmd 0x10 :: [] ∧ HostOp.cmd 0x10 ≠ .reset ∧
      s.dlen.toNat + s.nsym.toNat ≤ 255) { midway .bma false with script := [.cmd 0x10] } := by decide

theorem witness_PhaseSuccessors :
    (∀ p chain, (midway p chain).script = [] ∧ (midway p chain).dlen.toNat + (midway p chain).nsym.toNat ≤ 255 ∧
      (midway p chain).phase = p ∧ (midway p chain).chain = chain) :=
  fun _ _ => ⟨rfl, (by decide : (1 : Byte).toNat + (2 : Byte).toNat ≤ 255), rfl, rfl⟩

/-- The clauses with a condition besides the phase, at the gate's boundary 2·`DEG` = `NSYM` too. -/
theorem witness_PhaseSuccessors_conditions :
    (stepped (midway .syn true)).phase = .idle ∧
    (midway .gate true).nsym.toNat < 2 * ({ midway .gate true with deg := 2 } : State).deg.toNat ∧
    2 * ({ midway .gate true with deg := 1 } : State).deg.toNat ≤ (midway .gate true).nsym.toNat ∧
    (stepped (midway .chien true)).nroot ≠ (stepped (midway .chien true)).deg ∧
    (fun t : State => t.nroot = t.deg) (stepped { midway .chien true with sigma := [(0, 1)] }) ∧
    (fun t : State => t.nroot = t.deg) (stepped { midway .chien false with sigma := [(0, 1)] }) ∧
    (stepped (midway .div true)).phase = .idle ∧ (stepped (midway .gen true)).phase ≠ .idle := by decide +kernel

/-- `FORNEY` with a position outside the codeword (at its boundary), with a zero derivative, and with neither. -/
theorem witness_PhaseSuccessors_forney :
    (fun s : State => s.phase = .forney ∧ s.script = [] ∧ 0 < s.nroot.toNat ∧
      s.dlen.toNat + s.nsym.toNat ≤ (Mem.read s.epos 0).toNat)
      { located with phase := .forney, epos := bytes [12], nroot := 1 } ∧
    (fun s : State => s.phase = .forney ∧ s.script = [] ∧ 0 < s.nroot.toNat ∧
      derivativeAt s.tables s.sigma s.deg.toNat (alphaInv s.tables (12 - 1 - (Mem.read s.epos 0).toNat)) = 0)
      { located with phase := .forney, sigma := bytes [1, 0, 0x10], epos := bytes [9], nroot := 1 } ∧
    (∀ k, k < ({ located with phase := .forney } : State).nroot.toNat → ¬ (12 ≤ (Mem.read located.epos k).toNat ∨
      derivativeAt located.tables located.sigma located.deg.toNat
        (alphaInv located.tables (12 - 1 - (Mem.read located.epos k).toNat)) = 0)) := by decide +kernel

theorem witness_FirstFaultIsKept :
    (asked (.write 1 256 0) .configError).status.fault ≠ .none ∧
    step (asked (.write 1 256 0) .configError) = .next (stepped (asked (.write 1 256 0) .configError)) ∧
    (∀ rest, (asked (.write 1 256 0) .configError).script ≠ .reset :: rest) ∧
    (∀ rest, (asked (.write 1 256 0) .configError).script ≠ .cmd 0x0000001F :: rest) :=
  ⟨by decide, rfl, fun _ h => by simp [asked] at h, fun _ h => by simp [asked] at h⟩

theorem witness_CommandFaultsArePrecise :
    (State.reset.status.fault = .none ∧ exec (.gfdiv 5 0) State.reset = .next (after (.gfdiv 5 0) State.reset) ∧
      (after (.gfdiv 5 0) State.reset).status.fault ≠ .none) ∧
    (exec .rsdec (block 255 1 []) = .next (after .rsdec (block 255 1 [])) ∧
      (block 255 1 []).status.fault = .none ∧ (after .rsdec (block 255 1 [])).status.fault ≠ .none) :=
  ⟨⟨by decide, exec_eq_after _ _, by decide⟩, exec_eq_after _ _, by decide, by decide⟩

theorem witness_ConfigErrorComesFirst :
    (Instr.forney, (0x15 : Word)) ∈
      [(Instr.rsenc, (0x10 : Word)), (.rsdec, 0x11), (.synd, 0x12), (.bma, 0x13), (.chien, 0x14), (.forney, 0x15)] ∧
    (block 255 1 []).status.fault = .none ∧ (block 255 1 []).dlen.toNat + (block 255 1 []).nsym.toNat > 255 := by decide

/-- Nonzero operands, zero operands and the boundary indices of the statements on the field and its four commands. -/
theorem witness_field_operands :
    (0x01 : Byte) ≠ 0 ∧ (0xFF : Byte) ≠ 0 ∧ (0 : Byte) = 0 ∧ State.reset.status.fault = .none ∧
    opcodeOf 0x80030201 = 0x01 ∧ (0x80030201 : Word).extractLsb' 24 8 ≠ 0 ∧ opcodeOf 0xFFFFFF03 = 0x03 ∧
    (65535 : BitVec 16) ≠ 0 := by decide

theorem witness_NopChangesNothing : opcodeOf 0x00000100 = 0 ∧ (0x00000100 : Word) ≠ 0 := by decide

theorem witness_ClrfClearsTheFaultAlone :
    (State.reset.status.fault = .none ∧ State.reset.finfo = 0) ∧ (asked .reset .badAccess).status.fault ≠ .none ∧
    opcodeOf 0x8000001F = 0x1F ∧ (0x8000001F : Word) ≠ 0x0000001F := by decide

theorem witness_GeneratorHasTheRoots :
    tablesIntact cleanWord.tables ∧ cleanWord.dlen.toNat + cleanWord.nsym.toNat ≤ 255 ∧
    exec .rsenc cleanWord = .next (after .rsenc cleanWord) :=
  ⟨witness_tablesIntact, by decide, exec_eq_after _ _⟩

theorem witness_RsencIsIdempotent :
    Mem.wf twoErrors.cw = true ∧ twoErrors.dlen.toNat + twoErrors.nsym.toNat ≤ 255 := by decide

/-- Both verdicts of the gate are met. -/
theorem witness_BmaWritesTheLocator :
    (fun t : State => t.nsym.toNat < 2 * t.deg.toNat) (after .bma { block 3 1 [] with synd := [(0, 5)] }) ∧
    (fun t : State => 2 * t.deg.toNat ≤ t.nsym.toNat) (after .bma located) := by decide +kernel

theorem witness_BmaOnZeroSyndromes :
    State.reset.dlen.toNat + State.reset.nsym.toNat ≤ 255 ∧
    ∀ i, i < State.reset.nsym.toNat → Mem.read State.reset.synd i = 0 := ⟨by decide, fun _ _ => rfl⟩

/-- Both outcomes of the root count are met. -/
theorem witness_ChienListsTheRoots :
    (after .chien (midway .idle false)).nroot ≠ (midway .idle false).deg ∧
    (after .chien located).nroot = located.deg := by decide +kernel

/-- A position outside the codeword (at its boundary), a zero derivative, and neither. -/
theorem witness_ForneyCorrectsOrRefuses :
    (fun s : State => 0 < s.nroot.toNat ∧ s.dlen.toNat + s.nsym.toNat ≤ (Mem.read s.epos 0).toNat)
      { located with epos := bytes [12], nroot := 1 } ∧
    (fun s : State => 0 < s.nroot.toNat ∧ derivativeAt s.tables s.sigma s.deg.toNat (alphaInv s.tables (12 - 1 - 9)) = 0)
      { located with sigma := bytes [1, 0, 0x10], epos := bytes [9], nroot := 1 } ∧
    (∀ k, k < located.nroot.toNat → ¬ (12 ≤ (Mem.read located.epos k).toNat ∨
      derivativeAt located.tables located.sigma located.deg.toNat
        (alphaInv located.tables (12 - 1 - (Mem.read located.epos k).toNat)) = 0)) := by decide +kernel

theorem witness_ForneyTwiceRestoresTheBuffer :
    located.dlen.toNat + located.nsym.toNat ≤ 255 ∧ exec .forney located = .next (after .forney located) ∧
    (after .forney located).status.result = .ok := ⟨by decide, exec_eq_after _ _, by decide +kernel⟩

/-- A codeword that is not all zero. -/
theorem witness_CleanWordTakesTheEarlyExit :
    cleanWord.dlen.toNat + cleanWord.nsym.toNat ≤ 255 ∧ holdsCodeword cleanWord := by
  refine ⟨by decide, ?_⟩
  unfold holdsCodeword
  decide +kernel

/-- Both results are met, on canonical buffers. -/
theorem witness_RsdecCorrectsOrLeavesTheWord :
    Mem.wf (block 0 4 [0, 0, 5, 0]).cw = true ∧ (after .rsdec (block 0 4 [0, 0, 5, 0])).status.result = .ok ∧
    (after .rsdec (parityOne 0x0D)).status.result = .fail := by decide +kernel

/-- The first and the last byte of the codeword, and the shortest parity that corrects. -/
theorem witness_SingleByteErrorIsCorrected :
    (tablesIntact cleanWord.tables ∧ Mem.wf cleanWord.cw = true ∧ cleanWord.dlen.toNat + cleanWord.nsym.toNat ≤ 255 ∧
      2 ≤ cleanWord.nsym.toNat ∧ holdsCodeword cleanWord ∧ 0 < cleanWord.dlen.toNat + cleanWord.nsym.toNat ∧
      11 < cleanWord.dlen.toNat + cleanWord.nsym.toNat ∧ (0x80 : Byte) ≠ 0) ∧
    2 ≤ (block 3 2 []).nsym.toNat := by
  refine ⟨⟨witness_tablesIntact, ?_, ?_, ?_, witness_CleanWordTakesTheEarlyExit.2, ?_, ?_, ?_⟩, ?_⟩ <;> decide

/-- Two changed bytes under four parity bytes, the most that rule R178 (b) corrects. -/
theorem witness_ErrorsUpToHalfTheParityAreCorrected :
    tablesIntact cleanWord.tables ∧ Mem.wf cleanWord.cw = true ∧ Mem.wf twoErrors.cw = true ∧
    cleanWord.dlen.toNat + cleanWord.nsym.toNat ≤ 255 ∧ holdsCodeword cleanWord ∧
    (∀ a, cleanWord.dlen.toNat + cleanWord.nsym.toNat ≤ a → Mem.read twoErrors.cw a = Mem.read cleanWord.cw a) ∧
    ((List.range (cleanWord.dlen.toNat + cleanWord.nsym.toNat)).filter
      (fun a => decide (Mem.read twoErrors.cw a ≠ Mem.read cleanWord.cw a))).length = 2 ∧
    1 ≤ 2 ∧ 2 * 2 ≤ cleanWord.nsym.toNat := by
  refine ⟨witness_tablesIntact, by decide, by decide, by decide, witness_CleanWordTakesTheEarlyExit.2, ?_, by decide,
    by decide, by decide⟩
  intro a ha
  have h12 : 12 ≤ a := ha
  have outside : ∀ m : Mem, (∀ c ∈ m, c.1 < 12) → Mem.read m a = 0 := by
    intro m
    induction m with
    | nil => intro _; rfl
    | cons c m ih =>
      intro h
      obtain ⟨k, v⟩ := c
      have hk : k < 12 := h (k, v) (by simp)
      simp only [Mem.read]
      rw [if_neg (by omega)]
      exact ih (fun c hc => h c (by simp [hc]))
  rw [outside _ (by decide), outside _ (by decide)]

/-- An `OK` with a correction in it. -/
theorem witness_RsdecCountsTheChangedBytes :
    tablesIntact (block 0 4 [0, 0, 5, 0]).tables ∧ Mem.wf (block 0 4 [0, 0, 5, 0]).cw = true ∧
    (block 0 4 [0, 0, 5, 0]).dlen.toNat + (block 0 4 [0, 0, 5, 0]).nsym.toNat ≤ 255 ∧
    (after .rsdec (block 0 4 [0, 0, 5, 0])).status.result = .ok :=
  ⟨witness_tablesIntact, by decide, by decide, by decide +kernel⟩

/-- One changed byte, and `NSYM` changed bytes, the most that rule R178 (e) takes. -/
theorem witness_CorruptionIsNeverReportedClean :
    tablesIntact cleanWord.tables ∧ cleanWord.dlen.toNat + cleanWord.nsym.toNat ≤ 255 ∧ holdsCodeword cleanWord ∧
    ((List.range (cleanWord.dlen.toNat + cleanWord.nsym.toNat)).filter (fun a => decide
      (Mem.read (bytes [1, 2, 3, 4, 5, 6, 7, 8, 0x45, 0x53, 0xEB, 0x75]) a ≠ Mem.read cleanWord.cw a))).length = 1 ∧
    ((List.range (cleanWord.dlen.toNat + cleanWord.nsym.toNat)).filter (fun a => decide
      (Mem.read (bytes [0, 2, 3, 0xFF, 5, 6, 7, 0, 0x45, 0x53, 0xEB, 0]) a ≠ Mem.read cleanWord.cw a))).length =
        cleanWord.nsym.toNat := by
  refine ⟨witness_tablesIntact, by decide, witness_CleanWordTakesTheEarlyExit.2, by decide, by decide⟩

theorem witness_RsdecWithFewParityBytes :
    (parityOne 8).dlen.toNat + (parityOne 8).nsym.toNat ≤ 255 ∧ (block 4 0 []).nsym = 0 ∧ (parityOne 8).nsym = 1 ∧
    holdsCodeword (parityOne 8) ∧ (parityOne 0x0D).nsym = 1 ∧ ¬ holdsCodeword (parityOne 0x0D) := by
  refine ⟨by decide, by decide, by decide, ?_, by decide, ?_⟩ <;> · unfold holdsCodeword; decide +kernel

theorem witness_StagesAgreeWithTheComposite :
    (block 0 4 [0, 0, 5, 0]).dlen.toNat + (block 0 4 [0, 0, 5, 0]).nsym.toNat ≤ 255 ∧
    ¬ holdsCodeword (block 0 4 [0, 0, 5, 0]) ∧
    exec .rsdec (block 0 4 [0, 0, 5, 0]) = .next (after .rsdec (block 0 4 [0, 0, 5, 0])) ∧
    (after .rsdec (block 0 4 [0, 0, 5, 0])).status.result = .ok := by
  refine ⟨by decide, ?_, exec_eq_after _ _, by decide +kernel⟩
  unfold holdsCodeword
  decide +kernel

theorem witness_PhaseStepsAgreeWithCommandSteps :
    twoErrors.script = [] ∧ twoErrors.dlen.toNat + twoErrors.nsym.toNat ≤ 255 := by decide

/-- Every clause's condition on the command is met by the command that completes without a fault. -/
theorem witness_OnlyTheNamedCommandsWrite :
    exec .synd twoErrors = .next (after .synd twoErrors) ∧ isGf .synd = false ∧ Instr.synd ≠ .rsenc ∧
    Instr.synd ≠ .rsdec ∧ Instr.synd ≠ .forney ∧ Instr.gfinv 2 ≠ .synd ∧ Instr.synd ≠ .bma ∧ Instr.synd ≠ .chien ∧
    isReedSolomon .clrf = false := ⟨exec_eq_after _ _, by decide⟩

/-- The byte after a codeword, and the last byte of the buffer after a codeword of full length. -/
theorem witness_BytesBeyondTheCodewordAreInert :
    (Mem.wf twoErrors.cw = true ∧ twoErrors.dlen.toNat + twoErrors.nsym.toNat ≤ 12 ∧ 12 < 256) ∧
    ((block 200 55 []).dlen.toNat + (block 200 55 []).nsym.toNat ≤ 255 ∧ 255 < 256) := by decide

/-- A state with corrections applied and a root list, which meets every invariant, and a step of it. -/
def busy : State :=
  { located with
    len := 2, emag := bytes [8, 0xFC], errcnt := 2, script := [.cmd 0x12]
    status := { State.reset.status with result := .ok, paychg := true } }

theorem witness_invariants :
    step busy = .next (stepped busy) ∧ tablesIntact busy.tables ∧ atRest busy ∧ storesCanonical busy ∧
    statusLegal busy ∧ correctionFlagsLegal busy := by
  refine ⟨rfl, witness_tablesIntact, ?_⟩
  unfold atRest storesCanonical statusLegal correctionFlagsLegal
  decide

theorem witness_locatorLegal_rootListLegal : locatorLegal busy ∧ rootListLegal busy := by
  refine ⟨⟨by decide, fun i hi => ?_, .inl (by decide), by decide⟩, fun k hk => ?_, ?_⟩
  · have : 2 < i := hi
    show Mem.read [(0, 1), (1, 0x2A), (2, 0x87)] i = 0
    simp only [Mem.read]
    rw [if_neg (by omega), if_neg (by omega), if_neg (by omega)]
  · have : 2 ≤ k := hk
    show Mem.read [(0, 7), (1, 2)] k = 0
    simp only [Mem.read]
    rw [if_neg (by omega), if_neg (by omega)]
  · intro j k hjk hk
    have : k < 2 := hk
    have hj : j = 0 := by omega
    have hk1 : k = 1 := by omega
    subst hj hk1
    decide

end Sys2Proof.Tests
end

/-! # Proofs of the family 10_state: the state, its reset value and its invariants -/

namespace Sys2Proof.Machine

/-! ### What a command can do -/

/-- The state in which an accepted Reed-Solomon command enters its first phase (rules R135, R152, R155, R171, R174,
R176); for any other command the state itself. -/
def rsStart : Instr → State → State
  | .rsenc, s => { s with chain := true, phase := .gen }
  | .rsdec, s => rsdecStart s
  | .synd, s => { s with chain := false, phase := .syn }
  | .bma, s => { s with chain := false, phase := .bma }
  | .chien, s => { s with chain := false, phase := .chien }
  | .forney, s => { s with chain := false, phase := .forney }
  | .nop, s | .clrf, s | .gfmul _ _, s | .gfdiv _ _, s | .gfpow _ _, s | .gfinv _, s => s

/-- The six Reed-Solomon commands differ in their start state alone. -/
theorem exec_of_isReedSolomon {i : Instr} (s : State) (hi : isReedSolomon i = true) :
    exec i s = .next (rsCommand i s (rsStart i s)) := by
  cases i with
  | rsenc | rsdec | synd | bma | chien | forney => rfl
  | nop | clrf | gfmul | gfdiv | gfpow | gfinv => cases hi

/-- A GF command writes `RES`, or raises `DivisionByZero` (rules R110 to R113). -/
theorem exec_of_isGf {i : Instr} (s : State) (hi : isGf i = true) :
    (∃ r, exec i s = .next { s with res := r }) ∨
    exec i s = .next (raiseFault .divisionByZero (encode i) s) := by
  cases i with
  | gfmul a b => exact .inl ⟨_, rfl⟩
  | gfpow a e => exact .inl ⟨_, rfl⟩
  | gfdiv a b =>
    simp only [exec, execGfdiv]
    cases gfDiv s.tables a b with
    | some q => exact .inl ⟨q, rfl⟩
    | none => exact .inr rfl
  | gfinv a =>
    simp only [exec, execGfinv]
    cases gfInv s.tables a with
    | some q => exact .inl ⟨q, rfl⟩
    | none => exact .inr rfl
  | nop | clrf | rsenc | rsdec | synd | bma | chien | forney => cases hi

/-- Everything a command can do: nothing, the return from a fault, a GF result or its fault, or a run of phases. -/
theorem exec_cases {i : Instr} {s t : State} (h : exec i s = .next t) :
    (i = .nop ∧ t = s) ∨ (i = .clrf ∧ t = clearFault s) ∨ (isGf i = true ∧ ∃ r, t = { s with res := r }) ∨
    (isGf i = true ∧ t = raiseFault .divisionByZero (encode i) s) ∨
    (isReedSolomon i = true ∧ t = rsCommand i s (rsStart i s)) := by
  have hgf : isGf i = true → (isGf i = true ∧ ∃ r, t = { s with res := r }) ∨
      (isGf i = true ∧ t = raiseFault .divisionByZero (encode i) s) := by
    intro hi
    obtain ⟨r, he⟩ | he := exec_of_isGf s hi <;> rw [he] at h <;> cases h
    · exact .inl ⟨hi, r, rfl⟩
    · exact .inr ⟨hi, rfl⟩
  have hrs : isReedSolomon i = true → isReedSolomon i = true ∧ t = rsCommand i s (rsStart i s) := by
    intro hi
    rw [exec_of_isReedSolomon s hi] at h
    cases h
    exact ⟨hi, rfl⟩
  cases i with
  | nop => cases h; exact .inl ⟨rfl, rfl⟩
  | clrf => cases h; exact .inr (.inl ⟨rfl, rfl⟩)
  | gfmul | gfdiv | gfpow | gfinv => exact .inr (.inr ((hgf rfl).imp_right .inl))
  | rsenc | rsdec | synd | bma | chien | forney => exact .inr (.inr (.inr (.inr (hrs rfl))))

/-- The start state has the configuration of the state the command is issued in. -/
theorem codewordLen_rsStart (i : Instr) (s : State) : codewordLen (rsStart i s) = codewordLen s := by
  cases i <;> rfl

/-! ### Invariants of a step -/

/-- A property that every single write of the block keeps: each field lists one way the state changes, and from them
`StepInvariant.keeps_step` says that every step keeps the property. -/
structure StepInvariant (P : State → Prop) : Prop where
  host : ∀ s script returned, P s → P { s with script := script, returned := returned }
  config : ∀ s dlen nsym, P s → P { s with dlen := dlen, nsym := nsym }
  buffer : ∀ s a v, a < Config.storeSize → P s → P (memWrite s a v)
  result : ∀ s r, P s → P { s with res := r }
  sequencer : ∀ s chain phase, P s → P { s with chain := chain, phase := phase }
  corrections : ∀ s, P s → P { s with errcnt := 0, status := { s.status with paychg := false } }
  raise : ∀ s cause info, cause ≠ .none → P s → P (raiseFault cause info s)
  clear : ∀ s, P s → P (clearFault s)
  reset : ∀ s, P (hostReset s)
  phase : ∀ s, ¬ configIllegal s → P s → P (runPhase s)

namespace StepInvariant

variable {P : State → Prop}

theorem keeps_rsStart (h : StepInvariant P) (i : Instr) (s : State) (hs : P s) : P (rsStart i s) := by
  cases i with
  | rsenc | synd | bma | chien | forney => exact h.sequencer s _ _ hs
  | rsdec => exact h.corrections _ (h.sequencer s true .syn hs)
  | nop | clrf | gfmul | gfdiv | gfpow | gfinv => exact hs

/-- No phase changes the configuration, so it stays legal while the phases run. -/
theorem keeps_runPhases (h : StepInvariant P) (n : Nat) (s : State) (hc : ¬ configIllegal s) (hs : P s) :
    P (runPhases n s) := by
  refine (runPhases_induction (fun t => ¬ configIllegal t ∧ P t) (fun t ⟨htc, ht⟩ => ⟨?_, h.phase t htc ht⟩)
    n s ⟨hc, hs⟩).2
  obtain ⟨_, hdlen, hnsym, _⟩ := runPhase_frame t
  unfold configIllegal codewordLen
  rwa [hdlen, hnsym]

theorem keeps_rsCommand (h : StepInvariant P) (i : Instr) (s : State) (hs : P s) :
    P (rsCommand i s (rsStart i s)) := by
  by_cases hc : configIllegal s
  · rw [rsCommand_illegal i s _ hc]
    exact h.raise s _ _ (by simp) hs
  · rw [rsCommand_legal i s _ hc]
    exact h.keeps_runPhases _ _ (by rwa [configIllegal, codewordLen_rsStart]) (h.keeps_rsStart i s hs)

theorem keeps_exec (h : StepInvariant P) {i : Instr} {s t : State} (he : exec i s = .next t) (hs : P s) : P t := by
  obtain ⟨_, rfl⟩ | ⟨_, rfl⟩ | ⟨_, r, rfl⟩ | ⟨_, rfl⟩ | ⟨_, rfl⟩ := exec_cases he
  · exact hs
  · exact h.clear s hs
  · exact h.result s r hs
  · exact h.raise s _ _ (by simp) hs
  · exact h.keeps_rsCommand i s hs

theorem keeps_hostCmd (h : StepInvariant P) {w : Word} {s t : State} (he : hostCmd w s = .next t) (hs : P s) : P t := by
  obtain ⟨_, _, e⟩ | ⟨_, _, e⟩ | ⟨_, _, _, e⟩ | ⟨_, i, _, e⟩ := hostCmd_cases w s <;> rw [e] at he
  · cases he; exact h.clear s hs
  · cases he; exact hs
  · cases he; exact h.raise s _ _ (by simp) hs
  · exact h.keeps_exec he hs

theorem keeps_hostRead (h : StepInvariant P) (space : BitVec 4) (index : BitVec 16) (s : State) (hs : P s) :
    P (hostRead space index s) := by
  obtain ⟨v, _, e⟩ | ⟨_, e⟩ := hostRead_cases space index s <;> rw [e]
  · exact h.host s s.script _ hs
  · exact h.raise _ _ _ (by simp) (h.host s s.script _ hs)

theorem keeps_hostWrite (h : StepInvariant P) (space : BitVec 4) (index : BitVec 16) (data : Word) (s : State)
    (hs : P s) : P (hostWrite space index data s) := by
  obtain ⟨t, ht, e⟩ | ⟨_, e⟩ := hostWrite_cases space index data s <;> rw [e]
  · obtain ⟨_, _, rfl⟩ | ⟨_, _, rfl⟩ | ⟨_, hi, rfl⟩ := entryWrite_cases s t space index data ht
    · exact h.config s _ s.nsym hs
    · exact h.config s s.dlen _ hs
    · exact h.buffer s _ _ hi hs
  · exact h.raise s _ _ (by simp) hs

/-- Every step keeps the property. -/
theorem keeps_step (h : StepInvariant P) {s t : State} (he : step s = .next t) (hs : P s) : P t := by
  obtain ⟨_, _, e⟩ | ⟨_, _, e⟩ | ⟨_, hc, e⟩ | ⟨op, rest, _, _, e⟩ := step_cases s <;> rw [e] at he
  · cases he; exact hs
  · cases he
  · cases he; exact h.phase s hc hs
  · have hr : P { s with script := rest } := h.host s rest s.returned hs
    cases op with
    | read space index => cases he; exact h.keeps_hostRead space index _ hr
    | write space index data => cases he; exact h.keeps_hostWrite space index data _ hr
    | cmd w => exact h.keeps_hostCmd he hr
    | reset => cases he; exact h.reset _

end StepInvariant

/-! ### What each phase writes

Each lemma names the pieces of state a phase can write, with whatever it writes there; every other piece is as
before. -/

theorem phaseSyn_writes (s : State) : ∃ m z r c p b, phaseSyn s =
    { s with synd := m, status := { s.status with szero := z, result := r, cause := c }, phase := p, chain := b } := by
  obtain ⟨_, h⟩ | ⟨_, _, h⟩ := phaseSyn_cases s <;> exact ⟨_, _, _, _, _, _, h⟩

theorem phaseGate_writes (s : State) : ∃ r c p b, phaseGate s =
    { s with status := { s.status with result := r, cause := c }, phase := p, chain := b } := by
  obtain ⟨_, h⟩ | ⟨_, _, h⟩ | ⟨_, _, h⟩ := phaseGate_cases s <;> exact ⟨_, _, _, _, h⟩

theorem phaseChien_writes (s : State) : ∃ r c p b, phaseChien s =
    { chienSearch s with status := { s.status with result := r, cause := c }, phase := p, chain := b } := by
  obtain ⟨_, h⟩ | ⟨_, _, h⟩ | ⟨_, _, h⟩ := phaseChien_cases s <;> exact ⟨_, _, _, _, h⟩

theorem phaseForney_writes (s : State) : ∃ e r c p b, phaseForney s =
    { s with
      omega := forneyOmega s, emag := e
      status := { s.status with result := r, cause := c }, phase := p, chain := b } := by
  obtain ⟨_, h⟩ | ⟨_, h⟩ := phaseForney_cases s
  · refine ⟨Mem.tabulate (fun _ => 0), .fail, .degenerateLocator, .idle, false, ?_⟩
    rw [h]
    -- kept opaque, so that comparing the two states does not evaluate it
    generalize Mem.tabulate (fun _ => 0) = zeros
    rfl
  · exact ⟨_, _, _, _, _, h⟩

theorem phaseCorr_writes (s : State) : ∃ r c p b, phaseCorr s =
    { applyMagnitudes s with
      errcnt := s.nroot
      status := { s.status with
        paychg := payloadChanged s.epos s.emag s.nroot.toNat s.dlen, result := r, cause := c }
      phase := p, chain := b } := by
  obtain ⟨_, h⟩ | ⟨_, h⟩ := phaseCorr_cases s <;> exact ⟨_, _, _, _, h⟩

/-- Phase `VERIFY` leaves `ERRCNT` and `PAYCHG` or clears both (rule R175). -/
theorem phaseVerify_writes (s : State) : ∃ w m z n y r c p b, phaseVerify s =
    { s with
      cw := w, synd := m, errcnt := n
      status := { s.status with szero := z, paychg := y, result := r, cause := c }, phase := p, chain := b } ∧
    (n = s.errcnt ∧ y = s.status.paychg ∨ n = 0 ∧ y = false) := by
  obtain ⟨_, h⟩ | ⟨_, h⟩ := phaseVerify_cases s <;> rw [computeSyndromes_eq] at h
  · exact ⟨_, _, _, _, _, _, _, _, _, h, .inl ⟨rfl, rfl⟩⟩
  · exact ⟨_, _, _, _, _, _, _, _, _, h, .inr ⟨rfl, rfl⟩⟩

/-- The registers of the locator, of the root list and of the corrections are each written only in their own phases
(rules R29, R32, R34, R35). -/
theorem runPhase_registers (s : State) :
    (s.phase ≠ .bma → (runPhase s).sigma = s.sigma ∧ (runPhase s).len = s.len ∧ (runPhase s).deg = s.deg ∧
      (runPhase s).mshift = s.mshift) ∧
    (s.phase ≠ .chien → (runPhase s).epos = s.epos ∧ (runPhase s).nroot = s.nroot) ∧
    (s.phase ≠ .corr → s.phase ≠ .verify →
      (runPhase s).errcnt = s.errcnt ∧ (runPhase s).status.paychg = s.status.paychg) := by
  unfold runPhase
  cases s.phase with
  | idle => simp
  | gen => simp [phaseGen_eq]
  | div => simp [phaseDiv_eq]
  | syn => obtain ⟨_, _, _, _, _, _, h⟩ := phaseSyn_writes s; simp [h]
  | bma => simp [phaseBma_eq s]
  | gate => obtain ⟨_, _, _, _, h⟩ := phaseGate_writes s; simp [h]
  | chien => obtain ⟨_, _, _, _, h⟩ := phaseChien_writes s; simp [h]
  | forney => obtain ⟨_, _, _, _, _, h⟩ := phaseForney_writes s; simp [h]
  | corr => obtain ⟨_, _, _, _, h⟩ := phaseCorr_writes s; simp [h, applyMagnitudes_eq]
  | verify => obtain ⟨_, _, _, _, _, _, _, _, _, h, _⟩ := phaseVerify_writes s; simp [h]

/-- A phase leaves `RESULT` and `CAUSE`, or reports `OK` without a cause, or `FAIL` with one (rules R35, R218). -/
theorem runPhase_verdict (s : State) :
    ((runPhase s).status.result = s.status.result ∧ (runPhase s).status.cause = s.status.cause) ∨
    ((runPhase s).status.result = .ok ∧ (runPhase s).status.cause = .none) ∨
    ((runPhase s).status.result = .fail ∧ (runPhase s).status.cause ≠ .none) := by
  unfold runPhase
  cases s.phase with
  | idle => exact .inl ⟨rfl, rfl⟩
  | gen => exact .inl ⟨rfl, rfl⟩
  | div => exact .inr (.inl ⟨rfl, rfl⟩)
  | syn =>
    obtain ⟨_, h⟩ | ⟨_, _, h⟩ := phaseSyn_cases s <;> rw [h]
    · exact .inr (.inl ⟨rfl, rfl⟩)
    · exact .inl ⟨rfl, rfl⟩
  | bma => rw [phaseBma_eq]; exact .inl ⟨rfl, rfl⟩
  | gate =>
    obtain ⟨_, h⟩ | ⟨_, _, h⟩ | ⟨_, _, h⟩ := phaseGate_cases s <;> rw [h]
    · exact .inr (.inr ⟨rfl, by simp⟩)
    · exact .inl ⟨rfl, rfl⟩
    · exact .inr (.inl ⟨rfl, rfl⟩)
  | chien =>
    obtain ⟨_, h⟩ | ⟨_, _, h⟩ | ⟨_, _, h⟩ := phaseChien_cases s <;> rw [h]
    · exact .inr (.inr ⟨rfl, by simp⟩)
    · exact .inl ⟨rfl, rfl⟩
    · exact .inr (.inl ⟨rfl, rfl⟩)
  | forney =>
    obtain ⟨_, h⟩ | ⟨_, h⟩ := phaseForney_cases s <;> rw [h]
    · exact .inr (.inr ⟨rfl, by simp⟩)
    · exact .inl ⟨rfl, rfl⟩
  | corr =>
    obtain ⟨_, h⟩ | ⟨_, h⟩ := phaseCorr_cases s <;> rw [h]
    · exact .inl ⟨rfl, rfl⟩
    · exact .inr (.inl ⟨rfl, rfl⟩)
  | verify =>
    obtain ⟨_, h⟩ | ⟨_, h⟩ := phaseVerify_cases s <;> rw [h]
    · exact .inr (.inl ⟨rfl, rfl⟩)
    · exact .inr (.inr ⟨rfl, by simp⟩)

/-! ### The tables -/

theorem tablesIntact_reset : tablesIntact Tables.reset := ⟨rfl, fun _ _ => rfl⟩

theorem stepInvariant_tablesIntact : StepInvariant (fun s => tablesIntact s.tables) where
  host _ _ _ h := h
  config _ _ _ h := h
  buffer _ _ _ _ h := h
  result _ _ h := h
  sequencer _ _ _ h := h
  corrections _ h := h
  raise s cause info _ h := by rwa [raiseFault_tables]
  clear _ h := h
  reset _ := tablesIntact_reset
  phase s _ h := by rwa [(runPhase_frame s).1]

/-- Settles O52: no step but a reset writes the tables, and a reset gives those of the spec. -/
theorem stepKeepsTheTables : Obligations.StepKeepsTheTables :=
  fun _ _ hstep hs => stepInvariant_tablesIntact.keeps_step hstep hs

/-! ### Status and fault information -/

/-- Fault entry keeps the status legal: it writes `FINFO` only together with a cause (rule R216). -/
theorem statusLegal_raiseFault {cause : FaultCause} (info : Word) {s : State} (hcause : cause ≠ .none)
    (h : statusLegal s) : statusLegal (raiseFault cause info s) := by
  obtain ⟨hverdict, hinfo⟩ := h
  obtain ⟨_, e⟩ | ⟨_, e⟩ := raiseFault_cases cause info s <;> rw [e]
  · exact ⟨hverdict, fun hnone => absurd hnone hcause⟩
  · exact ⟨hverdict, hinfo⟩

theorem statusLegal_runPhase {s : State} (h : statusLegal s) : statusLegal (runPhase s) := by
  obtain ⟨hverdict, hinfo⟩ := h
  obtain ⟨_, _, _, _, hfault, hfinfo, _⟩ := runPhase_frame s
  refine ⟨?_, by rwa [hfault, hfinfo]⟩
  obtain ⟨hr, hc⟩ | ⟨hr, hc⟩ | ⟨hr, hc⟩ := runPhase_verdict s
  · rwa [hr, hc]
  · simp [hr, hc]
  · simp [hr, hc]

theorem statusLegal_hostReset (s : State) : statusLegal (hostReset s) := by
  unfold statusLegal hostReset
  simp [State.reset]

theorem stepInvariant_statusLegal : StepInvariant statusLegal where
  host _ _ _ h := h
  config _ _ _ h := h
  buffer _ _ _ _ h := h
  result _ _ h := h
  sequencer _ _ _ h := h
  corrections _ h := h
  raise _ _ info hcause h := statusLegal_raiseFault info hcause h
  clear _ h := ⟨h.1, fun _ => rfl⟩
  reset := statusLegal_hostReset
  phase _ _ h := statusLegal_runPhase h

/-- Settles O54: a phase ends with `setOk` or `fail`, and `FINFO` is written with `FAULT` alone. -/
theorem stepKeepsStatusLegal : Obligations.StepKeepsStatusLegal :=
  fun _ _ hstep hs => stepInvariant_statusLegal.keeps_step hstep hs

/-! ### The correction flags -/

/-- A changed payload byte needs a listed correction (rule R173). -/
theorem ne_zero_of_payloadChanged {epos emag : Mem} {nroot dlen : Byte}
    (h : payloadChanged epos emag nroot.toNat dlen = true) : nroot ≠ 0 := by
  rintro rfl
  simp [payloadChanged] at h

theorem correctionFlagsLegal_phaseCorr (s : State) : correctionFlagsLegal (phaseCorr s) := by
  obtain ⟨_, _, _, _, e⟩ := phaseCorr_writes s
  rw [e]
  exact ne_zero_of_payloadChanged

theorem correctionFlagsLegal_phaseVerify {s : State} (h : correctionFlagsLegal s) :
    correctionFlagsLegal (phaseVerify s) := by
  obtain ⟨_, _, _, n, y, _, _, _, _, e, ⟨rfl, rfl⟩ | ⟨rfl, rfl⟩⟩ := phaseVerify_writes s <;> rw [e]
  · exact h
  · exact fun hset => absurd hset Bool.false_ne_true

theorem correctionFlagsLegal_runPhase {s : State} (h : correctionFlagsLegal s) :
    correctionFlagsLegal (runPhase s) := by
  by_cases hc : s.phase = .corr
  · simpa only [runPhase, hc] using correctionFlagsLegal_phaseCorr s
  by_cases hv : s.phase = .verify
  · simpa only [runPhase, hv] using correctionFlagsLegal_phaseVerify h
  obtain ⟨_, _, hkeep⟩ := runPhase_registers s
  obtain ⟨herrcnt, hpaychg⟩ := hkeep hc hv
  rwa [correctionFlagsLegal, herrcnt, hpaychg]

theorem stepInvariant_correctionFlagsLegal : StepInvariant correctionFlagsLegal where
  host _ _ _ h := h
  config _ _ _ h := h
  buffer _ _ _ _ h := h
  result _ _ h := h
  sequencer _ _ _ h := h
  corrections _ _ hset := absurd hset Bool.false_ne_true
  raise s cause info _ h := by
    obtain ⟨_, _, _, hpaychg⟩ := raiseFault_status_results cause info s
    rwa [correctionFlagsLegal, hpaychg, raiseFault_errcnt]
  clear _ h := h
  reset _ hset := absurd hset Bool.false_ne_true
  phase _ _ h := correctionFlagsLegal_runPhase h

/-- Settles O57: phase `CORR` sets `PAYCHG` only for a listed correction, and the two are cleared together. -/
theorem stepKeepsCorrectionFlagsLegal : Obligations.StepKeepsCorrectionFlagsLegal :=
  fun _ _ hstep hs => stepInvariant_correctionFlagsLegal.keeps_step hstep hs

/-! ### The locator's registers -/

/-- Entry `a` of the updated locator σ - q x^m B (rule R153). -/
theorem read_updateSigma (T : Tables) (sigma bpoly : Mem) (m : Nat) (q : Byte) (a : Nat) :
    Mem.read (updateSigma T sigma bpoly m q) a =
      if m ≤ a ∧ a < Config.storeSize then Mem.read sigma a ^^^ gfMul T q (Mem.read bpoly (a - m))
      else Mem.read sigma a := by
  rw [updateSigma, Mem.read_fill]
  exact if_congr (by omega) rfl rfl

/-- The update leaves an entry where x^m B has no coefficient. -/
theorem read_updateSigma_of_zero (T : Tables) (sigma bpoly : Mem) (m : Nat) (q : Byte) (a : Nat)
    (h : m ≤ a → Mem.read bpoly (a - m) = 0) :
    Mem.read (updateSigma T sigma bpoly m q) a = Mem.read sigma a := by
  rw [read_updateSigma]
  split
  · next hm => rw [h hm.1, gfMul_zero_right]; exact BitVec.xor_zero
  · rfl

/-- What the recurrence keeps up to step `n`, whatever the tables hold: σ has constant term 1 and degree at most `L`, B
has degree at most n + 1 - m - L, and so `m` and `L` stay within the steps made (rule R156). -/
structure RecurrenceBounds (n : Nat) (s : State) : Prop where
  shift_pos : 1 ≤ s.mshift.toNat
  shift_add_len : s.mshift.toNat + s.len.toNat ≤ n + 1
  sigma_zero : Mem.read s.sigma 0 = 1
  sigma_above : ∀ a, s.len.toNat < a → Mem.read s.sigma a = 0
  bpoly_above : ∀ a, n + 1 < s.mshift.toNat + s.len.toNat + a → Mem.read s.bpoly a = 0

/-- σ = B = 1 as the phase starts with them. -/
theorem read_one (a : Nat) : Mem.read (Mem.tabulate (fun i => if i = 0 then 1 else 0)) a = if a = 0 then 1 else 0 := by
  rw [Mem.read_tabulate]
  split
  · rfl
  · next h => rw [if_neg (by rintro rfl; exact h (by decide))]

theorem recurrenceBounds_bmaInit (s : State) : RecurrenceBounds 0 (bmaInit s) where
  shift_pos := le_refl 1
  shift_add_len := le_refl 1
  sigma_zero := read_one 0
  sigma_above a ha := (read_one a).trans (if_neg (Nat.ne_of_gt ha))
  bpoly_above a ha := by
    have ha' : 0 + 1 < 1 + 0 + a := ha
    exact (read_one a).trans (if_neg (by omega))

namespace RecurrenceBounds

variable {n : Nat} {s : State}

theorem toNat_mshift_succ (h : RecurrenceBounds n s) (hn : n < 255) :
    (s.mshift + 1).toNat = s.mshift.toNat + 1 := by
  have := h.shift_add_len
  rw [BitVec.toNat_add]
  exact Nat.mod_eq_of_lt (by simp; omega)

/-- The updated locator has degree at most the larger of `L` and n + 1 - `L`. -/
theorem updateSigma_above (h : RecurrenceBounds n s) (q : Byte) {a : Nat} (hlen : s.len.toNat < a)
    (hchange : n + 1 < s.len.toNat + a) :
    Mem.read (updateSigma s.tables s.sigma s.bpoly s.mshift.toNat q) a = 0 := by
  rw [read_updateSigma_of_zero _ _ _ _ _ _ (fun _ => h.bpoly_above _ (by omega)), h.sigma_above a hlen]

/-- The update never reaches the constant term, because `m` is at least 1. -/
theorem updateSigma_zero (h : RecurrenceBounds n s) (q : Byte) :
    Mem.read (updateSigma s.tables s.sigma s.bpoly s.mshift.toNat q) 0 = 1 := by
  have := h.shift_pos
  rw [read_updateSigma_of_zero _ _ _ _ _ _ (fun hm => by omega), h.sigma_zero]

theorem after_bmaStep (h : RecurrenceBounds n s) (hn : n < 255) : RecurrenceBounds (n + 1) (bmaStep n s) := by
  have hshift := h.toNat_mshift_succ hn
  have hbound := h.shift_add_len
  have hpos := h.shift_pos
  obtain ⟨_, e⟩ | ⟨_, hl, e⟩ | ⟨_, hl, e⟩ := bmaStep_cases n s <;> rw [e]
  case inl =>
    exact {
      shift_pos := by simp only [hshift]; omega
      shift_add_len := by simp only [hshift]; omega
      sigma_zero := h.sigma_zero
      sigma_above := h.sigma_above
      bpoly_above := fun a ha => h.bpoly_above a (by simp only [hshift] at ha; omega) }
  case inr.inl =>
    have hone : (1 : BitVec 9).toNat = 1 := rfl
    have hlen : (BitVec.ofNat 8 (n + 1 - s.len.toNat)).toNat = n + 1 - s.len.toNat := by
      rw [BitVec.toNat_ofNat]; exact Nat.mod_eq_of_lt (by omega)
    exact {
      shift_pos := le_refl 1
      shift_add_len := by simp only [hlen, hone]; omega
      sigma_zero := h.updateSigma_zero _
      sigma_above := fun a ha => by
        simp only [hlen] at ha
        exact h.updateSigma_above _ (by omega) (by omega)
      bpoly_above := fun a ha => h.sigma_above a (by simp only [hlen, hone] at ha; omega) }
  case inr.inr =>
    exact {
      shift_pos := by simp only [hshift]; omega
      shift_add_len := by simp only [hshift]; omega
      sigma_zero := h.updateSigma_zero _
      sigma_above := fun a ha => h.updateSigma_above _ ha (by simp only at ha; omega)
      bpoly_above := fun a ha => h.bpoly_above a (by simp only [hshift] at ha; omega) }

theorem of_bmaRun (s : State) (hn : n ≤ 255) : RecurrenceBounds n (bmaRun n s) :=
  loop_induction RecurrenceBounds n bmaStep (bmaInit s) (recurrenceBounds_bmaInit s)
    (fun _ _ hi h => h.after_bmaStep (by omega))

end RecurrenceBounds

/-- `DEG` is at most a bound above which the store is zero. -/
theorem topIndex_le {m : Mem} {b : Nat} (h : ∀ a, b < a → Mem.read m a = 0) (n : Nat) : topIndex m n ≤ b := by
  induction n with
  | zero => exact Nat.zero_le b
  | succ n ih =>
    unfold topIndex
    split
    · next hne => exact Nat.le_of_not_lt (fun hlt => hne (h n hlt))
    · exact ih

/-- Below index `n` the store is zero above its top index. -/
theorem read_of_topIndex_lt (m : Mem) {n a : Nat} (ha : a < n) (htop : topIndex m n < a) : Mem.read m a = 0 := by
  induction n with
  | zero => omega
  | succ n ih =>
    unfold topIndex at htop
    split at htop
    · omega
    · next hz =>
      obtain rfl | hlt := Nat.eq_or_lt_of_le (Nat.le_of_lt_succ ha)
      · exact not_not.mp hz
      · exact ih hlt htop

/-- Phase `BMA` leaves the locator's registers legal, whatever they were before. -/
theorem locatorLegal_phaseBma (s : State) : locatorLegal (phaseBma s) := by
  have hnsym : s.nsym.toNat ≤ 255 := Nat.le_of_lt_succ s.nsym.isLt
  have h := RecurrenceBounds.of_bmaRun s hnsym
  have hbound := h.shift_add_len
  rw [phaseBma_eq]
  generalize bmaRun s.nsym.toNat s = r at h hbound
  have hlen : r.len.toNat ≤ 255 := Nat.le_of_lt_succ r.len.isLt
  have htop : topIndex r.sigma Config.storeSize ≤ r.len.toNat := topIndex_le h.sigma_above _
  have hdeg : (BitVec.ofNat 8 (topIndex r.sigma Config.storeSize)).toNat = topIndex r.sigma Config.storeSize := by
    rw [BitVec.toNat_ofNat]; exact Nat.mod_eq_of_lt (by omega)
  refine ⟨hdeg.trans_le htop, fun a ha => ?_, .inl h.sigma_zero, by simp only; omega⟩
  obtain hlt | hge := Nat.lt_or_ge a Config.storeSize
  · exact read_of_topIndex_lt _ hlt (hdeg ▸ ha)
  · exact h.sigma_above a (by simp only [Config.storeSize] at hge; omega)

theorem locatorLegal_runPhase {s : State} (h : locatorLegal s) : locatorLegal (runPhase s) := by
  by_cases hp : s.phase = .bma
  · simpa only [runPhase, hp] using locatorLegal_phaseBma s
  · obtain ⟨hkeep, _⟩ := runPhase_registers s
    obtain ⟨hsigma, hlen, hdeg, hmshift⟩ := hkeep hp
    rwa [locatorLegal, hsigma, hlen, hdeg, hmshift]

theorem stepInvariant_locatorLegal : StepInvariant locatorLegal where
  host _ _ _ h := h
  config _ _ _ h := h
  buffer _ _ _ _ h := h
  result _ _ h := h
  sequencer _ _ _ h := h
  corrections _ h := h
  raise _ _ _ _ h := by
    simpa only [locatorLegal, raiseFault_deg, raiseFault_len, raiseFault_sigma, raiseFault_mshift] using h
  clear _ h := h
  reset _ := ⟨le_refl 0, fun _ _ => rfl, .inr fun _ => rfl, Nat.zero_le 256⟩
  phase _ _ h := locatorLegal_runPhase h

/-- Settles O55: only phase `BMA` writes these registers, and its recurrence keeps `RecurrenceBounds`. -/
theorem stepKeepsLocatorLegal : Obligations.StepKeepsLocatorLegal :=
  fun _ _ hstep hs => stepInvariant_locatorLegal.keeps_step hstep hs

/-! ### The list of roots -/

/-- The roots are listed by rising power index (rule R170). -/
theorem chienRoots_pairwise_lt (T : Tables) (sigma : Mem) (deg n : Nat) :
    (chienRoots T sigma deg n).Pairwise (· < ·) :=
  List.pairwise_lt_range.filter _

theorem lt_of_mem_chienRoots {T : Tables} {sigma : Mem} {deg n i : Nat} (h : i ∈ chienRoots T sigma deg n) : i < n :=
  List.mem_range.mp (List.mem_of_mem_filter h)

theorem length_chienRoots_le (T : Tables) (sigma : Mem) (deg n : Nat) : (chienRoots T sigma deg n).length ≤ n :=
  (List.length_filter_le _ _).trans_eq List.length_range

/-- Entry `k` of `EPOS` while `k` counts a root: the root's byte index. -/
theorem toNat_read_rootPositions {roots : List Nat} {n k : Nat} (hn : n ≤ Config.maxCodeword)
    (hlen : roots.length ≤ n) (hk : k < roots.length) :
    (Mem.read (rootPositions roots n) k).toNat = n - 1 - roots[k] := by
  simp only [Config.maxCodeword] at hn
  rw [rootPositions, Mem.read_tabulate, if_pos (by simp only [Config.storeSize]; omega), List.getElem?_eq_getElem hk,
    BitVec.toNat_ofNat]
  exact Nat.mod_eq_of_lt (by omega)

theorem read_rootPositions_of_length_le {roots : List Nat} (n : Nat) {k : Nat} (hk : roots.length ≤ k) :
    Mem.read (rootPositions roots n) k = 0 := by
  rw [rootPositions, Mem.read_tabulate, List.getElem?_eq_none hk]
  exact ite_self 0

/-- A root's byte index falls as its power index rises. -/
theorem rootListLegal_chienSearch {s : State} (hc : ¬ configIllegal s) : rootListLegal (chienSearch s) := by
  have hn : codewordLen s ≤ Config.maxCodeword := Nat.le_of_not_lt hc
  have hlen := length_chienRoots_le s.tables s.sigma s.deg.toNat (codewordLen s)
  have hsorted := chienRoots_pairwise_lt s.tables s.sigma s.deg.toNat (codewordLen s)
  have hmem : ∀ i ∈ chienRoots s.tables s.sigma s.deg.toNat (codewordLen s), i < codewordLen s :=
    fun _ => lt_of_mem_chienRoots
  unfold rootListLegal
  simp only
  generalize chienRoots s.tables s.sigma s.deg.toNat (codewordLen s) = roots at hlen hsorted hmem
  have hcount : (BitVec.ofNat 8 roots.length).toNat = roots.length := by
    simp only [Config.maxCodeword] at hn
    rw [BitVec.toNat_ofNat]; exact Nat.mod_eq_of_lt (by omega)
  rw [hcount]
  refine ⟨fun k hk => read_rootPositions_of_length_le _ hk, fun j k hjk hk => ?_⟩
  have hj : j < roots.length := hjk.trans hk
  have hrise : roots[j] < roots[k] := List.pairwise_iff_getElem.mp hsorted j k hj hk hjk
  have hlast : roots[k] < codewordLen s := hmem _ (List.getElem_mem hk)
  rw [toNat_read_rootPositions hn hlen hk, toNat_read_rootPositions hn hlen hj]
  omega

theorem rootListLegal_runPhase {s : State} (hc : ¬ configIllegal s) (h : rootListLegal s) :
    rootListLegal (runPhase s) := by
  by_cases hp : s.phase = .chien
  · obtain ⟨_, _, _, _, e⟩ := phaseChien_writes s
    simp only [runPhase, hp, e]
    exact rootListLegal_chienSearch hc
  · obtain ⟨_, hkeep, _⟩ := runPhase_registers s
    obtain ⟨hepos, hnroot⟩ := hkeep hp
    rwa [rootListLegal, hepos, hnroot]

theorem stepInvariant_rootListLegal : StepInvariant rootListLegal where
  host _ _ _ h := h
  config _ _ _ h := h
  buffer _ _ _ _ h := h
  result _ _ h := h
  sequencer _ _ _ h := h
  corrections _ h := h
  raise _ _ _ _ h := by simpa only [rootListLegal, raiseFault_epos, raiseFault_nroot] using h
  clear _ h := h
  reset _ := ⟨fun _ _ => rfl, fun _ k _ hk => absurd hk (Nat.not_lt_zero k)⟩
  phase _ hc h := rootListLegal_runPhase hc h

/-- Settles O56: only phase `CHIEN` writes the list, in the order of its search. -/
theorem stepKeepsRootListLegal : Obligations.StepKeepsRootListLegal :=
  fun _ _ hstep hs => stepInvariant_rootListLegal.keeps_step hstep hs

/-! ### LOG[0]

No rule looks up `LOG[0]`: every function of the field tests for zero first (rules R106 to R109). So the functions, the
phases built from them and the commands built from those do not see a replaced `LOG[0]`. -/

/-- The state with `LOG[0]` replaced by `z` (rule R22). -/
def State.withLogZero (z : Byte) (s : State) : State := { s with tables := Machine.withLogZero z s.tables }

theorem romAt_withLogZero (z : Byte) (T : Tables) {i : Nat} (hi : 1 ≤ i) :
    romAt (withLogZero z T).log i = romAt T.log i := by
  unfold withLogZero
  simp only
  split
  · next row rows heq =>
    rw [heq]
    unfold romAt
    obtain hrow | ⟨k, hrow⟩ : i / 16 = 0 ∨ ∃ k, i / 16 = k + 1 := by cases i / 16 <;> simp
    · obtain ⟨j, hj⟩ : ∃ j, i % 16 = j + 1 := ⟨i % 16 - 1, by omega⟩
      simp [hrow, hj]
    · simp [hrow]
  · rfl

theorem logAt_withLogZero (z : Byte) (T : Tables) {v : Byte} (hv : v ≠ 0) :
    logAt (withLogZero z T) v = logAt T v := by
  have hpos : 1 ≤ v.toNat := Nat.one_le_iff_ne_zero.mpr (fun h => hv (BitVec.eq_of_toNat_eq h))
  rw [logAt, logAt, romAt_withLogZero z T hpos]

@[simp] theorem expAt_withLogZero (z : Byte) (T : Tables) (i : Nat) : expAt (withLogZero z T) i = expAt T i := rfl

@[simp] theorem alpha_withLogZero (z : Byte) (T : Tables) (i : Nat) : alpha (withLogZero z T) i = alpha T i := rfl

@[simp] theorem alphaInv_withLogZero (z : Byte) (T : Tables) (i : Nat) :
    alphaInv (withLogZero z T) i = alphaInv T i := rfl

@[simp] theorem gfMul_withLogZero (z : Byte) (T : Tables) (a b : Byte) : gfMul (withLogZero z T) a b = gfMul T a b := by
  by_cases ha : a = 0
  · rw [ha, gfMul_zero_left, gfMul_zero_left]
  by_cases hb : b = 0
  · rw [hb, gfMul_zero_right, gfMul_zero_right]
  · rw [gfMul_of_ne _ ha hb, gfMul_of_ne _ ha hb, logAt_withLogZero z T ha, logAt_withLogZero z T hb,
      expAt_withLogZero]

@[simp] theorem gfDiv_withLogZero (z : Byte) (T : Tables) (a b : Byte) : gfDiv (withLogZero z T) a b = gfDiv T a b := by
  unfold gfDiv
  by_cases hb : b = 0
  · simp [hb]
  by_cases ha : a = 0
  · simp [ha]
  · rw [logAt_withLogZero z T ha, logAt_withLogZero z T hb, expAt_withLogZero]

@[simp] theorem gfInv_withLogZero (z : Byte) (T : Tables) (a : Byte) : gfInv (withLogZero z T) a = gfInv T a := by
  unfold gfInv
  by_cases ha : a = 0
  · simp [ha]
  · rw [logAt_withLogZero z T ha, expAt_withLogZero]

@[simp] theorem gfPow_withLogZero (z : Byte) (T : Tables) (a : Byte) (e : Nat) :
    gfPow (withLogZero z T) a e = gfPow T a e := by
  unfold gfPow
  by_cases ha : a = 0
  · simp [ha]
  · rw [logAt_withLogZero z T ha, expAt_withLogZero]

/-! #### The computations of the phases -/

@[simp] theorem generatorPoly_withLogZero (z : Byte) (T : Tables) (nsym : Nat) :
    generatorPoly (withLogZero z T) nsym = generatorPoly T nsym := by
  have hstep : genStep (withLogZero z T) = genStep T := by funext i old; simp [genStep]
  rw [generatorPoly, hstep, generatorPoly]

@[simp] theorem divSequence_withLogZero (z : Byte) (T : Tables) (g cw : Mem) (dlen nsym : Nat) :
    divSequence (withLogZero z T) g cw dlen nsym = divSequence T g cw dlen nsym := by
  have hstep : divStep (withLogZero z T) g nsym = divStep T g nsym := by funext i w; simp [divStep]
  rw [divSequence, hstep, divSequence]

@[simp] theorem syndromes_withLogZero (z : Byte) (T : Tables) (cw : Mem) (n nsym : Nat) :
    syndromes (withLogZero z T) cw n nsym = syndromes T cw n nsym := by
  simp [syndromes, evalWord]

@[simp] theorem updateSigma_withLogZero (z : Byte) (T : Tables) (sigma bpoly : Mem) (m : Nat) (q : Byte) :
    updateSigma (withLogZero z T) sigma bpoly m q = updateSigma T sigma bpoly m q := by
  simp [updateSigma]

@[simp] theorem chienRoots_withLogZero (z : Byte) (T : Tables) (sigma : Mem) (deg n : Nat) :
    chienRoots (withLogZero z T) sigma deg n = chienRoots T sigma deg n := by
  have hvalue : locatorAt (withLogZero z T) = locatorAt T := by funext sigma deg x; simp [locatorAt]
  have hpoint : alphaInv (withLogZero z T) = alphaInv T := rfl
  rw [chienRoots, hvalue, hpoint, chienRoots]

@[simp] theorem errorEvaluator_withLogZero (z : Byte) (T : Tables) (synd sigma : Mem) (deg nsym : Nat) :
    errorEvaluator (withLogZero z T) synd sigma deg nsym = errorEvaluator T synd sigma deg nsym := by
  simp [errorEvaluator]

@[simp] theorem magnitudeAt_withLogZero (z : Byte) (T : Tables) (omega sigma : Mem) (deg nsym n pos : Nat) :
    magnitudeAt (withLogZero z T) omega sigma deg nsym n pos = magnitudeAt T omega sigma deg nsym n pos := by
  simp [magnitudeAt, evaluatorAt, derivativeAt]

/-! #### The phases and the commands -/

namespace State

variable (z : Byte) (s : State)

theorem discrepancy_withLogZero (n : Nat) : discrepancy (s.withLogZero z) n = discrepancy s n := by
  simp [discrepancy, withLogZero]

theorem bmaStep_withLogZero (n : Nat) : bmaStep n (s.withLogZero z) = (bmaStep n s).withLogZero z := by
  unfold bmaStep
  rw [discrepancy_withLogZero]
  simp only [withLogZero, gfDiv_withLogZero, updateSigma_withLogZero]
  split
  · rfl
  · split <;> rfl

theorem bmaRun_withLogZero (n : Nat) : bmaRun n (s.withLogZero z) = (bmaRun n s).withLogZero z := by
  induction n with
  | zero => rfl
  | succ n ih => rw [bmaRun_succ, ih, bmaStep_withLogZero, ← bmaRun_succ]

theorem phaseGen_withLogZero : phaseGen (s.withLogZero z) = (phaseGen s).withLogZero z := by
  simp [phaseGen_eq, withLogZero]

theorem phaseDiv_withLogZero : phaseDiv (s.withLogZero z) = (phaseDiv s).withLogZero z := by
  simp [phaseDiv_eq, withLogZero]

theorem computeSyndromes_withLogZero : computeSyndromes (s.withLogZero z) = (computeSyndromes s).withLogZero z := by
  simp [computeSyndromes_eq, withLogZero, codewordLen]

theorem phaseSyn_withLogZero : phaseSyn (s.withLogZero z) = (phaseSyn s).withLogZero z := by
  unfold phaseSyn
  simp only [computeSyndromes_withLogZero, apply_ite (withLogZero z)]
  rfl

theorem phaseBma_withLogZero : phaseBma (s.withLogZero z) = (phaseBma s).withLogZero z := by
  have hnsym : (s.withLogZero z).nsym = s.nsym := rfl
  rw [phaseBma_eq, phaseBma_eq, hnsym, bmaRun_withLogZero]
  rfl

theorem phaseGate_withLogZero : phaseGate (s.withLogZero z) = (phaseGate s).withLogZero z := by
  unfold phaseGate
  simp only [apply_ite (withLogZero z)]
  rfl

theorem phaseChien_withLogZero : phaseChien (s.withLogZero z) = (phaseChien s).withLogZero z := by
  have hroots : chienRoots (s.withLogZero z).tables = chienRoots s.tables := by
    funext sigma deg n; exact chienRoots_withLogZero z s.tables sigma deg n
  unfold phaseChien
  simp only [hroots, apply_ite (withLogZero z)]
  rfl

theorem magnitudes_withLogZero (omega : Mem) : magnitudes (s.withLogZero z) omega = magnitudes s omega := by
  simp [magnitudes, withLogZero, codewordLen]

theorem phaseForney_withLogZero : phaseForney (s.withLogZero z) = (phaseForney s).withLogZero z := by
  have homega : forneyOmega (s.withLogZero z) = forneyOmega s := errorEvaluator_withLogZero z s.tables _ _ _ _
  unfold phaseForney
  -- the cleared store is kept opaque, so that comparing the two states does not evaluate it
  generalize Mem.tabulate (fun _ => 0) = zeros
  simp only [homega, magnitudes_withLogZero, apply_ite (withLogZero z)]
  rfl

theorem phaseCorr_withLogZero : phaseCorr (s.withLogZero z) = (phaseCorr s).withLogZero z := by
  unfold phaseCorr
  simp only [apply_ite (withLogZero z)]
  rfl

theorem phaseVerify_withLogZero : phaseVerify (s.withLogZero z) = (phaseVerify s).withLogZero z := by
  unfold phaseVerify
  simp only [computeSyndromes_withLogZero, apply_ite (withLogZero z)]
  rfl

theorem runPhase_withLogZero : runPhase (s.withLogZero z) = (runPhase s).withLogZero z := by
  have hphase : (s.withLogZero z).phase = s.phase := rfl
  unfold runPhase
  rw [hphase]
  cases s.phase with
  | idle => rfl
  | gen => exact phaseGen_withLogZero z s
  | div => exact phaseDiv_withLogZero z s
  | syn => exact phaseSyn_withLogZero z s
  | bma => exact phaseBma_withLogZero z s
  | gate => exact phaseGate_withLogZero z s
  | chien => exact phaseChien_withLogZero z s
  | forney => exact phaseForney_withLogZero z s
  | corr => exact phaseCorr_withLogZero z s
  | verify => exact phaseVerify_withLogZero z s

theorem runPhases_withLogZero (n : Nat) : runPhases n (s.withLogZero z) = (runPhases n s).withLogZero z := by
  induction n generalizing s with
  | zero => rfl
  | succ n ih =>
    have hphase : (s.withLogZero z).phase = s.phase := rfl
    unfold runPhases
    rw [hphase, runPhase_withLogZero, ih]
    split <;> rfl

theorem raiseFault_withLogZero (cause : FaultCause) (info : Word) :
    raiseFault cause info (s.withLogZero z) = (raiseFault cause info s).withLogZero z := by
  unfold raiseFault
  by_cases hf : s.status.fault = .none <;> simp [withLogZero, hf] <;> rfl

theorem rsStart_withLogZero (i : Instr) : rsStart i (s.withLogZero z) = (rsStart i s).withLogZero z := by
  cases i <;> rfl

theorem rsCommand_withLogZero (i : Instr) :
    rsCommand i (s.withLogZero z) (rsStart i (s.withLogZero z)) = (rsCommand i s (rsStart i s)).withLogZero z := by
  have hconfig : configIllegal (s.withLogZero z) ↔ configIllegal s := Iff.rfl
  by_cases hc : configIllegal s
  · rw [rsCommand_illegal _ _ _ hc, rsCommand_illegal _ _ _ (hconfig.mpr hc), raiseFault_withLogZero]
  · rw [rsCommand_legal _ _ _ hc, rsCommand_legal _ _ _ (mt hconfig.mp hc), rsStart_withLogZero,
      runPhases_withLogZero]

end State

/-- The command has a next state from `s`, and with `LOG[0]` replaced it has the same with `LOG[0]` replaced. -/
def IgnoresLogZero (i : Instr) : Prop :=
  ∀ (s : State) (z : Byte), ∃ t, exec i s = .next t ∧ exec i (s.withLogZero z) = .next (t.withLogZero z)

theorem ignoresLogZero_of_isReedSolomon {i : Instr} (hi : isReedSolomon i = true) : IgnoresLogZero i := fun s z =>
  ⟨_, exec_of_isReedSolomon s hi, by rw [exec_of_isReedSolomon _ hi, State.rsCommand_withLogZero]⟩

theorem ignoresLogZero_gfmul (a b : Byte) : IgnoresLogZero (.gfmul a b) := fun s z =>
  ⟨_, rfl, by simp [exec, execGfmul, State.withLogZero]⟩

theorem ignoresLogZero_gfpow (a : Byte) (e : BitVec 16) : IgnoresLogZero (.gfpow a e) := fun s z =>
  ⟨_, rfl, by simp [exec, execGfpow, State.withLogZero]⟩

theorem ignoresLogZero_gfdiv (a b : Byte) : IgnoresLogZero (.gfdiv a b) := fun s z => by
  have hq : gfDiv (s.withLogZero z).tables a b = gfDiv s.tables a b := gfDiv_withLogZero z s.tables a b
  simp only [exec, execGfdiv, hq, State.raiseFault_withLogZero]
  cases gfDiv s.tables a b with
  | some q => exact ⟨_, rfl, rfl⟩
  | none => exact ⟨_, rfl, rfl⟩

theorem ignoresLogZero_gfinv (a : Byte) : IgnoresLogZero (.gfinv a) := fun s z => by
  have hq : gfInv (s.withLogZero z).tables a = gfInv s.tables a := gfInv_withLogZero z s.tables a
  simp only [exec, execGfinv, hq, State.raiseFault_withLogZero]
  cases gfInv s.tables a with
  | some q => exact ⟨_, rfl, rfl⟩
  | none => exact ⟨_, rfl, rfl⟩

/-- Settles O24: the field functions test for zero before they look up a logarithm, and nothing else reads `LOG`. -/
theorem noResultDependsOnLogZero : Obligations.NoResultDependsOnLogZero := by
  intro i
  change IgnoresLogZero i
  cases i with
  | nop | clrf => exact fun _ _ => ⟨_, rfl, rfl⟩
  | gfmul a b => exact ignoresLogZero_gfmul a b
  | gfdiv a b => exact ignoresLogZero_gfdiv a b
  | gfpow a e => exact ignoresLogZero_gfpow a e
  | gfinv a => exact ignoresLogZero_gfinv a
  | rsenc | rsdec | synd | bma | chien | forney => exact ignoresLogZero_of_isReedSolomon rfl

/-! ### Which command writes what -/

/-- From `s` to `t` only what the spec's written-by columns name for the command `i` has changed (rule R41). -/
def WritesOnlyNamed (i : Instr) (s t : State) : Prop :=
  (t.tables = s.tables ∧ t.dlen = s.dlen ∧ t.nsym = s.nsym ∧ t.script = s.script ∧ t.returned = s.returned) ∧
  (isGf i = false → t.res = s.res) ∧
  (i ≠ .rsenc → t.g = s.g) ∧
  (i ≠ .rsenc → i ≠ .rsdec → i ≠ .forney → t.cw = s.cw) ∧
  (i ≠ .synd → i ≠ .rsdec → t.synd = s.synd ∧ t.status.szero = s.status.szero) ∧
  (i ≠ .bma → i ≠ .rsdec → t.sigma = s.sigma ∧ t.bpoly = s.bpoly ∧ t.len = s.len ∧ t.deg = s.deg ∧
    t.bdisc = s.bdisc ∧ t.mshift = s.mshift) ∧
  (i ≠ .chien → i ≠ .rsdec → t.epos = s.epos ∧ t.nroot = s.nroot) ∧
  (i ≠ .forney → i ≠ .rsdec → t.omega = s.omega ∧ t.emag = s.emag ∧ t.errcnt = s.errcnt ∧
    t.status.paychg = s.status.paychg) ∧
  (isReedSolomon i = false → t.status.result = s.status.result ∧ t.status.cause = s.status.cause)

/-- A fault writes nothing the columns speak of, whatever the command (rule R216). -/
theorem writesOnlyNamed_raiseFault (i : Instr) (cause : FaultCause) (info : Word) (s : State) :
    WritesOnlyNamed i s (raiseFault cause info s) := by
  obtain ⟨hresult, hcause, hszero, hpaychg⟩ := raiseFault_status_results cause info s
  simp [WritesOnlyNamed, hresult, hcause, hszero, hpaychg]

theorem writesOnlyNamed_of_isGf {i : Instr} (hi : isGf i = true) (s : State) (r : Byte) :
    WritesOnlyNamed i s { s with res := r } := by
  simp [WritesOnlyNamed, hi]

theorem exec_rsenc_writesOnlyNamed {s t : State} (hc : ¬ configIllegal s) (h : exec .rsenc s = .next t) :
    WritesOnlyNamed .rsenc s t := by
  rw [exec_rsenc_legal s hc] at h
  cases h
  simp [WritesOnlyNamed, phaseDiv_eq, phaseGen_eq, isReedSolomon]

theorem exec_synd_writesOnlyNamed {s t : State} (hc : ¬ configIllegal s) (h : exec .synd s = .next t) :
    WritesOnlyNamed .synd s t := by
  rw [exec_synd_legal s hc] at h
  cases h
  simp [WritesOnlyNamed, computeSyndromes_eq, isReedSolomon]

theorem exec_bma_writesOnlyNamed {s t : State} (hc : ¬ configIllegal s) (h : exec .bma s = .next t) :
    WritesOnlyNamed .bma s t := by
  rw [exec_bma_legal s hc] at h
  cases h
  obtain ⟨_, _, _, _, hgate⟩ := phaseGate_writes (phaseBma { s with chain := false, phase := .bma })
  rw [hgate, phaseBma_eq]
  simp [WritesOnlyNamed, isReedSolomon]

theorem exec_chien_writesOnlyNamed {s t : State} (hc : ¬ configIllegal s) (h : exec .chien s = .next t) :
    WritesOnlyNamed .chien s t := by
  rw [exec_chien_legal s hc] at h
  cases h
  obtain ⟨_, _, _, _, hchien⟩ := phaseChien_writes { s with chain := false, phase := .chien }
  rw [hchien]
  simp [WritesOnlyNamed, isReedSolomon]

theorem exec_forney_writesOnlyNamed {s t : State} (hc : ¬ configIllegal s) (h : exec .forney s = .next t) :
    WritesOnlyNamed .forney s t := by
  rw [exec_forney_legal s hc] at h
  cases h
  obtain ⟨_, _, _, _, _, hforney⟩ := phaseForney_writes { s with chain := false, phase := .forney }
  obtain ⟨_, _, _, _, hcorr⟩ := phaseCorr_writes (phaseForney { s with chain := false, phase := .forney })
  split
  · rw [hforney]
    simp [WritesOnlyNamed, isReedSolomon]
  · rw [hcorr, hforney]
    simp [WritesOnlyNamed, isReedSolomon, applyMagnitudes_eq]

/-- No phase of the decoder writes `G` or leads to the encoder's phase that does (rules R27, R177). -/
theorem runPhase_keeps_g {s : State} (h : s.phase ≠ .gen) : (runPhase s).phase ≠ .gen ∧ (runPhase s).g = s.g := by
  unfold runPhase
  cases hp : s.phase with
  | gen => exact absurd hp h
  | idle => simp [hp]
  | div => simp [phaseDiv_eq]
  | syn => obtain ⟨_, e⟩ | ⟨_, _, e⟩ := phaseSyn_cases s <;> simp [e, computeSyndromes_eq]
  | bma => simp [phaseBma_eq s]
  | gate => obtain ⟨_, e⟩ | ⟨_, _, e⟩ | ⟨_, _, e⟩ := phaseGate_cases s <;> simp [e]
  | chien => obtain ⟨_, e⟩ | ⟨_, _, e⟩ | ⟨_, _, e⟩ := phaseChien_cases s <;> simp [e]
  | forney => obtain ⟨_, e⟩ | ⟨_, e⟩ := phaseForney_cases s <;> simp [e]
  | corr => obtain ⟨_, e⟩ | ⟨_, e⟩ := phaseCorr_cases s <;> simp [e, applyMagnitudes_eq]
  | verify => obtain ⟨_, e⟩ | ⟨_, e⟩ := phaseVerify_cases s <;> simp [e, applyMagnitudes_eq, computeSyndromes_eq]

theorem runPhases_keeps_g (n : Nat) {s : State} (h : s.phase ≠ .gen) : (runPhases n s).g = s.g :=
  (runPhases_induction (fun t => t.phase ≠ .gen ∧ t.g = s.g)
    (fun _ ⟨hp, hg⟩ => (runPhase_keeps_g hp).imp_right (·.trans hg)) n s ⟨h, rfl⟩).2

/-- What no run of phases writes. -/
theorem runPhases_frame (n : Nat) (s : State) :
    (runPhases n s).tables = s.tables ∧ (runPhases n s).dlen = s.dlen ∧ (runPhases n s).nsym = s.nsym ∧
    (runPhases n s).res = s.res ∧ (runPhases n s).script = s.script ∧ (runPhases n s).returned = s.returned := by
  refine runPhases_induction (fun t => t.tables = s.tables ∧ t.dlen = s.dlen ∧ t.nsym = s.nsym ∧ t.res = s.res ∧
    t.script = s.script ∧ t.returned = s.returned) (fun t ⟨ht, hd, hn, hr, hs, hret⟩ => ?_) n s
    ⟨rfl, rfl, rfl, rfl, rfl, rfl⟩
  obtain ⟨htables, hdlen, hnsym, hres, _, _, hscript, hreturned⟩ := runPhase_frame t
  exact ⟨htables.trans ht, hdlen.trans hd, hnsym.trans hn, hres.trans hr, hscript.trans hs, hreturned.trans hret⟩

theorem exec_rsdec_writesOnlyNamed {s t : State} (hc : ¬ configIllegal s) (h : exec .rsdec s = .next t) :
    WritesOnlyNamed .rsdec s t := by
  rw [exec_of_isReedSolomon s rfl, rsCommand_legal _ _ _ hc] at h
  cases h
  obtain ⟨htables, hdlen, hnsym, hres, hscript, hreturned⟩ := runPhases_frame longestPath (rsStart .rsdec s)
  have hg : (runPhases longestPath (rsStart .rsdec s)).g = s.g :=
    runPhases_keeps_g longestPath (s := rsStart .rsdec s) (by simp [rsStart])
  exact ⟨⟨htables, hdlen, hnsym, hscript, hreturned⟩, fun _ => hres, fun _ => hg, by simp, by simp, by simp, by simp,
    by simp, by simp [isReedSolomon]⟩

theorem exec_writesOnlyNamed_of_legal {i : Instr} {s t : State} (hi : isReedSolomon i = true)
    (hc : ¬ configIllegal s) (h : exec i s = .next t) : WritesOnlyNamed i s t := by
  cases i with
  | rsenc => exact exec_rsenc_writesOnlyNamed hc h
  | rsdec => exact exec_rsdec_writesOnlyNamed hc h
  | synd => exact exec_synd_writesOnlyNamed hc h
  | bma => exact exec_bma_writesOnlyNamed hc h
  | chien => exact exec_chien_writesOnlyNamed hc h
  | forney => exact exec_forney_writesOnlyNamed hc h
  | nop | clrf | gfmul | gfdiv | gfpow | gfinv => cases hi

/-- Settles O49, command by command, from what each phase writes. -/
theorem onlyTheNamedCommandsWrite : Obligations.OnlyTheNamedCommandsWrite := by
  intro i s t h
  change WritesOnlyNamed i s t
  obtain ⟨rfl, rfl⟩ | ⟨rfl, rfl⟩ | ⟨hi, r, rfl⟩ | ⟨_, rfl⟩ | ⟨hi, rfl⟩ := exec_cases h
  · simp [WritesOnlyNamed]
  · simp [WritesOnlyNamed]
  · exact writesOnlyNamed_of_isGf hi s r
  · exact writesOnlyNamed_raiseFault i _ _ s
  · by_cases hc : configIllegal s
    · rw [rsCommand_illegal i s _ hc]
      exact writesOnlyNamed_raiseFault i _ _ s
    · exact exec_writesOnlyNamed_of_legal hi hc h

/-! ### The reset state -/

/-- `EXP[0..254]` as printed are the powers of the construction's first loop (rule R103). -/
theorem map_expAt_reset : (List.range 255).map (expAt Tables.reset) = builtPowers := by decide +kernel

/-- `EXP` as printed repeats after 255 entries, as the construction's second loop copies it (rule R103). -/
theorem expAt_reset_mod : ∀ i, i < 512 → expAt Tables.reset i = expAt Tables.reset (i % 255) := by decide +kernel

theorem expAt_reset (i : Nat) (hi : i < 512) : expAt Tables.reset i = builtExp i := by
  have hmod : i % 255 < 255 := Nat.mod_lt i (by decide)
  rw [expAt_reset_mod i hi, builtExp, ← map_expAt_reset]
  simp [hmod]

/-- `LOG` as printed numbers the powers in their order (rule R103). -/
theorem map_logAt_builtPowers : builtPowers.map (logAt Tables.reset) = List.range 255 := by decide +kernel

theorem zero_notMem_builtPowers : (0 : Byte) ∉ builtPowers := by decide +kernel

theorem length_builtPowers : builtPowers.length = 255 := by rw [← map_expAt_reset]; simp

/-- No power occurs twice, because `LOG` tells them apart. -/
theorem nodup_builtPowers : builtPowers.Nodup :=
  List.Nodup.of_map (logAt Tables.reset) (map_logAt_builtPowers ▸ List.nodup_range)

/-- The 255 powers are all the nonzero bytes, by counting (rule R103). -/
theorem mem_builtPowers {v : Byte} (hv : v ≠ 0) : v ∈ builtPowers := by
  have hsub : builtPowers.toFinset ⊆ Finset.univ.erase 0 := fun a ha =>
    Finset.mem_erase.mpr ⟨fun h0 => zero_notMem_builtPowers (h0 ▸ List.mem_toFinset.mp ha), Finset.mem_univ a⟩
  have hcard : (Finset.univ.erase (0 : Byte)).card ≤ builtPowers.toFinset.card := by
    rw [List.toFinset_card_of_nodup nodup_builtPowers, length_builtPowers, Finset.card_erase_of_mem (Finset.mem_univ 0),
      Finset.card_univ, ← FinEnum.card_eq_fintypeCard]
    rfl
  have hall := Finset.eq_of_subset_of_card_le hsub hcard
  exact List.mem_toFinset.mp (hall ▸ Finset.mem_erase.mpr ⟨hv, Finset.mem_univ v⟩)

theorem logAt_reset {v : Byte} (hv : v ≠ 0) : logAt Tables.reset v = (builtLog v).toNat := by
  have hidx : builtPowers.idxOf v < builtPowers.length := List.idxOf_lt_length_of_mem (mem_builtPowers hv)
  have hlog : logAt Tables.reset builtPowers[builtPowers.idxOf v] = builtPowers.idxOf v := by
    have hmap := List.getElem_map (logAt Tables.reset) (l := builtPowers) (i := builtPowers.idxOf v)
      (h := by rwa [List.length_map])
    rw [← hmap]
    simp [map_logAt_builtPowers]
  rw [List.getElem_idxOf] at hlog
  rw [length_builtPowers] at hidx
  rw [builtLog, BitVec.toNat_ofNat, Nat.mod_eq_of_lt (by omega), hlog]

/-- Settles O9: the two tables entry by entry, and every other value as it stands in `State.reset`. -/
theorem resetStateHoldsTheResetValues : Obligations.ResetStateHoldsTheResetValues :=
  have hread : ∀ a, Mem.read [] a = 0 := Mem.read_nil
  ⟨expAt_reset, fun _ hv => logAt_reset hv, rfl, rfl, rfl, hread, hread, hread, hread, hread, hread, hread, hread, rfl, rfl, rfl,
    rfl, rfl, rfl, rfl, rfl, rfl, rfl, rfl, rfl, rfl, rfl, rfl⟩

/-- Settles O58: a reset establishes each invariant from any state, so from the reset state too. -/
theorem resetMeetsTheInvariants : Obligations.ResetMeetsTheInvariants :=
  have hrest : atRest State.reset := ⟨rfl, rfl⟩
  have hstores : storesCanonical State.reset := ⟨rfl, rfl, rfl, rfl, rfl, rfl, rfl, rfl⟩
  ⟨stepInvariant_tablesIntact.reset State.reset, hrest, hstores, stepInvariant_statusLegal.reset State.reset,
    stepInvariant_locatorLegal.reset State.reset, stepInvariant_rootListLegal.reset State.reset,
    stepInvariant_correctionFlagsLegal.reset State.reset⟩

end Sys2Proof.Machine

/-! # Proofs of the family 20_memory: what the host reads, what it writes, and when it is held -/

namespace Sys2Proof.Machine

/-! ### Words of an access -/

/-- The refused-access word as the sum of its fields (rule R215). -/
theorem accessWord_eq_ofNat (w : Bool) (space : BitVec 4) (index : BitVec 16) :
    accessWord w space index = BitVec.ofNat 32 (2 ^ 31 * w.toNat + 2 ^ 16 * space.toNat + index.toNat) := by
  apply BitVec.eq_of_toNat_eq
  have hspace : w.toNat <<< 15 + space.toNat = w.toNat <<< 15 ||| space.toNat :=
    Nat.shiftLeft_add_eq_or_of_lt (space.isLt.trans (by decide)) _
  have hindex (k : Nat) : k <<< 16 + index.toNat = k <<< 16 ||| index.toNat := Nat.shiftLeft_add_eq_or_of_lt index.isLt k
  have hw : w.toNat ≤ 1 := w.toNat_le
  simp only [accessWord, BitVec.toNat_append, BitVec.toNat_ofBool, BitVec.toNat_ofNat]
  simp only [Nat.zero_mod, Nat.or_zero, ← Nat.shiftLeft_add, Nat.reduceAdd, ← hspace, ← hindex]
  simp only [Nat.shiftLeft_eq]
  omega

/-- Host data has no 1 in bits 31:8 exactly when its value is that of a byte (rule R64). -/
theorem extractLsb'_high_eq_zero_iff (data : Word) : data.extractLsb' 8 24 = 0 ↔ data.toNat < 256 := by
  rw [← BitVec.toNat_inj, BitVec.extractLsb'_toNat, Nat.shiftRight_eq_div_pow]
  have hdata := data.isLt
  change data.toNat / 2 ^ 8 % 2 ^ 24 = 0 ↔ data.toNat < 256
  omega

/-! ### Fault entry, as one equation per case -/

theorem raiseFault_of_none (cause : FaultCause) (info : Word) {s : State} (h : s.status.fault = .none) :
    raiseFault cause info s =
      { s with status := { s.status with fault := cause }, finfo := info, phase := .idle, chain := false } := by
  obtain ⟨_, e⟩ | ⟨hpending, _⟩ := raiseFault_cases cause info s
  · exact e
  · exact absurd h hpending

theorem raiseFault_of_pending (cause : FaultCause) (info : Word) {s : State} (h : s.status.fault ≠ .none) :
    raiseFault cause info s = { s with phase := .idle, chain := false } := by
  obtain ⟨hnone, _⟩ | ⟨_, e⟩ := raiseFault_cases cause info s
  · exact absurd hnone h
  · exact e

/-! ### What is readable -/

theorem storeRead_of_lt (m : Mem) {n : Nat} (hn : n < 256) : storeRead m n = some ((Mem.read m n).setWidth 32) :=
  if_pos hn

theorem storeRead_eq_none_iff (m : Mem) (n : Nat) : storeRead m n = none ↔ 256 ≤ n := by
  rw [storeRead, ite_eq_right_iff]
  simp [Config.storeSize]

theorem ctrlRead_eq_none_iff (s : State) (n : Nat) : ctrlRead s n = none ↔ 12 ≤ n := by
  unfold ctrlRead
  split
  iterate 12
    · simp
  · grind

/-- `PHASE` reads as 0 on an idle block (rules R37, R69). -/
theorem ctrlRead_phase_of_idle {s : State} (h : s.phase = .idle) : ctrlRead s 0x0B = some 0 :=
  congrArg (fun p => some (BitVec.ofNat 32 (phaseCode p))) h

theorem entryRead_exp (s : State) {index : BitVec 16} (hn : index.toNat < 512) :
    entryRead s 9 index = some ((expAt s.tables index.toNat).setWidth 32) :=
  if_pos hn

theorem entryRead_log (s : State) {index : BitVec 16} (h1 : 1 ≤ index.toNat) (hn : index.toNat < 256) :
    entryRead s 10 index = some (BitVec.ofNat 32 (logAt s.tables (BitVec.ofNat 8 index.toNat))) := by
  rw [logAt, BitVec.toNat_ofNat, Nat.mod_eq_of_lt hn, BitVec.ofNat_toNat]
  exact if_pos ⟨h1, hn⟩

/-- `refused` of `Obligations.HostReadReturnsTheEntry`, the pairs of a space and an index that a read refuses: the spaces
that do not exist, the indices beyond each space, and `LOG[0]` (rules R60, R65, R69). -/
def ReadRefused (space n : Nat) : Prop :=
  11 ≤ space ∨ (space = 0 ∧ 12 ≤ n) ∨ (1 ≤ space ∧ space ≤ 8 ∧ 256 ≤ n) ∨ (space = 9 ∧ 512 ≤ n) ∨
    (space = 10 ∧ (n = 0 ∨ 256 ≤ n))

/-- A pair that is not readable is refused, and no other: each space refuses just the indices beyond it. -/
theorem entryRead_eq_none_iff (s : State) (space : BitVec 4) (index : BitVec 16) :
    entryRead s space index = none ↔ ReadRefused space.toNat index.toNat := by
  unfold entryRead ReadRefused
  split
  · rw [ctrlRead_eq_none_iff]; omega
  iterate 8
    · rw [storeRead_eq_none_iff]; omega
  · rw [ite_eq_right_iff]; simp only [Config.expSize, reduceCtorEq, imp_false]; omega
  · rw [ite_eq_right_iff]; simp only [Config.logSize, reduceCtorEq, imp_false]; omega
  · grind

/-! ### A read, as a step -/

section Read

variable {s : State} {space : BitVec 4} {index : BitVec 16} {rest : List HostOp}

/-- A read changes nothing of the block (rule R63). -/
theorem step_read_of_some (hidle : s.phase = .idle) (hscript : s.script = .read space index :: rest)
    {v : Word} (hv : entryRead s space index = some v) :
    step s = .next { s with script := rest, returned := s.returned ++ [v] } := by
  have hv' : entryRead { s with script := rest } space index = some v := hv
  rw [step_op s _ rest hscript (.inl hidle), hostOp, hostRead, hv']

theorem step_read_of_none (hidle : s.phase = .idle) (hscript : s.script = .read space index :: rest)
    (hv : entryRead s space index = none) :
    step s = .next (raiseFault .badAccess (accessWord false space index)
      { s with script := rest, returned := s.returned ++ [0] }) := by
  have hv' : entryRead { s with script := rest } space index = none := hv
  rw [step_op s _ rest hscript (.inl hidle), hostOp, hostRead, hv']

end Read

/-- Settles O6: one equation per readable space, and `entryRead_eq_none_iff` for the rest. -/
theorem hostReadReturnsTheEntry : Obligations.HostReadReturnsTheEntry := by
  intro s space index rest hidle hscript n refused returns
  have hread : ∀ {v : Word}, entryRead s space index = some v → returns v := step_read_of_some hidle hscript
  have hstore : ∀ {m : Mem} (k : BitVec 4), entryRead s k index = storeRead m n →
      space = k → n < 256 → returns ((Mem.read m n).setWidth 32) :=
    fun k hm hspace hn => hread (hspace ▸ hm.trans (storeRead_of_lt _ hn))
  have hctrl : ∀ {v : Word} (k : Nat), ctrlRead s k = some v → space = 0 → n = k → returns v :=
    fun k hv hspace hn => hread (hspace ▸ (congrArg (ctrlRead s) hn).trans hv)
  have hrefused : refused → step s = .next (raiseFault .badAccess (accessWord false space index)
      { s with script := rest, returned := s.returned ++ [0] }) :=
    fun h => step_read_of_none hidle hscript ((entryRead_eq_none_iff s space index).mpr h)
  refine ⟨hstore 1 rfl, hstore 2 rfl, hstore 3 rfl, hstore 4 rfl, hstore 5 rfl, hstore 6 rfl, hstore 7 rfl, hstore 8 rfl,
    fun hspace hn => hread (hspace ▸ entryRead_exp s hn), fun hspace h1 hn => hread (hspace ▸ entryRead_log s h1 hn),
    hctrl 0x00 rfl, hctrl 0x01 rfl, hctrl 0x02 rfl, hctrl 0x03 rfl, hctrl 0x04 rfl, hctrl 0x05 rfl,
    hctrl 0x06 rfl, hctrl 0x07 rfl, hctrl 0x08 rfl, hctrl 0x09 rfl, hctrl 0x0A rfl,
    hctrl 0x0B (ctrlRead_phase_of_idle hidle), fun h hnone => ?_, fun h hpending => ?_⟩
  · have hinfo : accessWord false space index = BitVec.ofNat 32 (2 ^ 16 * space.toNat + n) := by
      simp [accessWord_eq_ofNat, n]
    rw [hrefused h, raiseFault_of_none _ _ (by exact hnone), hinfo]
  · rw [hrefused h, raiseFault_of_pending _ _ (by exact hpending)]

/-! ### What is writable -/

section Write

variable {s : State} {space : BitVec 4} {index : BitVec 16} {data : Word} {rest : List HostOp}

theorem entryWrite_cw (hdata : data.toNat < 256) (hn : index.toNat < 256) :
    entryWrite s 1 index data = some (memWrite s index.toNat (BitVec.ofNat 8 data.toNat)) := by
  simp [entryWrite, (extractLsb'_high_eq_zero_iff data).mpr hdata, Config.storeSize, hn]

theorem entryWrite_dlen (hdata : data.toNat < 256) (hn : index.toNat = 0) :
    entryWrite s 0 index data = some { s with dlen := BitVec.ofNat 8 data.toNat } := by
  simp [entryWrite, (extractLsb'_high_eq_zero_iff data).mpr hdata, hn]

theorem entryWrite_nsym (hdata : data.toNat < 256) (hn : index.toNat = 1) :
    entryWrite s 0 index data = some { s with nsym := BitVec.ofNat 8 data.toNat } := by
  simp [entryWrite, (extractLsb'_high_eq_zero_iff data).mpr hdata, hn]

/-- Data wider than a byte is refused, whatever is addressed (rule R64). -/
theorem entryWrite_of_wide (hdata : ¬ data.toNat < 256) : entryWrite s space index data = none :=
  if_pos ((extractLsb'_high_eq_zero_iff data).not.mpr hdata)

/-- Only a byte, and only to `CW`, `DLEN` or `NSYM`, is accepted (rules R64, R65). -/
theorem entryWrite_eq_none
    (h : ¬ (data.toNat < 256 ∧ ((space = 1 ∧ index.toNat < 256) ∨ (space = 0 ∧ index.toNat < 2)))) :
    entryWrite s space index data = none := by
  by_cases hdata : data.toNat < 256
  · cases ht : entryWrite s space index data with
    | none => rfl
    | some t =>
      refine absurd ⟨hdata, ?_⟩ h
      obtain ⟨hspace, hn, _⟩ | ⟨hspace, hn, _⟩ | ⟨hspace, hn, _⟩ := entryWrite_cases s t space index data ht
      · exact .inr ⟨BitVec.eq_of_toNat_eq hspace, by omega⟩
      · exact .inr ⟨BitVec.eq_of_toNat_eq hspace, by omega⟩
      · exact .inl ⟨BitVec.eq_of_toNat_eq hspace, hn⟩
  · exact entryWrite_of_wide hdata

/-! ### A write, as a step -/

theorem step_write_of_some (hidle : s.phase = .idle) (hscript : s.script = .write space index data :: rest) {t : State}
    (ht : entryWrite { s with script := rest } space index data = some t) : step s = .next t := by
  rw [step_op s _ rest hscript (.inl hidle), hostOp, hostWrite, ht]

theorem step_write_of_none (hidle : s.phase = .idle) (hscript : s.script = .write space index data :: rest)
    (ht : entryWrite { s with script := rest } space index data = none) :
    step s = .next (raiseFault .badAccess (accessWord true space index) { s with script := rest }) := by
  rw [step_op s _ rest hscript (.inl hidle), hostOp, hostWrite, ht]

end Write

/-- Settles O7: one equation per writable target, and `entryWrite_eq_none` for the rest. -/
theorem hostWriteWritesOneEntry : Obligations.HostWriteWritesOneEntry := by
  intro s space index data rest hidle hscript n accepted
  have hrefused : ¬ accepted → step s = .next (raiseFault .badAccess (accessWord true space index)
      { s with script := rest }) :=
    fun h => step_write_of_none hidle hscript (entryWrite_eq_none h)
  refine ⟨fun hdata hspace hn => ?_, fun hdata hspace hn => ?_, fun hdata hspace hn => ?_, fun h hnone => ?_,
    fun h hpending => ?_⟩
  · subst hspace
    exact ⟨_, step_write_of_some hidle hscript (entryWrite_cw hdata hn), rfl, Mem.read_write_same s.cw n _,
      fun a ha => Mem.read_write_other s.cw _ ha⟩
  · subst hspace
    exact step_write_of_some hidle hscript (entryWrite_dlen hdata hn)
  · subst hspace
    exact step_write_of_some hidle hscript (entryWrite_nsym hdata hn)
  · have hinfo : accessWord true space index = BitVec.ofNat 32 (2 ^ 31 + 2 ^ 16 * space.toNat + n) := by
      simp [accessWord_eq_ofNat, n]
    rw [hrefused h, raiseFault_of_none _ _ (by exact hnone), hinfo]
  · rw [hrefused h, raiseFault_of_pending _ _ (by exact hpending)]

/-! ### The host is held -/

/-- While a command is under way on a legal configuration, an operation other than reset is not issued: the phase runs
(rule R61). -/
theorem step_held {s : State} {op : HostOp} {rest : List HostOp} (hbusy : s.phase ≠ .idle)
    (hscript : s.script = op :: rest) (hop : op ≠ .reset) (hlegal : ¬ configIllegal s) :
    step s = .next (runPhase s) := by
  obtain ⟨_, hidle, _⟩ | ⟨_, hillegal, _⟩ | ⟨_, _, e⟩ | ⟨op', rest', hscript', henabled, _⟩ := step_cases s
  · exact absurd hidle hbusy
  · exact absurd hillegal hlegal
  · exact e
  · obtain ⟨rfl, rfl⟩ : op = op' ∧ rest = rest' := by simpa [hscript] using hscript'
    exact absurd henabled (not_or.mpr ⟨hbusy, hop⟩)

/-- Settles O11: the step is one phase, and `runPhase_frame` says what no phase writes. -/
theorem hostIsHeldDuringACommand : Obligations.HostIsHeldDuringACommand := by
  intro s op rest hbusy hscript hop hlegal
  have hstep : step s = .next (runPhase s) := step_held hbusy hscript hop (Nat.not_lt.mpr hlegal)
  obtain ⟨_, hdlen, hnsym, _, hfault, hfinfo, hpending, hreturned⟩ := runPhase_frame s
  exact ⟨hstep, runPhase s, hstep, hpending, hreturned, hdlen, hnsym, hfault, hfinfo⟩

end Sys2Proof.Machine

/-! # Proofs of the family 30_encoding: the decoder, the encoder and the opcode map -/

namespace Sys2Proof

/-! ### The fields of an assembled word -/

/-- Bits 7:0 are the opcode in every format (rule R80). -/
@[simp] theorem opcodeOf_append (hi : BitVec 24) (op : Byte) : opcodeOf (hi ++ op : Word) = op :=
  BitVec.extractLsb'_append_eq_right

@[simp] theorem opcodeOf_wordZ (op : Byte) : opcodeOf (wordZ op) = op := opcodeOf_append ..
@[simp] theorem opcodeOf_wordA (op a : Byte) : opcodeOf (wordA op a) = op := opcodeOf_append ..
@[simp] theorem opcodeOf_wordAB (op a b : Byte) : opcodeOf (wordAB op a b) = op := opcodeOf_append ..
@[simp] theorem opcodeOf_wordAE (op a : Byte) (e : BitVec 16) : opcodeOf (wordAE op a e) = op := opcodeOf_append ..

/-- Bits 15:8 are the operand `a` in every format that has it (rule R82). -/
@[simp] theorem fieldA_append (hi : BitVec 16) (a op : Byte) : fieldA (hi ++ a ++ op : Word) = a :=
  (BitVec.extractLsb'_append_eq_of_le (by decide)).trans BitVec.extractLsb'_append_eq_right

/-- Bits 31:16 lie above the operand `a` (rule R82). -/
@[simp] theorem fieldE_append (hi : BitVec 16) (a op : Byte) : fieldE (hi ++ a ++ op : Word) = hi := by
  rw [fieldE, BitVec.append_assoc]
  exact BitVec.extractLsb'_append_eq_left

/-- Bits 23:16 are the operand `b` in the format that has it (rule R82). -/
@[simp] theorem fieldB_append (hi b a op : Byte) : fieldB (hi ++ b ++ a ++ op : Word) = b := by
  rw [fieldB, BitVec.append_assoc]
  exact (BitVec.extractLsb'_append_eq_of_le (by decide)).trans BitVec.extractLsb'_append_eq_right

/-! ### A format's decoder inverts the format's word -/

theorem decodeZ_wordZ (op : Byte) (i : Instr) : decodeZ (wordZ op) i = .ok i :=
  if_pos BitVec.extractLsb'_append_eq_left

theorem decodeA_wordA (op a : Byte) (i : Byte → Instr) : decodeA (wordA op a) i = .ok (i a) := by
  have hzero : (wordA op a).extractLsb' 16 16 = 0 := fieldE_append 0#16 a op
  rw [decodeA, if_pos hzero, wordA, fieldA_append]

theorem decodeAB_wordAB (op a b : Byte) (i : Byte → Byte → Instr) : decodeAB (wordAB op a b) i = .ok (i a b) := by
  have hzero : (wordAB op a b).extractLsb' 24 8 = 0 := by
    rw [wordAB, BitVec.append_assoc, BitVec.append_assoc]
    exact BitVec.extractLsb'_append_eq_left
  rw [decodeAB, if_pos hzero, wordAB, fieldA_append, fieldB_append]

theorem decodeAE_wordAE (op a : Byte) (e : BitVec 16) (i : Byte → BitVec 16 → Instr) :
    decodeAE (wordAE op a e) i = .ok (i a e) := by
  rw [decodeAE, wordAE, fieldA_append, fieldE_append]

/-- Decoding inverts encoding: the opcode selects the format the word was assembled in. -/
theorem decode_encode (i : Instr) : decode (encode i) = .ok i := by
  cases i with
  | nop | rsenc | rsdec | synd | bma | chien | forney | clrf =>
    rw [decode, encode, opcodeOf_wordZ]
    exact decodeZ_wordZ _ _
  | gfmul a b | gfdiv a b =>
    rw [decode, encode, opcodeOf_wordAB]
    exact decodeAB_wordAB _ a b _
  | gfpow a e =>
    rw [decode, encode, opcodeOf_wordAE]
    exact decodeAE_wordAE _ a e _
  | gfinv a =>
    rw [decode, encode, opcodeOf_wordA]
    exact decodeA_wordA _ a _

/-- Settles O1. -/
theorem decodeInvertsEncode : Obligations.DecodeInvertsEncode := decode_encode

/-! ### A word is the assembly of its fields -/

theorem eq_wordAE (w : Word) : w = wordAE (opcodeOf w) (fieldA w) (fieldE w) := by
  have he : fieldE w ++ fieldA w = w.extractLsb' 8 24 := BitVec.extractLsb'_append_extractLsb'_eq_extractLsb' rfl
  have hw : w.extractLsb' 8 24 ++ opcodeOf w = w := BitVec.extractLsb'_append_extractLsb'
  rw [wordAE, he, hw]

theorem eq_wordZ_of_zero {w : Word} (h : w.extractLsb' 8 24 = 0) : w = wordZ (opcodeOf w) := by
  have hw : w.extractLsb' 8 24 ++ opcodeOf w = w := BitVec.extractLsb'_append_extractLsb'
  rw [h] at hw
  exact hw.symm

theorem eq_wordA_of_zero {w : Word} (h : w.extractLsb' 16 16 = 0) : w = wordA (opcodeOf w) (fieldA w) := by
  have hw : w = fieldE w ++ fieldA w ++ opcodeOf w := eq_wordAE w
  rwa [fieldE, h] at hw

theorem eq_wordAB_of_zero {w : Word} (h : w.extractLsb' 24 8 = 0) :
    w = wordAB (opcodeOf w) (fieldA w) (fieldB w) := by
  have he : w.extractLsb' 24 8 ++ fieldB w = fieldE w := BitVec.extractLsb'_append_extractLsb'_eq_extractLsb' rfl
  have hw : w = fieldE w ++ fieldA w ++ opcodeOf w := eq_wordAE w
  rwa [← he, h] at hw

/-! ### The rows of the opcode map -/

/-- The opcode of some row of the opcode map (rules R85, R86). -/
def KnownOpcode (op : Byte) : Prop := ∃ r ∈ opTable, op = opcodeOf r.pattern

/-- The twelve opcodes of rule R86. -/
theorem knownOpcode_iff (op : Byte) :
    KnownOpcode op ↔
      op.toNat ∈ [0x00, 0x01, 0x02, 0x03, 0x04, 0x10, 0x11, 0x12, 0x13, 0x14, 0x15, 0x1F] := by
  have hcodes : opTable.map (fun r => (opcodeOf r.pattern).toNat) =
      [0x00, 0x01, 0x02, 0x03, 0x04, 0x10, 0x11, 0x12, 0x13, 0x14, 0x15, 0x1F] := rfl
  rw [← hcodes, List.mem_map]
  simp only [KnownOpcode, BitVec.toNat_inj, eq_comm]

/-- Where a mask is all ones, a word that matches agrees with the pattern. -/
theorem extractLsb'_of_and_eq {w m p : Word} (start len : Nat) (h : w &&& m = p)
    (hm : m.extractLsb' start len = BitVec.allOnes len) : w.extractLsb' start len = p.extractLsb' start len := by
  rw [← h, BitVec.extractLsb'_and, hm, BitVec.and_allOnes]

/-- The mask of every row covers the opcode (rule R86). -/
theorem opcodeOf_of_matches {w : Word} {r : OpRow} (hr : r ∈ opTable) (h : r.matches w = true) :
    opcodeOf w = opcodeOf r.pattern := by
  have hmask : ∀ r ∈ opTable, r.mask.extractLsb' 0 8 = BitVec.allOnes 8 := by decide
  exact extractLsb'_of_and_eq 0 8 (beq_iff_eq.mp h) (hmask r hr)

/-- No two rows have the same opcode. -/
theorem eq_of_opcodeOf_pattern {r q : OpRow} (hr : r ∈ opTable) (hq : q ∈ opTable)
    (h : opcodeOf r.pattern = opcodeOf q.pattern) : r = q := by
  have hinj : ∀ r ∈ opTable, ∀ q ∈ opTable, opcodeOf r.pattern = opcodeOf q.pattern → r = q := by decide
  exact hinj r hr q hq h

/-- Settles O3: rows that match one word have its opcode. -/
theorem opcodeRowsAreDisjoint : Obligations.OpcodeRowsAreDisjoint := by
  intro w r q hr hq hrw hqw
  exact eq_of_opcodeOf_pattern hr hq ((opcodeOf_of_matches hr hrw).symm.trans (opcodeOf_of_matches hq hqw))

theorem knownOpcode_of_legalWord {w : Word} (h : legalWord w = true) : KnownOpcode (opcodeOf w) := by
  obtain ⟨r, hr, hmatch⟩ := List.any_eq_true.mp h
  exact ⟨r, hr, opcodeOf_of_matches hr hmatch⟩

/-- The row has `len` reserved bits from bit `start` up: its mask covers them and its pattern holds them at 0 (rule R84). -/
def OpRow.reserves (r : OpRow) (start len : Nat) : Bool :=
  r.mask.extractLsb' start len == BitVec.allOnes len && r.pattern.extractLsb' start len == 0

theorem extractLsb'_of_reserves {w : Word} {r : OpRow} {start len : Nat} (hr : r.reserves start len = true)
    (h : r.matches w = true) : w.extractLsb' start len = 0 := by
  obtain ⟨hmask, hpattern⟩ : r.mask.extractLsb' start len = BitVec.allOnes len ∧ r.pattern.extractLsb' start len = 0 := by
    simpa [OpRow.reserves] using hr
  exact (extractLsb'_of_and_eq start len (beq_iff_eq.mp h) hmask).trans hpattern

/-- Every command has a legal word (rules R83, R86). -/
theorem legalWord_encode (i : Instr) : legalWord (encode i) = true := by
  open Laws.LegalEncoding in
  cases i with
  | nop => exact nop
  | gfmul a b => exact gfmul a b
  | gfdiv a b => exact gfdiv a b
  | gfpow a e => exact gfpow a e
  | gfinv a => exact gfinv a
  | rsenc => exact rsenc
  | rsdec => exact rsdec
  | synd => exact synd
  | bma => exact bma
  | chien => exact chien
  | forney => exact forney
  | clrf => exact clrf

/-! ### What the decoder answers -/

/-- The three answers to a word, with what each says of it (rule R83): it is the word of the command; its opcode is in no
row; its opcode is in a row, but the word matches none. -/
inductive Verdict (w : Word) : Except Reject Instr → Prop
  | command {i : Instr} (h : encode i = w) : Verdict w (.ok i)
  | unknownOpcode (h : ¬ KnownOpcode (opcodeOf w)) : Verdict w (.error .unknownOpcode)
  | reservedBits (hknown : KnownOpcode (opcodeOf w)) (h : legalWord w = false) : Verdict w (.error .reservedBits)

section Formats

variable {w : Word} {op : Byte}

/-- The test of a format's reserved field, for an opcode whose row reserves that field: a 1 there makes the word illegal,
and `h` says what a word without one is (rule R84). -/
theorem reservedField_verdict {start len : Nat} {i : Instr} (hop : opcodeOf w = op)
    (hrow : ∃ r ∈ opTable, op = opcodeOf r.pattern ∧ r.reserves start len)
    (h : w.extractLsb' start len = 0 → encode i = w) :
    Verdict w (if w.extractLsb' start len = 0 then .ok i else .error .reservedBits) := by
  obtain ⟨r, hr, hpattern, hreserves⟩ := hrow
  split
  · next hzero => exact .command (h hzero)
  · next hzero =>
    refine .reservedBits ⟨r, hr, hop.trans hpattern⟩ (Bool.eq_false_iff.mpr fun hlegal => hzero ?_)
    obtain ⟨q, hq, hmatch⟩ := List.any_eq_true.mp hlegal
    obtain rfl : q = r :=
      eq_of_opcodeOf_pattern hq hr ((opcodeOf_of_matches hq hmatch).symm.trans (hop.trans hpattern))
    exact extractLsb'_of_reserves hreserves hmatch

theorem decodeZ_verdict {i : Instr} (hop : opcodeOf w = op)
    (hrow : ∃ r ∈ opTable, op = opcodeOf r.pattern ∧ r.reserves 8 24) (hi : encode i = wordZ op) :
    Verdict w (decodeZ w i) :=
  reservedField_verdict hop hrow fun hzero => hi.trans (hop ▸ (eq_wordZ_of_zero hzero).symm)

theorem decodeA_verdict {i : Byte → Instr} (hop : opcodeOf w = op)
    (hrow : ∃ r ∈ opTable, op = opcodeOf r.pattern ∧ r.reserves 16 16) (hi : ∀ a, encode (i a) = wordA op a) :
    Verdict w (decodeA w i) :=
  reservedField_verdict hop hrow fun hzero => (hi _).trans (hop ▸ (eq_wordA_of_zero hzero).symm)

theorem decodeAB_verdict {i : Byte → Byte → Instr} (hop : opcodeOf w = op)
    (hrow : ∃ r ∈ opTable, op = opcodeOf r.pattern ∧ r.reserves 24 8)
    (hi : ∀ a b, encode (i a b) = wordAB op a b) : Verdict w (decodeAB w i) :=
  reservedField_verdict hop hrow fun hzero => (hi _ _).trans (hop ▸ (eq_wordAB_of_zero hzero).symm)

theorem decodeAE_verdict {i : Byte → BitVec 16 → Instr} (hop : opcodeOf w = op)
    (hi : ∀ a e, encode (i a e) = wordAE op a e) : Verdict w (decodeAE w i) :=
  .command ((hi _ _).trans (hop ▸ (eq_wordAE w).symm))

end Formats

/-- Decoding is total and drops no bit, and looks at the opcode before the reserved bits (rule R83). -/
theorem decode_verdict (w : Word) : Verdict w (decode w) := by
  have hop {n : Nat} (h : (opcodeOf w).toNat = n) : opcodeOf w = BitVec.ofNat 8 n := by
    rw [← h, BitVec.ofNat_toNat, BitVec.setWidth_eq]
  unfold decode
  split
  case h_2 h | h_3 h => exact decodeAB_verdict (hop h) (by decide) fun _ _ => rfl
  case h_4 h => exact decodeAE_verdict (hop h) fun _ _ => rfl
  case h_5 h => exact decodeA_verdict (hop h) (by decide) fun _ => rfl
  case h_13 =>
    -- the split leaves `(opcodeOf w).toNat ≠ n` for each of the twelve opcodes `n`
    refine .unknownOpcode ((knownOpcode_iff _).not.mpr ?_)
    simp_all
  all_goals next h => exact decodeZ_verdict (hop h) (by decide) rfl

/-- Settles O2: the verdict on the word, and that the word of a command is legal. -/
theorem decodingFollowsTheOpcodeMap : Obligations.DecodingFollowsTheOpcodeMap := by
  intro w
  have hunknown (h : ∀ r ∈ opTable, opcodeOf w ≠ opcodeOf r.pattern) : ¬ KnownOpcode (opcodeOf w) :=
    fun ⟨r, hr, hop⟩ => h r hr hop
  have hverdict := decode_verdict w
  generalize decode w = answer at hverdict ⊢
  cases hverdict with
  | @command i h =>
    have hlegal : legalWord w = true := h ▸ legalWord_encode i
    refine ⟨iff_of_true hlegal ⟨i, rfl⟩, ?_, fun hop => absurd (knownOpcode_of_legalWord hlegal) (hunknown hop),
      fun _ hillegal => absurd hlegal (Bool.eq_false_iff.mp hillegal)⟩
    rintro _ ⟨⟩
    exact h
  | unknownOpcode h =>
    exact ⟨iff_of_false (fun hlegal => h (knownOpcode_of_legalWord hlegal)) nofun, nofun, fun _ => rfl,
      fun hknown => absurd hknown h⟩
  | reservedBits hknown h =>
    exact ⟨iff_of_false (Bool.eq_false_iff.mp h) nofun, nofun, fun hop => absurd hknown (hunknown hop), fun _ _ => rfl⟩

end Sys2Proof

/-! # Proofs of the family 40_gf_engine: the field functions and the four commands that write `RES` -/

namespace Sys2Proof.Machine

/-! ### The bit-level product is linear in each operand

Both loops of rule R102 add a fixed polynomial where a bit is 1, and that bit is linear in the operand. -/

/-- Adding `x` where a bit is 1 is linear in the bit and the accumulator. -/
theorem ite_xor_linear {w : Nat} (p q : Bool) (t u x : BitVec w) :
    (if (p ^^ q) = true then (t ^^^ u) ^^^ x else t ^^^ u) =
      (if p = true then t ^^^ x else t) ^^^ (if q = true then u ^^^ x else u) := by
  have hleft : t ^^^ u ^^^ x = (t ^^^ x) ^^^ u := by ac_rfl
  have hright : t ^^^ u ^^^ x = t ^^^ (u ^^^ x) := by ac_rfl
  have hboth : (t ^^^ x) ^^^ (u ^^^ x) = t ^^^ u := by
    rw [← BitVec.xor_assoc, ← hleft, BitVec.xor_assoc, BitVec.xor_self, BitVec.xor_zero]
  cases p <;> cases q
  · rfl
  · exact hright
  · exact hleft
  · exact hboth.symm

/-- A loop whose passes respect a sum respects it as a whole. -/
theorem loop_xor {w : Nat} (n : Nat) {f g h : Nat → BitVec w → BitVec w} (t u : BitVec w)
    (hs : ∀ i x y, h i (x ^^^ y) = f i x ^^^ g i y) : loop n h (t ^^^ u) = loop n f t ^^^ loop n g u := by
  induction n with
  | zero => rfl
  | succ n ih => rw [loop_succ, loop_succ, loop_succ, ih, hs]

theorem carrylessMul_xor_left (a b c : Byte) : carrylessMul (a ^^^ b) c = carrylessMul a c ^^^ carrylessMul b c := by
  refine loop_xor 8 0 0 fun i x y => ?_
  rw [BitVec.setWidth_xor, BitVec.shiftLeft_xor_distrib]
  split
  · ac_rfl
  · rfl

theorem carrylessMul_xor_right (a b c : Byte) : carrylessMul a (b ^^^ c) = carrylessMul a b ^^^ carrylessMul a c := by
  refine loop_xor 8 0 0 fun i x y => ?_
  rw [BitVec.getLsbD_xor]
  exact ite_xor_linear _ _ x y _

theorem reducePoly_xor (t u : BitVec 15) : reducePoly (t ^^^ u) = reducePoly t ^^^ reducePoly u := by
  refine loop_xor 7 t u fun k x y => ?_
  rw [BitVec.getLsbD_xor]
  exact ite_xor_linear _ _ x y _

theorem bitMul_xor_left (a b c : Byte) : bitMul (a ^^^ b) c = bitMul a c ^^^ bitMul b c := by
  rw [bitMul, carrylessMul_xor_left, reducePoly_xor, BitVec.setWidth_xor]; rfl

theorem bitMul_xor_right (a b c : Byte) : bitMul a (b ^^^ c) = bitMul a b ^^^ bitMul a c := by
  rw [bitMul, carrylessMul_xor_right, reducePoly_xor, BitVec.setWidth_xor]; rfl

@[simp] theorem bitMul_zero_left (b : Byte) : bitMul 0 b = 0 := by
  have h := bitMul_xor_left 0 0 b
  rwa [BitVec.xor_self, BitVec.xor_self] at h

@[simp] theorem bitMul_zero_right (a : Byte) : bitMul a 0 = 0 := by
  have h := bitMul_xor_right a 0 0
  rwa [BitVec.xor_self, BitVec.xor_self] at h

/-! ### What holds of the monomials holds of every byte, if it is linear -/

/-- A byte is the sum of the monomials of its 1 bits (rule R100). -/
theorem xorSum_twoPow_eq_self : ∀ v : Byte, xorSum 8 (fun i => if v.getLsbD i then BitVec.twoPow 8 i else 0) = v := by
  decide +kernel

/-- A property that 0 and the eight monomials have and sums keep holds of every byte. -/
theorem byte_induction {P : Byte → Prop} (hzero : P 0) (hmono : ∀ i, i < 8 → P (BitVec.twoPow 8 i))
    (hxor : ∀ x y, P x → P y → P (x ^^^ y)) (v : Byte) : P v := by
  have hsum : ∀ n, n ≤ 8 → P (xorSum n fun i => if v.getLsbD i then BitVec.twoPow 8 i else 0) := by
    intro n
    induction n with
    | zero => exact fun _ => hzero
    | succ n ih =>
      intro hn
      refine hxor _ _ (ih (by omega)) ?_
      dsimp only
      split
      · exact hmono n hn
      · exact hzero
  exact xorSum_twoPow_eq_self v ▸ hsum 8 (le_refl 8)

theorem bitMul_one_right (a : Byte) : bitMul a 1 = a := by
  induction a using byte_induction with
  | hzero => rfl
  | hmono i hi => revert i; decide
  | hxor x y hx hy => rw [bitMul_xor_left, hx, hy]

/-- Doubling the product doubles the second operand: by linearity a fact about pairs of monomials. -/
theorem bitMul_double_right (a b : Byte) : bitMul a (bitMul b 2) = bitMul (bitMul a b) 2 := by
  induction a using byte_induction with
  | hzero => rw [bitMul_zero_left, bitMul_zero_left, bitMul_zero_left]
  | hxor x y hx hy => rw [bitMul_xor_left, bitMul_xor_left, bitMul_xor_left, hx, hy]
  | hmono i hi =>
    induction b using byte_induction with
    | hzero => rw [bitMul_zero_left, bitMul_zero_right, bitMul_zero_left]
    | hxor x y hx hy => rw [bitMul_xor_left, bitMul_xor_right, bitMul_xor_right, bitMul_xor_left, hx, hy]
    | hmono j hj =>
      have hpairs : ∀ i, i < 8 → ∀ j, j < 8 → bitMul (BitVec.twoPow 8 i) (bitMul (BitVec.twoPow 8 j) 2) =
          bitMul (bitMul (BitVec.twoPow 8 i) (BitVec.twoPow 8 j)) 2 := by decide +kernel
      exact hpairs i hi j hj

/-! ### The tables as powers of α

With intact tables `EXP` and `LOG` pass between a nonzero byte and its exponent modulo 255 (rule R105). -/

/-- `EXP` as printed doubles from entry to entry (rule R103). -/
theorem expAt_reset_succ : ∀ i, i < 255 → expAt Tables.reset (i + 1) = bitMul (expAt Tables.reset i) 2 := by
  decide +kernel

theorem logAt_expAt_reset {i : Nat} (hi : i < 255) : logAt Tables.reset (expAt Tables.reset i) = i := by
  have hmap : (List.range 255).map (logAt Tables.reset ∘ expAt Tables.reset) = (List.range 255).map id := by
    rw [← List.map_map, map_expAt_reset, map_logAt_builtPowers, List.map_id]
  exact List.map_inj_left.mp hmap i (List.mem_range.mpr hi)

theorem expAt_reset_ne_zero {i : Nat} (hi : i < 255) : expAt Tables.reset i ≠ 0 := fun h =>
  zero_notMem_builtPowers (map_expAt_reset ▸ List.mem_map.mpr ⟨i, List.mem_range.mpr hi, h⟩)

theorem alpha_mod (T : Tables) (i : Nat) : alpha T (i % 255) = alpha T i :=
  congrArg (expAt T) (Nat.mod_mod i 255)

section Intact

variable {T : Tables}

theorem expAt_of_intact (hT : tablesIntact T) (i : Nat) : expAt T i = expAt Tables.reset i :=
  congrArg (romAt · i) hT.1

theorem logAt_of_intact (hT : tablesIntact T) {v : Byte} (hv : v ≠ 0) : logAt T v = logAt Tables.reset v := by
  have hpos : 1 ≤ v.toNat := Nat.one_le_iff_ne_zero.mpr fun h => hv (BitVec.eq_of_toNat_eq h)
  exact congrArg BitVec.toNat (hT.2 v.toNat hpos)

/-- Every entry of `EXP` is the power of α of its index (rule R105). -/
theorem expAt_eq_alpha (hT : tablesIntact T) {i : Nat} (hi : i < 512) : expAt T i = alpha T i := by
  rw [alpha, expAt_of_intact hT, expAt_of_intact hT, expAt_reset_mod i hi]; rfl

theorem alpha_ne_zero (hT : tablesIntact T) (i : Nat) : alpha T i ≠ 0 := by
  rw [alpha, expAt_of_intact hT]
  exact expAt_reset_ne_zero (Nat.mod_lt i (by decide))

theorem alpha_zero (hT : tablesIntact T) : alpha T 0 = 1 := expAt_of_intact hT 0

theorem logAt_alpha (hT : tablesIntact T) (i : Nat) : logAt T (alpha T i) = i % 255 := by
  rw [logAt_of_intact hT (alpha_ne_zero hT i), alpha, expAt_of_intact hT]
  exact logAt_expAt_reset (Nat.mod_lt i (by decide))

/-- Every nonzero byte is a power of α (rule R105). -/
theorem exists_alpha_eq (hT : tablesIntact T) {v : Byte} (hv : v ≠ 0) : ∃ i, i < 255 ∧ alpha T i = v := by
  have hmem : v ∈ (List.range 255).map (expAt Tables.reset) := map_expAt_reset ▸ mem_builtPowers hv
  obtain ⟨i, hi, hv⟩ := List.mem_map.mp hmem
  have hi : i < 255 := List.mem_range.mp hi
  exact ⟨i, hi, by rw [← expAt_eq_alpha hT (by omega), expAt_of_intact hT, hv]⟩

theorem alpha_logAt (hT : tablesIntact T) {v : Byte} (hv : v ≠ 0) : alpha T (logAt T v) = v := by
  obtain ⟨i, -, rfl⟩ := exists_alpha_eq hT hv
  rw [logAt_alpha hT, alpha_mod]

theorem alpha_eq_alpha_iff (hT : tablesIntact T) (i j : Nat) : alpha T i = alpha T j ↔ i % 255 = j % 255 := by
  constructor
  · intro h
    rw [← logAt_alpha hT, h, logAt_alpha hT]
  · intro h
    rw [← alpha_mod, h, alpha_mod]

theorem alpha_succ (hT : tablesIntact T) (i : Nat) : alpha T (i + 1) = bitMul (alpha T i) 2 := by
  have hi : i % 255 < 255 := Nat.mod_lt i (by decide)
  calc alpha T (i + 1) = alpha T (i % 255 + 1) := (alpha_eq_alpha_iff hT _ _).mpr (by omega)
    _ = expAt T (i % 255 + 1) := (expAt_eq_alpha hT (by omega)).symm
    _ = bitMul (alpha T i) 2 := by rw [expAt_of_intact hT, expAt_reset_succ _ hi, ← expAt_of_intact hT]; rfl

/-- Exponents of α add under the bit-level product. -/
theorem alpha_add (hT : tablesIntact T) (i j : Nat) : alpha T (i + j) = bitMul (alpha T i) (alpha T j) := by
  induction j with
  | zero => rw [alpha_zero hT, bitMul_one_right, Nat.add_zero]
  | succ j ih => rw [← Nat.add_assoc, alpha_succ hT, ih, alpha_succ hT, bitMul_double_right]

/-! ### The four functions on powers of α -/

/-- The table product is the bit-level product (rule R102). -/
theorem gfMul_eq_bitMul (hT : tablesIntact T) (a b : Byte) : gfMul T a b = bitMul a b := by
  by_cases ha : a = 0
  · rw [ha, gfMul_zero_left, bitMul_zero_left]
  by_cases hb : b = 0
  · rw [hb, gfMul_zero_right, bitMul_zero_right]
  obtain ⟨i, hi, rfl⟩ := exists_alpha_eq hT ha
  obtain ⟨j, hj, rfl⟩ := exists_alpha_eq hT hb
  rw [gfMul_of_ne T ha hb, logAt_alpha hT, logAt_alpha hT, Nat.mod_eq_of_lt hi, Nat.mod_eq_of_lt hj,
    expAt_eq_alpha hT (by omega), alpha_add hT]

theorem gfMul_alpha (hT : tablesIntact T) (i j : Nat) : gfMul T (alpha T i) (alpha T j) = alpha T (i + j) := by
  rw [gfMul_eq_bitMul hT, alpha_add hT]

theorem gfMul_one_right (hT : tablesIntact T) (a : Byte) : gfMul T a 1 = a := by
  rw [gfMul_eq_bitMul hT, bitMul_one_right]

theorem gfMul_one_left (hT : tablesIntact T) (b : Byte) : gfMul T 1 b = b := by
  rw [gfMul_comm, gfMul_one_right hT]

/-- There are no zero divisors (rule R114). -/
theorem gfMul_eq_zero_iff (hT : tablesIntact T) (a b : Byte) : gfMul T a b = 0 ↔ a = 0 ∨ b = 0 := by
  constructor
  · intro h
    by_contra hne
    obtain ⟨ha, hb⟩ := not_or.mp hne
    rw [← alpha_logAt hT ha, ← alpha_logAt hT hb, gfMul_alpha hT] at h
    exact alpha_ne_zero hT _ h
  · rintro (rfl | rfl)
    · exact gfMul_zero_left T b
    · exact gfMul_zero_right T a

/-- The quotient is the one element whose product with the divisor is the dividend (rules R107, R114). -/
theorem gfDiv_eq_some_iff (hT : tablesIntact T) {a b : Byte} (hb : b ≠ 0) (q : Byte) :
    gfDiv T a b = some q ↔ gfMul T q b = a := by
  obtain ⟨h, -⟩ | ⟨-, rfl, e⟩ | ⟨-, ha, e⟩ := gfDiv_cases T a b
  · exact absurd h hb
  · rw [e, Option.some_inj, gfMul_eq_zero_iff hT, or_iff_left hb, eq_comm]
  obtain ⟨i, hi, rfl⟩ := exists_alpha_eq hT ha
  obtain ⟨j, hj, rfl⟩ := exists_alpha_eq hT hb
  rw [e, Option.some_inj, logAt_alpha hT, logAt_alpha hT, expAt_eq_alpha hT (by omega)]
  by_cases hq : q = 0
  · rw [hq, gfMul_zero_left]
    exact iff_of_false (alpha_ne_zero hT _) (alpha_ne_zero hT i).symm
  obtain ⟨k, hk, rfl⟩ := exists_alpha_eq hT hq
  rw [gfMul_alpha hT, alpha_eq_alpha_iff hT, alpha_eq_alpha_iff hT]
  omega

/-- Division by a nonzero divisor has a quotient (rule R107). -/
theorem exists_gfDiv_eq_some (T : Tables) (a : Byte) {b : Byte} (hb : b ≠ 0) : ∃ q, gfDiv T a b = some q :=
  Option.ne_none_iff_exists'.mp ((gfDiv_eq_none T a b).not.mpr hb)

/-- Inversion is the division of 1 (rules R107, R108). -/
theorem gfInv_eq_gfDiv_one (hT : tablesIntact T) (a : Byte) : gfInv T a = gfDiv T 1 a := by
  have hlog : logAt T 1 = 0 := logAt_of_intact hT (by decide)
  rw [gfDiv, hlog, Nat.zero_add]; rfl

theorem gfInv_eq_some_iff (hT : tablesIntact T) {a : Byte} (ha : a ≠ 0) (q : Byte) :
    gfInv T a = some q ↔ gfMul T q a = 1 := by
  rw [gfInv_eq_gfDiv_one hT, gfDiv_eq_some_iff hT ha]

/-- A power of a nonzero base multiplies the exponent of α, for the exponent 0 too (rule R109). -/
theorem gfPow_eq_alpha (hT : tablesIntact T) {a : Byte} (ha : a ≠ 0) (e : Nat) :
    gfPow T a e = alpha T (logAt T a * e) := by
  by_cases he : e = 0
  · rw [he, gfPow_zero, Nat.mul_zero, alpha_zero hT]
  · exact gfPow_of_ne T ha he

theorem gfPow_succ (hT : tablesIntact T) (a : Byte) (e : Nat) : gfPow T a (e + 1) = gfMul T (gfPow T a e) a := by
  by_cases ha : a = 0
  · rw [ha, gfPow_zero_base T e.succ_ne_zero, gfMul_zero_right]
  · have hmul := gfMul_alpha hT (logAt T a * e) (logAt T a)
    rwa [alpha_logAt hT ha, ← Nat.mul_succ, ← gfPow_eq_alpha hT ha, ← gfPow_eq_alpha hT ha, eq_comm] at hmul

/-- The power is the product of as many copies of the base as the exponent says (rule R109). -/
theorem gfPow_eq_loop_bitMul (hT : tablesIntact T) (a : Byte) (e : Nat) :
    gfPow T a e = loop e (fun _ p => bitMul p a) 1 := by
  induction e with
  | zero => exact gfPow_zero T a
  | succ e ih => rw [gfPow_succ hT, ih, gfMul_eq_bitMul hT, loop_succ]

theorem gfPow_one_base (hT : tablesIntact T) (e : Nat) : gfPow T 1 e = 1 := by
  induction e with
  | zero => exact gfPow_zero T 1
  | succ e ih => rw [gfPow_succ hT, ih, gfMul_one_right hT]

/-- The order of every nonzero element divides 255, so exponents count modulo 255 (rules R109, R112). -/
theorem gfPow_mod (hT : tablesIntact T) {a : Byte} (ha : a ≠ 0) (e : Nat) : gfPow T a e = gfPow T a (e % 255) := by
  rw [gfPow_eq_alpha hT ha, gfPow_eq_alpha hT ha, alpha_eq_alpha_iff hT, Nat.mul_mod_mod]

end Intact

/-! ### The commands -/

theorem exec_gfdiv_of_eq_some {a b q : Byte} {s : State} (h : gfDiv s.tables a b = some q) :
    exec (.gfdiv a b) s = .next { s with res := q } := by
  simp only [exec, execGfdiv, h]

theorem exec_gfdiv_zero (a : Byte) (s : State) :
    exec (.gfdiv a 0) s = .next (raiseFault .divisionByZero (encode (.gfdiv a 0)) s) := by
  simp only [exec, execGfdiv, (gfDiv_eq_none s.tables a 0).mpr rfl]

theorem exec_gfinv_of_eq_some {a q : Byte} {s : State} (h : gfInv s.tables a = some q) :
    exec (.gfinv a) s = .next { s with res := q } := by
  simp only [exec, execGfinv, h]

theorem exec_gfinv_zero (s : State) :
    exec (.gfinv 0) s = .next (raiseFault .divisionByZero (encode (.gfinv 0)) s) := rfl

/-- The word of a division by zero as a number, as `FINFO` records it (rules R111, R212). -/
theorem encode_gfdiv_zero (a : Byte) : encode (.gfdiv a 0) = BitVec.ofNat 32 (2 ^ 8 * a.toNat + 2) := by
  have hword : encode (.gfdiv a 0) = 0#8 ++ 0#8 ++ a ++ 2#8 := rfl
  apply BitVec.eq_of_toNat_eq
  have hfields : a.toNat <<< 8 ||| 2 = 2 ^ 8 * a.toNat + 2 := by
    rw [← Nat.shiftLeft_add_eq_or_of_lt (by decide), Nat.shiftLeft_eq, Nat.mul_comm]
  have hlt : 2 ^ 8 * a.toNat + 2 < 2 ^ 32 := by omega
  simp only [hword, BitVec.toNat_append, BitVec.toNat_ofNat, Nat.zero_mod, Nat.zero_shiftLeft, Nat.zero_or,
    Nat.mod_eq_of_lt hlt]
  exact hfields

/-- Settles O20: the product's laws from the table product being the bit-level product. -/
theorem gfmulWritesTheProduct : Obligations.GfmulWritesTheProduct := by
  refine ⟨fun _ _ _ => rfl, fun _ _ => rfl, ?_, fun T hT a b => ⟨?_, ?_, ?_, ?_⟩⟩
  · intro w hop hreserved
    rw [decode, hop]
    exact if_neg hreserved
  · exact (gfMul_eq_zero_iff hT a b).mpr
  · exact gfMul_one_left hT b
  · exact gfMul_comm T a b
  · rw [gfMul_eq_bitMul hT]; decide

/-- Settles O21: each clause on the quotient says which element times the divisor is the dividend. -/
theorem gfdivWritesTheQuotient : Obligations.GfdivWritesTheQuotient := by
  refine ⟨fun _ _ => rfl, fun a b s hT => ⟨fun hb => ?_, ?_⟩, fun T hT => ?_⟩
  · obtain ⟨q, hq⟩ := exists_gfDiv_eq_some s.tables a hb
    have hunique (r : Byte) (hr : gfMul s.tables r b = a) : r = q :=
      Option.some_inj.mp (((gfDiv_eq_some_iff hT hb r).mpr hr).symm.trans hq)
    refine ⟨q, hq, exec_gfdiv_of_eq_some hq, ⟨?_, fun r hr => ?_⟩, ?_, ?_, ?_⟩
    · rw [← gfMul_eq_bitMul hT]
      exact (gfDiv_eq_some_iff hT hb q).mp hq
    · exact hunique r ((gfMul_eq_bitMul hT r b).trans hr)
    · rintro rfl
      exact (hunique 0 (gfMul_zero_left _ b)).symm
    · rintro rfl
      exact (hunique 1 (gfMul_one_left hT a)).symm
    · rintro rfl
      exact (hunique a (gfMul_one_right hT a)).symm
  · rintro rfl hfault
    rw [exec_gfdiv_zero, raiseFault_of_none _ _ hfault, encode_gfdiv_zero]
  · rw [gfDiv_eq_some_iff hT (by decide), gfMul_eq_bitMul hT]; decide

/-- Settles O22: the power as a repeated product, and as a power of α. -/
theorem gfpowWritesTheRepeatedProduct : Obligations.GfpowWritesTheRepeatedProduct := by
  refine ⟨fun _ _ _ => rfl, fun _ _ => rfl, ?_, fun T hT a e => ⟨?_, ?_, ?_, ?_, fun ha => ⟨?_, ?_, ?_⟩, ?_⟩⟩
  · intro w hop
    rw [decode, hop]
    exact ⟨fieldA w, fieldE w, rfl⟩
  · exact gfPow_eq_loop_bitMul hT a e.toNat
  · rintro rfl
    exact gfPow_zero T a
  · rintro rfl he
    exact gfPow_zero_base T fun h => he (BitVec.eq_of_toNat_eq h)
  · rintro rfl
    exact gfPow_one_base hT e.toNat
  · exact gfPow_mod hT ha e.toNat
  · rw [gfPow_mod hT ha, Nat.mod_self, gfPow_zero]
  · rw [gfPow_mod hT ha, gfPow_succ hT, gfPow_zero, gfMul_one_left hT]
  · rw [gfPow_eq_loop_bitMul hT]; decide +kernel

/-- Settles O23: each clause on the inverse says which element times `a` is 1. -/
theorem gfinvWritesTheInverse : Obligations.GfinvWritesTheInverse := by
  refine ⟨fun _ => rfl, fun a s hT => ⟨fun ha => ?_, ?_⟩, fun T hT => ?_⟩
  · obtain ⟨q, hdiv⟩ := exists_gfDiv_eq_some s.tables 1 ha
    have hq : gfInv s.tables a = some q := (gfInv_eq_gfDiv_one hT a).trans hdiv
    have hmul : gfMul s.tables a q = 1 := (gfMul_comm ..).trans ((gfInv_eq_some_iff hT ha q).mp hq)
    have hq0 : q ≠ 0 := by
      rintro rfl
      exact absurd ((gfMul_zero_right s.tables a).symm.trans hmul) (by decide)
    refine ⟨q, hq, exec_gfinv_of_eq_some hq, ?_, (gfInv_eq_some_iff hT hq0 a).mpr hmul, ?_⟩
    · rwa [← gfMul_eq_bitMul hT]
    · rintro rfl
      exact (gfMul_one_left hT q).symm.trans hmul
  · rintro rfl hfault
    rw [exec_gfinv_zero, raiseFault_of_none _ _ hfault]
    rfl
  · have hmul : gfMul T 0x8E 0x02 = 1 := by rw [gfMul_eq_bitMul hT]; decide
    exact ⟨(gfInv_eq_some_iff hT (by decide) 0x8E).mpr hmul, hmul⟩

end Sys2Proof.Machine

/-! # Proofs of the family 41_rs_encoder: the generator polynomial and `RSENC` -/

namespace Sys2Proof.Machine

/-! ### Products of three elements and products of sums -/

section Intact

variable {T : Tables}

theorem gfMul_assoc (hT : tablesIntact T) (a b c : Byte) : gfMul T (gfMul T a b) c = gfMul T a (gfMul T b c) := by
  by_cases ha : a = 0
  · rw [ha, gfMul_zero_left, gfMul_zero_left, gfMul_zero_left]
  by_cases hb : b = 0
  · rw [hb, gfMul_zero_left, gfMul_zero_right, gfMul_zero_left]
  by_cases hc : c = 0
  · rw [hc, gfMul_zero_right, gfMul_zero_right, gfMul_zero_right]
  rw [← alpha_logAt hT ha, ← alpha_logAt hT hb, ← alpha_logAt hT hc]
  simp only [gfMul_alpha hT, Nat.add_assoc]

theorem gfMul_right_comm (hT : tablesIntact T) (a b c : Byte) :
    gfMul T (gfMul T a b) c = gfMul T (gfMul T a c) b := by
  rw [gfMul_assoc hT, gfMul_comm T b c, gfMul_assoc hT]

theorem gfMul_xor_left (hT : tablesIntact T) (a b c : Byte) :
    gfMul T (a ^^^ b) c = gfMul T a c ^^^ gfMul T b c := by
  simp only [gfMul_eq_bitMul hT, bitMul_xor_left]

theorem gfMul_xor_right (hT : tablesIntact T) (a b c : Byte) :
    gfMul T a (b ^^^ c) = gfMul T a b ^^^ gfMul T a c := by
  simp only [gfMul_eq_bitMul hT, bitMul_xor_right]

end Intact

/-! ### One pass of phase GEN -/

@[simp] theorem evalWord_zero (T : Tables) (cw : Mem) (x : Byte) : evalWord T cw 0 x = 0 := rfl

theorem evalWord_succ (T : Tables) (cw : Mem) (n : Nat) (x : Byte) :
    evalWord T cw (n + 1) x = gfMul T (evalWord T cw n x) x ^^^ Mem.read cw n := rfl

@[simp] theorem read_genStep_zero (T : Tables) (i : Nat) (old : Mem) :
    Mem.read (genStep T i old) 0 = Mem.read old 0 := by
  rw [genStep, Mem.read_fill, if_neg (by omega)]

theorem read_genStep_succ (T : Tables) (old : Mem) {i j : Nat} (hj : j ≤ i) :
    Mem.read (genStep T i old) (j + 1) = Mem.read old (j + 1) ^^^ gfMul T (Mem.read old j) (alpha T i) := by
  rw [genStep, Mem.read_fill, if_pos (by omega), Nat.add_sub_cancel]

theorem read_genStep_above (T : Tables) (old : Mem) {i j : Nat} (hj : i + 1 < j) :
    Mem.read (genStep T i old) j = Mem.read old j := by
  rw [genStep, Mem.read_fill, if_neg (by omega)]

section Intact

variable {T : Tables}

/-- The new coefficients evaluate to the old ones plus α^i times the old ones one degree lower: the product by `x + α^i`
at each stage of Horner's rule. -/
theorem evalWord_genStep_of_le (hT : tablesIntact T) (i : Nat) (old : Mem) (x : Byte) {k : Nat} (hk : k ≤ i + 1) :
    evalWord T (genStep T i old) (k + 1) x =
      evalWord T old (k + 1) x ^^^ gfMul T (evalWord T old k x) (alpha T i) := by
  induction k with
  | zero =>
    rw [evalWord_succ, evalWord_succ, read_genStep_zero, evalWord_zero, evalWord_zero, gfMul_zero_left, gfMul_zero_left]
    exact BitVec.xor_zero.symm
  | succ k ih =>
    calc evalWord T (genStep T i old) (k + 2) x
        = gfMul T (evalWord T old (k + 1) x ^^^ gfMul T (evalWord T old k x) (alpha T i)) x ^^^
            (Mem.read old (k + 1) ^^^ gfMul T (Mem.read old k) (alpha T i)) := by
          rw [evalWord_succ, ih (by omega), read_genStep_succ T old (by omega)]
      _ = (gfMul T (evalWord T old (k + 1) x) x ^^^ Mem.read old (k + 1)) ^^^
            (gfMul T (gfMul T (evalWord T old k x) x) (alpha T i) ^^^ gfMul T (Mem.read old k) (alpha T i)) := by
          rw [gfMul_xor_left hT, gfMul_right_comm hT _ (alpha T i)]; ac_rfl
      _ = evalWord T old (k + 2) x ^^^ gfMul T (evalWord T old (k + 1) x) (alpha T i) := by
          rw [← gfMul_xor_left hT, ← evalWord_succ, ← evalWord_succ]

/-- Pass `i` multiplies a polynomial of degree at most `i` by `x + α^i` (rule R132). -/
theorem evalWord_genStep (hT : tablesIntact T) {i : Nat} {old : Mem} (hold : Mem.read old (i + 1) = 0) (x : Byte) :
    evalWord T (genStep T i old) (i + 2) x = gfMul T (evalWord T old (i + 1) x) (x ^^^ alpha T i) := by
  rw [evalWord_genStep_of_le hT i old x (le_refl _), evalWord_succ T old (i + 1), hold, gfMul_xor_right hT]
  simp

/-! ### The generator polynomial -/

/-- The polynomial in `g`, highest degree first, is monic of degree `n`, has a nonzero constant term, and vanishes at
1, α, ..., α^(n-1) (rules R27, R132). -/
structure GeneratorOfDegree (T : Tables) (n : Nat) (g : Mem) : Prop where
  monic : Mem.read g 0 = 1
  above : ∀ j, n < j → Mem.read g j = 0
  constantTerm : Mem.read g n ≠ 0
  roots : ∀ i, i < n → evalWord T g (n + 1) (alpha T i) = 0

theorem GeneratorOfDegree.one : GeneratorOfDegree T 0 (Mem.tabulate (fun j => if j = 0 then 1 else 0)) where
  monic := by rw [Mem.read_tabulate]; rfl
  above j hj := by rw [Mem.read_tabulate, if_neg (Nat.ne_of_gt hj), ite_self]
  constantTerm := by rw [Mem.read_tabulate]; decide
  roots i hi := absurd hi (Nat.not_lt_zero i)

/-- Pass `n` adds the root α^n and keeps the roots found so far. -/
theorem GeneratorOfDegree.step (hT : tablesIntact T) {n : Nat} {g : Mem} (h : GeneratorOfDegree T n g) :
    GeneratorOfDegree T (n + 1) (genStep T n g) where
  monic := by rw [read_genStep_zero, h.monic]
  above j hj := by rw [read_genStep_above T g hj, h.above j (by omega)]
  constantTerm := by
    have hread : Mem.read (genStep T n g) (n + 1) = gfMul T (Mem.read g n) (alpha T n) := by
      rw [read_genStep_succ T g (le_refl n), h.above (n + 1) (Nat.lt_succ_self n)]
      exact BitVec.zero_xor
    rw [hread, Ne, gfMul_eq_zero_iff hT]
    exact not_or.mpr ⟨h.constantTerm, alpha_ne_zero hT n⟩
  roots i hi := by
    rw [evalWord_genStep hT (h.above (n + 1) (by omega))]
    obtain hlt | rfl := Nat.lt_succ_iff_lt_or_eq.mp hi
    · rw [h.roots i hlt, gfMul_zero_left]
    · rw [BitVec.xor_self]
      exact gfMul_zero_right T _

theorem generatorOfDegree_generatorPoly (hT : tablesIntact T) (n : Nat) :
    GeneratorOfDegree T n (generatorPoly T n) :=
  loop_induction (GeneratorOfDegree T) n (genStep T) _ .one fun _ _ _ h => h.step hT

end Intact

/-! ### The state `RSENC` leaves -/

/-- `CW` with the remainder of the division in its parity bytes (rule R134). -/
def encodedBuffer (s : State) : Mem :=
  Mem.fill s.cw s.dlen.toNat s.nsym.toNat
    (Mem.read (divSequence s.tables (generatorPoly s.tables s.nsym.toNat) s.cw s.dlen.toNat s.nsym.toNat))

/-- Phases `GEN` and `DIV` as one update of the state (rule R135). -/
def rsencState (s : State) : State :=
  { s with
    g := generatorPoly s.tables s.nsym.toNat
    cw := encodedBuffer s
    status := { s.status with result := .ok, cause := .none }
    phase := .idle
    chain := false }

theorem exec_rsenc_eq {s : State} (h : s.dlen.toNat + s.nsym.toNat ≤ 255) : exec .rsenc s = .next (rsencState s) :=
  exec_rsenc_legal s (Nat.not_lt.mpr h)

/-- A parity byte is an entry of the division's last sequence. -/
theorem read_encodedBuffer_parity (s : State) {k : Nat} (hk : k < s.nsym.toNat) :
    Mem.read (encodedBuffer s) (s.dlen.toNat + k) =
      Mem.read (divSequence s.tables (generatorPoly s.tables s.nsym.toNat) s.cw s.dlen.toNat s.nsym.toNat)
        (s.dlen.toNat + k) := by
  rw [encodedBuffer, Mem.read_fill, if_pos (by omega)]

/-- No byte outside the parity bytes changes. -/
theorem read_encodedBuffer_other (s : State) {a : Nat}
    (ha : a < s.dlen.toNat ∨ s.dlen.toNat + s.nsym.toNat ≤ a) : Mem.read (encodedBuffer s) a = Mem.read s.cw a := by
  rw [encodedBuffer, Mem.read_fill, if_neg (by omega)]

/-! ### The division reads the payload alone -/

/-- A fill uses its function only on the range it fills. -/
theorem Mem.fill_congr (m : Mem) {lo n : Nat} {f g : Nat → Byte} (h : ∀ a, lo ≤ a → a < lo + n → f a = g a) :
    Mem.fill m lo n f = Mem.fill m lo n g := by
  induction n generalizing lo with
  | zero => rfl
  | succ n ih => rw [Mem.fill, Mem.fill, ih fun a hlo hn => h a (by omega) (by omega), h lo (le_refl lo) (by omega)]

/-- Filling a range of a canonical store a second time changes nothing. -/
theorem Mem.fill_fill {m : Mem} {lo n : Nat} (hm : Mem.wf m = true) (hn : lo + n ≤ Config.storeSize) (f : Nat → Byte) :
    Mem.fill (Mem.fill m lo n f) lo n f = Mem.fill m lo n f := by
  have hwf := Mem.wf_fill m lo n f hm hn
  refine Mem.ext (Mem.wf_fill _ lo n f hwf hn) hwf fun a => ?_
  rw [Mem.read_fill (Mem.fill m lo n f), Mem.read_fill m]
  split <;> rfl

theorem divSequence_congr (T : Tables) (g : Mem) {cw cw' : Mem} {dlen : Nat} (nsym : Nat)
    (h : ∀ a, a < dlen → Mem.read cw a = Mem.read cw' a) :
    divSequence T g cw dlen nsym = divSequence T g cw' dlen nsym := by
  rw [divSequence, Mem.fill_congr [] fun a _ ha => h a (by omega), divSequence]

/-- The bytes `RSENC` writes it does not read, so encoding the encoded buffer gives it back (rule R135). -/
theorem encodedBuffer_rsencState {s : State} (hcw : Mem.wf s.cw = true) (h : s.dlen.toNat + s.nsym.toNat ≤ 255) :
    encodedBuffer (rsencState s) = encodedBuffer s := by
  have hdiv := divSequence_congr s.tables (generatorPoly s.tables s.nsym.toNat) s.nsym.toNat
    fun a ha => read_encodedBuffer_other s (.inl ha)
  calc encodedBuffer (rsencState s)
      = Mem.fill (encodedBuffer s) s.dlen.toNat s.nsym.toNat (Mem.read (divSequence s.tables
          (generatorPoly s.tables s.nsym.toNat) (encodedBuffer s) s.dlen.toNat s.nsym.toNat)) := rfl
    _ = encodedBuffer s := by rw [hdiv]; exact Mem.fill_fill hcw (Nat.le_succ_of_le h) _

/-- All else that `RSENC` writes is a function of what it does not write. -/
theorem rsencState_rsencState {s : State} (hcw : Mem.wf s.cw = true) (h : s.dlen.toNat + s.nsym.toNat ≤ 255) :
    rsencState (rsencState s) = rsencState s :=
  calc rsencState (rsencState s) = { rsencState s with cw := encodedBuffer (rsencState s) } := rfl
    _ = rsencState s := by rw [encodedBuffer_rsencState hcw h]; rfl

/-! ### The statements -/

/-- Settles O27: each clause reads one field of the state that `exec_rsenc_eq` gives. -/
theorem rsencWritesTheParityAlone : Obligations.RsencWritesTheParityAlone := fun s hlegal =>
  ⟨rsencState s, exec_rsenc_eq hlegal, rfl, rfl, fun _ ha => read_encodedBuffer_other s ha,
    fun _ hk => read_encodedBuffer_parity s hk⟩

/-- Settles O28, by induction on the passes of phase `GEN`, each of which multiplies by one more `x + α^i`. -/
theorem generatorHasTheRoots : Obligations.GeneratorHasTheRoots := by
  intro s t hT hlegal hexec
  rw [exec_rsenc_eq hlegal] at hexec
  cases hexec
  obtain ⟨hmonic, habove, hconstantTerm, hroots⟩ := generatorOfDegree_generatorPoly hT s.nsym.toNat
  exact ⟨hmonic, habove, hconstantTerm, hroots⟩

/-- Settles O32: the second run computes the same generator polynomial and the same parity. -/
theorem rsencIsIdempotent : Obligations.RsencIsIdempotent := fun s hcw hlegal =>
  ⟨rsencState s, exec_rsenc_eq hlegal,
    (exec_rsenc_eq (s := rsencState s) hlegal).trans (congrArg _ (rsencState_rsencState hcw hlegal))⟩

end Sys2Proof.Machine

/-! # Proofs of the family 42_rs_decoder_locator: `SYND`, `BMA` and the stage commands run in order -/

namespace Sys2Proof.Machine

/-! ### Horner's rule -/

section Intact

variable {T : Tables}

theorem gfMul_xorSum_left (hT : tablesIntact T) (n : Nat) (t : Nat → Byte) (x : Byte) :
    gfMul T (xorSum n t) x = xorSum n (fun j => gfMul T (t j) x) := by
  induction n with
  | zero => exact gfMul_zero_left T x
  | succ n ih => rw [xorSum_succ, gfMul_xor_left hT, ih, xorSum_succ]

/-- Horner's rule evaluates the word as a sum of powers, highest degree first (rule R151). -/
theorem evalWord_eq_xorSum (hT : tablesIntact T) (cw : Mem) (n : Nat) (x : Byte) :
    evalWord T cw n x = xorSum n (fun j => gfMul T (Mem.read cw j) (gfPow T x (n - 1 - j))) := by
  induction n with
  | zero => rfl
  | succ n ih =>
    have hdegree : ∀ j, j < n → gfMul T (gfMul T (Mem.read cw j) (gfPow T x (n - 1 - j))) x =
        gfMul T (Mem.read cw j) (gfPow T x (n + 1 - 1 - j)) := fun j hj => by
      have hexp : n + 1 - 1 - j = n - 1 - j + 1 := by omega
      rw [gfMul_assoc hT, ← gfPow_succ hT, hexp]
    have hlast : gfMul T (Mem.read cw n) (gfPow T x (n + 1 - 1 - n)) = Mem.read cw n := by
      rw [Nat.add_sub_cancel, Nat.sub_self, gfPow_zero, gfMul_one_right hT]
    rw [evalWord_succ, ih, gfMul_xorSum_left hT, xorSum_congr hdegree, xorSum_succ, hlast]

end Intact

/-! ### The syndromes of a state -/

theorem nsym_le_storeSize (s : State) : s.nsym.toNat ≤ Config.storeSize := Nat.le_of_lt s.nsym.isLt

/-- Entry `i` of `S` as phases `SYN` and `VERIFY` compute it (rules R151, R175). -/
theorem read_computeSyndromes (s : State) (i : Nat) :
    Mem.read (computeSyndromes s).synd i =
      if i < s.nsym.toNat then evalWord s.tables s.cw (codewordLen s) (alpha s.tables i) else 0 :=
  read_syndromes _ _ _ _ _ (nsym_le_storeSize s)

theorem wf_syndromes (T : Tables) (cw : Mem) (n nsym : Nat) : Mem.wf (syndromes T cw n nsym) = true :=
  Mem.wf_tabulate _

theorem szero_computeSyndromes_iff (s : State) :
    (computeSyndromes s).status.szero = true ↔
      ∀ i, i < s.nsym.toNat → Mem.read (computeSyndromes s).synd i = 0 :=
  allZero_iff _ _

/-- `SZERO` tells whether the buffer holds a codeword (rules R130, R151). -/
theorem szero_computeSyndromes_iff_holdsCodeword (s : State) :
    (computeSyndromes s).status.szero = true ↔ holdsCodeword s := by
  rw [szero_computeSyndromes_iff, holdsCodeword]
  refine forall_congr' fun i => imp_congr_right fun hi => ?_
  rw [read_computeSyndromes, if_pos hi]

/-- The syndromes of a codeword are the cleared store. -/
theorem synd_computeSyndromes_of_holdsCodeword {s : State} (h : holdsCodeword s) : (computeSyndromes s).synd = [] := by
  refine Mem.ext (wf_syndromes _ _ _ _) rfl fun i => ?_
  rw [read_computeSyndromes, Mem.read_nil]
  split
  · next hi => exact h i hi
  · rfl

/-! ### Phase BMA -/

/-- The top index is nonzero there, if any entry below the bound is. -/
theorem read_topIndex_ne_zero {m : Mem} {a n : Nat} (ha : a < n) (hne : Mem.read m a ≠ 0) :
    Mem.read m (topIndex m n) ≠ 0 := by
  induction n with
  | zero => omega
  | succ n ih =>
    unfold topIndex
    split
    · next htop => exact htop
    · next hzero =>
      have hlt : a < n := Nat.lt_of_le_of_ne (Nat.le_of_lt_succ ha) (by rintro rfl; exact hzero hne)
      exact ih hlt

theorem topIndex_lt {m : Mem} {n : Nat} (hn : 0 < n) : topIndex m n < n := by
  induction n with
  | zero => omega
  | succ n ih =>
    unfold topIndex
    split
    · exact Nat.lt_succ_self n
    · obtain rfl | hpos := Nat.eq_zero_or_pos n
      · exact hn
      · exact (ih hpos).trans (Nat.lt_succ_self n)

/-- `DEG` holds the top index of σ whole: it is at most 255 (rule R153). -/
theorem toNat_deg_phaseBma (s : State) :
    (phaseBma s).deg.toNat = topIndex (phaseBma s).sigma Config.storeSize := by
  rw [phaseBma_eq]
  exact Nat.mod_eq_of_lt (topIndex_lt (by decide))

/-- σ has a nonzero coefficient at `DEG`, because its constant term is 1 (rules R153, R156). -/
theorem read_sigma_deg_phaseBma (s : State) : Mem.read (phaseBma s).sigma (phaseBma s).deg.toNat ≠ 0 := by
  have hone : Mem.read (phaseBma s).sigma 0 = 1 := by
    rw [phaseBma_eq]
    exact (RecurrenceBounds.of_bmaRun s (Nat.le_of_lt_succ s.nsym.isLt)).sigma_zero
  rw [toNat_deg_phaseBma]
  exact read_topIndex_ne_zero (a := 0) (by decide) (by rw [hone]; decide)

theorem discrepancy_of_len_zero {s : State} (h : s.len = 0) (n : Nat) : discrepancy s n = Mem.read s.synd n := by
  rw [discrepancy, h]
  exact BitVec.xor_zero

/-- Over zero syndromes every step of the recurrence is a shift (rule R155). -/
theorem bmaRun_of_zero_syndromes {s : State} {n : Nat} (h : ∀ i, i < n → Mem.read s.synd i = 0) :
    bmaRun n s = { bmaInit s with mshift := BitVec.ofNat 9 (n + 1) } := by
  induction n with
  | zero => rfl
  | succ n ih =>
    have hrun := ih fun i hi => h i (by omega)
    have hdisc : discrepancy (bmaRun n s) n = 0 := by
      rw [hrun, discrepancy_of_len_zero rfl]
      exact h n (Nat.lt_succ_self n)
    obtain ⟨_, e⟩ | ⟨hne, _⟩ | ⟨hne, _⟩ := bmaStep_cases n (bmaRun n s)
    · rw [bmaRun_succ, e, hrun, BitVec.ofNat_add (n + 1) 1]
      rfl
    · exact absurd hdisc hne
    · exact absurd hdisc hne

/-- The polynomial 1 as the phase starts with it, in its canonical form. -/
theorem tabulate_one : Mem.tabulate (fun i => if i = 0 then 1 else 0) = [(0, 1)] := by
  refine Mem.ext (Mem.wf_tabulate _) rfl fun a => ?_
  rw [read_one, Mem.read_cons, Mem.read_nil]
  exact if_congr eq_comm rfl rfl

theorem phaseBma_of_zero_syndromes {s : State} (h : ∀ i, i < s.nsym.toNat → Mem.read s.synd i = 0) :
    phaseBma s = { s with
      sigma := [(0, 1)], bpoly := [(0, 1)], len := 0, deg := 0, bdisc := 1,
      mshift := BitVec.ofNat 9 (s.nsym.toNat + 1), phase := .gate } := by
  have htop : topIndex [(0, 1)] Config.storeSize = 0 :=
    Nat.le_zero.mp (topIndex_le (fun a ha => by rw [Mem.read_cons, if_neg (Nat.ne_of_lt ha)]; rfl) _)
  rw [phaseBma_eq, bmaRun_of_zero_syndromes h]
  simp only [bmaInit, tabulate_one, htop]
  rfl

/-! ### The statements about one command -/

/-- Settles O33: `S` holds the values of Horner's rule, which `evalWord_eq_xorSum` sums up. -/
theorem syndEvaluatesTheWord : Obligations.SyndEvaluatesTheWord := by
  intro s hT hlegal
  have hread := read_computeSyndromes { s with chain := false, phase := .syn }
  refine ⟨_, exec_synd_legal s (Nat.not_lt.mpr hlegal), rfl, fun i hi => ?_, fun i hi => ?_,
    szero_computeSyndromes_iff _⟩
  · simp only [← gfMul_eq_bitMul hT]
    exact (hread i).trans ((if_pos hi).trans (evalWord_eq_xorSum hT _ _ _))
  · exact (hread i).trans (if_neg (Nat.not_lt.mpr hi))

/-- Settles O34: phase `BMA` leaves `DEG` as the degree of σ, and the gate's branches are the two verdicts. -/
theorem bmaWritesTheLocator : Obligations.BmaWritesTheLocator := by
  intro s hlegal
  have hdeg := read_sigma_deg_phaseBma { s with chain := false, phase := .bma }
  obtain ⟨_, habove, _⟩ := locatorLegal_phaseBma { s with chain := false, phase := .bma }
  have hframe := phaseBma_eq { s with chain := false, phase := .bma }
  refine ⟨_, exec_bma_legal s (Nat.not_lt.mpr hlegal), ?_⟩
  generalize phaseBma { s with chain := false, phase := .bma } = t at hdeg habove hframe
  have hnsym : t.nsym = s.nsym := by rw [hframe]
  have hchain : t.chain = false := by rw [hframe]
  obtain ⟨hgate, e⟩ | ⟨_, hc, _⟩ | ⟨hgate, _, e⟩ := phaseGate_cases t
  · rw [e]
    rw [hnsym] at hgate
    exact ⟨by rw [hframe]; rfl, hdeg, habove, fun _ => ⟨rfl, rfl⟩, fun hle => absurd hgate (Nat.not_lt.mpr hle)⟩
  · exact absurd (hc.symm.trans hchain) (by decide)
  · rw [e]
    rw [hnsym] at hgate
    exact ⟨by rw [hframe]; rfl, hdeg, habove, fun hlt => absurd hgate (Nat.not_le.mpr hlt), fun _ => ⟨rfl, rfl⟩⟩

/-- Settles O37: each step of the recurrence only shifts, and the locator 1 passes the gate. -/
theorem bmaOnZeroSyndromes : Obligations.BmaOnZeroSyndromes := by
  intro s hlegal hzero
  rw [exec_bma_legal s (Nat.not_lt.mpr hlegal),
    phaseBma_of_zero_syndromes (s := { s with chain := false, phase := .bma }) hzero]
  obtain ⟨hgate, _⟩ | ⟨_, hc, _⟩ | ⟨_, _, e⟩ := phaseGate_cases { s with
    sigma := [(0, 1)], bpoly := [(0, 1)], len := 0, deg := 0, bdisc := 1,
    mshift := BitVec.ofNat 9 (s.nsym.toNat + 1), phase := .gate, chain := false }
  · exact absurd hgate (Nat.not_lt_zero _)
  · cases hc
  · exact congrArg Host.Outcome.next e

/-- Settles O41: on a codeword `SZERO` is set, so `RSDEC` ends with phase `SYN`. -/
theorem cleanWordTakesTheEarlyExit : Obligations.CleanWordTakesTheEarlyExit := by
  intro s hlegal hword
  have hclean : holdsCodeword (rsdecStart s) := hword
  have hszero := (szero_computeSyndromes_iff_holdsCodeword _).mpr hclean
  have hsynd := synd_computeSyndromes_of_holdsCodeword hclean
  obtain ⟨_, e⟩ | ⟨hz, _⟩ | ⟨hz, _⟩ | ⟨hz, _⟩ | ⟨hz, _⟩ := exec_rsdec_cases s (Nat.not_lt.mpr hlegal)
  · calc exec .rsdec s
        = .next (toIdle (setOk { rsdecStart s with
            synd := (computeSyndromes (rsdecStart s)).synd
            status := { (rsdecStart s).status with szero := (computeSyndromes (rsdecStart s)).status.szero } })) := e
      _ = .next { s with
            synd := [], errcnt := 0
            status := { s.status with result := .ok, cause := .none, szero := true, paychg := false }
            phase := .idle, chain := false } := by rw [hszero, hsynd]; rfl
  all_goals exact absurd (hz.symm.trans hszero) (by decide)

/-! ### What no computation of the decoder reads -/

/-- The sequencer's place and what a command reports beside `SZERO`: the pieces of state that no computation of the
decoder's phases reads, so that a stage command and `RSDEC` may differ in them alone. -/
structure Report where
  phase : Phase
  chain : Bool
  result : Result
  cause : FailCause
  errcnt : Byte
  paychg : Bool

/-- The report of a command that ends with `OK`. -/
def Report.ok (r : Report) : Report := { r with phase := .idle, chain := false, result := .ok, cause := .none }

/-- The report with which a stage command enters its phase. -/
def Report.start (r : Report) (p : Phase) : Report := { r with phase := p, chain := false }

/-- The state with another report and the same data. -/
def State.withReport (s : State) (r : Report) : State :=
  { s with
    phase := r.phase, chain := r.chain, errcnt := r.errcnt
    status := { s.status with result := r.result, cause := r.cause, paychg := r.paychg } }

/-- What phase `FORNEY` writes when it does not fail (rule R172). -/
def forneyStores (s : State) : State :=
  { s with omega := forneyOmega s, emag := magnitudeStore (magnitudes s (forneyOmega s)) }

/-- Some listed position lies outside the codeword or has a zero derivative (rule R172, `bad`). -/
def degenerate (s : State) : Bool := (magnitudes s (forneyOmega s)).any Option.isNone

/-- The report of a correction that ends with `OK` (rule R173). -/
def correctionReport (s : State) : Report where
  phase := .idle
  chain := false
  result := .ok
  cause := .none
  errcnt := s.nroot
  paychg := payloadChanged s.epos s.emag s.nroot.toNat s.dlen

section WithReport

variable (s : State) (r : Report)

theorem degenerate_withReport : degenerate (s.withReport r) = degenerate s := rfl

theorem toIdle_setOk_withReport : toIdle (setOk (s.withReport r)) = s.withReport r.ok := rfl

theorem computeSyndromes_withReport : computeSyndromes (s.withReport r) = (computeSyndromes s).withReport r := by
  have hsynd : syndromes (s.withReport r).tables (s.withReport r).cw (codewordLen (s.withReport r))
      (s.withReport r).nsym.toNat = syndromes s.tables s.cw (codewordLen s) s.nsym.toNat := rfl
  rw [computeSyndromes_eq, computeSyndromes_eq, hsynd]
  generalize syndromes s.tables s.cw (codewordLen s) s.nsym.toNat = m
  rfl

theorem bmaStep_withReport (n : Nat) : bmaStep n (s.withReport r) = (bmaStep n s).withReport r := by
  have hdisc : discrepancy (s.withReport r) n = discrepancy s n := rfl
  unfold bmaStep
  simp only [hdisc, apply_ite (State.withReport · r)]
  rfl

theorem bmaRun_withReport (n : Nat) : bmaRun n (s.withReport r) = (bmaRun n s).withReport r := by
  induction n with
  | zero => rfl
  | succ n ih => rw [bmaRun_succ, ih, bmaStep_withReport, ← bmaRun_succ]

theorem phaseBma_withReport : phaseBma (s.withReport r) = (phaseBma s).withReport { r with phase := .gate } := by
  have hnsym : (s.withReport r).nsym = s.nsym := rfl
  rw [phaseBma_eq, phaseBma_eq, hnsym, bmaRun_withReport]
  generalize bmaRun s.nsym.toNat s = t
  rfl

theorem phaseForney_withReport (h : degenerate s = false) :
    phaseForney (s.withReport r) = (forneyStores s).withReport { r with phase := .corr } := by
  obtain ⟨hbad, _⟩ | ⟨_, e⟩ := phaseForney_cases (s.withReport r)
  · exact absurd (h.symm.trans hbad) (by decide)
  · exact e

theorem phaseCorr_withReport_of_chain (hchain : r.chain = true) :
    phaseCorr (s.withReport r) = (applyMagnitudes s).withReport { correctionReport s with
      phase := .verify, chain := true, result := r.result, cause := r.cause } := by
  obtain ⟨_, e⟩ | ⟨hc, _⟩ := phaseCorr_cases (s.withReport r)
  · rw [e, ← hchain]; rfl
  · exact absurd (hchain.symm.trans hc) (by decide)

theorem phaseCorr_withReport_of_not_chain (hchain : r.chain = false) :
    phaseCorr (s.withReport r) = (applyMagnitudes s).withReport (correctionReport s) := by
  obtain ⟨hc, _⟩ | ⟨_, e⟩ := phaseCorr_cases (s.withReport r)
  · exact absurd (hchain.symm.trans hc) (by decide)
  · exact e

/-- Phase `VERIFY` where it finds no syndrome left (rule R175). -/
theorem phaseVerify_withReport (hok : (phaseVerify (s.withReport r)).status.result = .ok) :
    phaseVerify (s.withReport r) = (computeSyndromes s).withReport r.ok := by
  obtain ⟨_, e⟩ | ⟨_, e⟩ := phaseVerify_cases (s.withReport r)
  · rw [e, computeSyndromes_withReport, toIdle_setOk_withReport]
  · rw [e] at hok
    cases hok

end WithReport

/-! ### The stage commands on a state with some report -/

section Stages

variable {s : State} (r : Report)

theorem exec_synd_withReport (h : ¬ configIllegal s) :
    exec .synd (s.withReport r) = .next ((computeSyndromes s).withReport r.ok) := by
  have hphases : exec .synd (s.withReport r) =
      .next (toIdle (setOk (computeSyndromes (s.withReport (r.start .syn))))) :=
    exec_synd_legal (s.withReport r) h
  rw [hphases, computeSyndromes_withReport, toIdle_setOk_withReport]
  rfl

/-- `BMA` where the gate passes. -/
theorem exec_bma_withReport (h : ¬ configIllegal s) (hgate : 2 * (phaseBma s).deg.toNat ≤ s.nsym.toNat) :
    exec .bma (s.withReport r) = .next ((phaseBma s).withReport r.ok) := by
  have hphases : exec .bma (s.withReport r) = .next (phaseGate (phaseBma (s.withReport (r.start .bma)))) :=
    exec_bma_legal (s.withReport r) h
  have hnsym : (phaseBma s).nsym = s.nsym := by rw [phaseBma_eq]
  rw [hphases, phaseBma_withReport]
  obtain ⟨hfail, _⟩ | ⟨_, hc, _⟩ | ⟨_, _, e⟩ :=
    phaseGate_cases ((phaseBma s).withReport { r.start .bma with phase := .gate })
  · exact absurd (hnsym ▸ hgate) (Nat.not_le.mpr hfail)
  · cases hc
  · rw [e, toIdle_setOk_withReport]
    rfl

/-- `CHIEN` where the number of roots is `DEG`. -/
theorem exec_chien_withReport (h : ¬ configIllegal s) (hcount : (chienSearch s).nroot = s.deg) :
    exec .chien (s.withReport r) = .next ((chienSearch s).withReport r.ok) := by
  have hphases : exec .chien (s.withReport r) = .next (phaseChien (s.withReport (r.start .chien))) :=
    exec_chien_legal (s.withReport r) h
  rw [hphases]
  obtain ⟨hfail, _⟩ | ⟨_, hc, _⟩ | ⟨_, _, e⟩ := phaseChien_cases (s.withReport (r.start .chien))
  · exact absurd hcount hfail
  · cases hc
  · rw [e]
    rfl

/-- `FORNEY` where no position is degenerate. -/
theorem exec_forney_withReport (h : ¬ configIllegal s) (hregular : degenerate s = false) :
    exec .forney (s.withReport r) =
      .next ((applyMagnitudes (forneyStores s)).withReport (correctionReport (forneyStores s))) := by
  have hphases : exec .forney (s.withReport r) = .next (if degenerate s = true
      then phaseForney (s.withReport (r.start .forney))
      else phaseCorr (phaseForney (s.withReport (r.start .forney)))) :=
    exec_forney_legal (s.withReport r) h
  rw [hphases, if_neg (by rw [hregular]; decide), phaseForney_withReport _ _ hregular,
    phaseCorr_withReport_of_not_chain _ _ rfl]

end Stages

/-! ### `RSDEC` and the stage commands on the same data -/

/-- The data that phases `SYN` and `BMA` leave. -/
def locatedData (s : State) : State := phaseBma (computeSyndromes s)

/-- The data that phase `CHIEN` leaves after them. -/
def searchedData (s : State) : State := chienSearch (locatedData s)

/-- The data that phase `FORNEY` leaves after them. -/
def magnitudeData (s : State) : State := forneyStores (searchedData s)

/-- The data that phase `CORR` leaves after them. -/
def correctedData (s : State) : State := applyMagnitudes (magnitudeData s)

/-- The decoder comes from the received word to its correction: the gate passes, the locator has as many roots as its
degree, and no position is degenerate. -/
structure ReachesCorrection (s : State) : Prop where
  gate : 2 * (locatedData s).deg.toNat ≤ s.nsym.toNat
  rootCount : (searchedData s).nroot = (locatedData s).deg
  regular : degenerate (searchedData s) = false

/-- The state that both end in: the corrected word with its syndromes, reported as `OK`. -/
def decodedState (s : State) : State :=
  (computeSyndromes (correctedData s)).withReport (correctionReport (magnitudeData s))

theorem codewordLen_chienSearch (s : State) : codewordLen (chienSearch s) = codewordLen s := rfl

theorem codewordLen_forneyStores (s : State) : codewordLen (forneyStores s) = codewordLen s := rfl

theorem codewordLen_applyMagnitudes (s : State) : codewordLen (applyMagnitudes s) = codewordLen s := rfl

theorem nsym_locatedData (s : State) : (locatedData s).nsym = s.nsym := by
  rw [locatedData, phaseBma_eq, computeSyndromes_eq]

theorem dlen_locatedData (s : State) : (locatedData s).dlen = s.dlen := by
  rw [locatedData, phaseBma_eq, computeSyndromes_eq]

theorem codewordLen_locatedData (s : State) : codewordLen (locatedData s) = codewordLen s := by
  rw [codewordLen, dlen_locatedData, nsym_locatedData, codewordLen]

theorem codewordLen_searchedData (s : State) : codewordLen (searchedData s) = codewordLen s := by
  rw [searchedData, codewordLen_chienSearch, codewordLen_locatedData]

theorem codewordLen_correctedData (s : State) : codewordLen (correctedData s) = codewordLen s := by
  rw [correctedData, codewordLen_applyMagnitudes, magnitudeData, codewordLen_forneyStores, codewordLen_searchedData]

/-- The five stage commands, from any report, when the decoder reaches a correction. -/
theorem stages_reach_decodedState {s : State} (h : ¬ configIllegal s) (hreach : ReachesCorrection s) (r : Report) :
    ∃ s1 s2 s3 s4, exec .synd (s.withReport r) = .next s1 ∧ exec .bma s1 = .next s2 ∧ exec .chien s2 = .next s3 ∧
      exec .forney s3 = .next s4 ∧ exec .synd s4 = .next (decodedState s) := by
  obtain ⟨hgate, hcount, hregular⟩ := hreach
  have hlocated : ¬ configIllegal (locatedData s) := by rwa [configIllegal, codewordLen_locatedData]
  have hsearched : ¬ configIllegal (searchedData s) := by rwa [configIllegal, codewordLen_searchedData]
  have hcorrected : ¬ configIllegal (correctedData s) := by rwa [configIllegal, codewordLen_correctedData]
  exact ⟨_, _, _, _, exec_synd_withReport r h, exec_bma_withReport _ h hgate, exec_chien_withReport _ hlocated hcount,
    exec_forney_withReport _ hsearched hregular, exec_synd_withReport _ hcorrected⟩

/-- The report while `RSDEC` runs, before it corrects anything (rule R176). -/
def rsdecReport (s : State) (p : Phase) : Report where
  phase := p
  chain := true
  result := s.status.result
  cause := s.status.cause
  errcnt := 0
  paychg := false

theorem computeSyndromes_rsdecStart (s : State) :
    computeSyndromes (rsdecStart s) = (computeSyndromes s).withReport (rsdecReport s .syn) :=
  computeSyndromes_withReport s (rsdecReport s .syn)

theorem rsdecAfterBma_eq (s : State) : rsdecAfterBma s = (locatedData s).withReport (rsdecReport s .gate) := by
  rw [rsdecAfterBma, rsdecAfterSyn, computeSyndromes_rsdecStart]
  exact phaseBma_withReport (computeSyndromes s) (rsdecReport s .bma)

theorem rsdecBeforeForney_eq (s : State) :
    rsdecBeforeForney s = (searchedData s).withReport (rsdecReport s .forney) := by
  rw [rsdecBeforeForney, rsdecAfterSearch, rsdecAfterBma_eq]
  rfl

/-- An `RSDEC` that gives `OK` on a word that is no codeword has reached a correction and verified it (rule R176). -/
theorem rsdec_reaches_decodedState {s t : State} (h : ¬ configIllegal s) (hword : ¬ holdsCodeword s)
    (hexec : exec .rsdec s = .next t) (hok : t.status.result = .ok) : ReachesCorrection s ∧ t = decodedState s := by
  have hfail : ∀ c u, exec .rsdec s ≠ .next (toIdle (failWith c u)) := by
    intro c u e
    rw [hexec] at e
    cases e
    cases hok
  obtain ⟨hz, _⟩ | ⟨_, _, e⟩ | ⟨_, _, _, e⟩ | ⟨_, _, _, hbad, e⟩ | ⟨_, hgate, hcount, hgood, e⟩ := exec_rsdec_cases s h
  · exact absurd ((szero_computeSyndromes_iff_holdsCodeword (rsdecStart s)).mp hz) hword
  · exact absurd e (hfail _ _)
  · exact absurd e (hfail _ _)
  · obtain ⟨_, e'⟩ | ⟨hgood, _⟩ := phaseForney_cases (rsdecBeforeForney s)
    · exact absurd (e' ▸ e) (hfail _ _)
    · exact absurd (hgood.symm.trans hbad) (by decide)
  · have hregular : degenerate (rsdecBeforeForney s) = false := hgood
    rw [rsdecBeforeForney_eq, degenerate_withReport] at hregular
    rw [rsdecAfterBma_eq] at hgate
    rw [rsdecAfterSearch, rsdecAfterBma_eq] at hcount
    have hgate' : 2 * (locatedData s).deg.toNat ≤ s.nsym.toNat := nsym_locatedData s ▸ hgate
    refine ⟨⟨hgate', hcount, hregular⟩, ?_⟩
    rw [rsdecBeforeForney_eq, phaseForney_withReport _ _ hregular, phaseCorr_withReport_of_chain _ _ rfl] at e
    obtain rfl : t = _ := Host.Outcome.next.inj (hexec.symm.trans e)
    exact phaseVerify_withReport _ _ hok

/-- Settles O47: both leave the data that the same computations give, and differ on the way in their reports alone. -/
theorem stagesAgreeWithTheComposite : Obligations.StagesAgreeWithTheComposite := by
  intro s t hlegal hword hexec hok
  obtain ⟨hreach, rfl⟩ := rsdec_reaches_decodedState (Nat.not_lt.mpr hlegal) hword hexec hok
  exact stages_reach_decodedState (Nat.not_lt.mpr hlegal) hreach
    ⟨s.phase, s.chain, s.status.result, s.status.cause, s.errcnt, s.status.paychg⟩

end Sys2Proof.Machine

/-! # Proofs of the family 43_rs_decoder_correct: `CHIEN`, `FORNEY`, and what `RSDEC` guarantees -/

namespace Sys2Proof.Machine

/-! ### A run of phases as steps -/

theorem run_succ_of_next {M : Host.Core} (n : Nat) {s t : M.State} (h : M.step s = .next t) :
    M.run (n + 1) s = M.run n t := by
  rw [Host.Core.run, h]

/-- With no host operation pending a step of a legal block is one pass of the sequencer's loop, so a run of steps is a run
of phases (rules R37, R176). -/
theorem run_eq_runPhases (n : Nat) {s : State} (hscript : s.script = []) (hc : ¬ configIllegal s) :
    Sys2Proof.core.run n s = .next (runPhases n s) := by
  induction n generalizing s with
  | zero => rfl
  | succ n ih =>
    obtain ⟨_, hidle, e⟩ | ⟨_, hillegal, _⟩ | ⟨hbusy, _, e⟩ | ⟨_, _, hpending, _⟩ := step_cases s
    · have hwait : runPhases n s = runPhases (n + 1) s := by
        rw [runPhases_idle n s hidle, runPhases_idle (n + 1) s hidle]
      exact (run_succ_of_next (M := Sys2Proof.core) n e).trans (hwait ▸ ih hscript hc)
    · exact absurd hillegal hc
    · obtain ⟨_, hdlen, hnsym, _, _, _, hkeep, _⟩ := runPhase_frame s
      have hc' : ¬ configIllegal (runPhase s) := by rwa [configIllegal, codewordLen, hdlen, hnsym]
      rw [runPhases_running n s hbusy]
      exact (run_succ_of_next (M := Sys2Proof.core) n e).trans (ih (hkeep.trans hscript) hc')
    · exact absurd (hpending.symm.trans hscript) (List.cons_ne_nil _ _)

/-- A Reed-Solomon command accepted with no host operation pending agrees with seven steps from its start state. -/
theorem exec_eq_run {i : Instr} {s : State} (hi : isReedSolomon i = true) (hscript : s.script = [])
    (hc : ¬ configIllegal s) : exec i s = Sys2Proof.core.run 7 (rsStart i s) := by
  have hstart : (rsStart i s).script = [] := by cases i <;> exact hscript
  have hlegal : ¬ configIllegal (rsStart i s) := by rwa [configIllegal, codewordLen_rsStart]
  rw [exec_of_isReedSolomon s hi, rsCommand_legal i s _ hc, run_eq_runPhases 7 hstart hlegal]
  rfl

/-- Settles O48: one command's loop over its phases against the same loop made by steps. -/
theorem phaseStepsAgreeWithCommandSteps : Obligations.PhaseStepsAgreeWithCommandSteps := by
  intro s hscript hlegal
  have hc : ¬ configIllegal s := Nat.not_lt.mpr hlegal
  exact ⟨exec_eq_run rfl hscript hc, exec_eq_run rfl hscript hc, exec_eq_run rfl hscript hc,
    exec_eq_run rfl hscript hc, exec_eq_run rfl hscript hc, exec_eq_run rfl hscript hc⟩

/-! ### Every command comes to rest -/

/-- The phases on the longest path from a phase to the end of its command, the phase itself counted (rule R177). -/
def phasesLeft : Phase → Nat
  | .idle => 0
  | .div | .verify => 1
  | .gen | .corr => 2
  | .forney => 3
  | .chien => 4
  | .gate => 5
  | .bma => 6
  | .syn => 7

theorem phasesLeft_le_longestPath (p : Phase) : phasesLeft p ≤ longestPath := by cases p <;> decide

/-- A phase ends the command or goes on to a phase nearer to the end (rule R177). -/
theorem runPhase_progress {s : State} (hbusy : s.phase ≠ .idle) :
    atRest (runPhase s) ∨
    ((runPhase s).phase ≠ .idle ∧ phasesLeft (runPhase s).phase < phasesLeft s.phase) := by
  unfold runPhase atRest
  cases hp : s.phase with
  | idle => exact absurd hp hbusy
  | gen => simp [phaseGen_eq, phasesLeft]
  | div => simp [phaseDiv_eq]
  | syn => obtain ⟨_, e⟩ | ⟨_, _, e⟩ := phaseSyn_cases s <;> simp [e, phasesLeft]
  | bma => simp [phaseBma_eq s, phasesLeft]
  | gate => obtain ⟨_, e⟩ | ⟨_, _, e⟩ | ⟨_, _, e⟩ := phaseGate_cases s <;> simp [e, phasesLeft]
  | chien => obtain ⟨_, e⟩ | ⟨_, _, e⟩ | ⟨_, _, e⟩ := phaseChien_cases s <;> simp [e, phasesLeft]
  | forney => obtain ⟨_, e⟩ | ⟨_, e⟩ := phaseForney_cases s <;> simp [e, phasesLeft]
  | corr => obtain ⟨_, e⟩ | ⟨_, e⟩ := phaseCorr_cases s <;> simp [e, phasesLeft]
  | verify => obtain ⟨_, e⟩ | ⟨_, e⟩ := phaseVerify_cases s <;> simp [e]

/-- As many passes as there are phases left bring a running command to rest. -/
theorem atRest_runPhases {n : Nat} {s : State} (hbusy : s.phase ≠ .idle) (hn : phasesLeft s.phase ≤ n) :
    atRest (runPhases n s) := by
  induction n generalizing s with
  | zero => cases hp : s.phase <;> simp [hp, phasesLeft] at hbusy hn
  | succ n ih =>
    rw [runPhases_running n s hbusy]
    obtain hrest | ⟨hbusy', hlt⟩ := runPhase_progress hbusy
    · rwa [runPhases_idle n _ hrest.1]
    · exact ih hbusy' (by omega)

theorem atRest_raiseFault (cause : FaultCause) (info : Word) (s : State) : atRest (raiseFault cause info s) :=
  ⟨raiseFault_phase cause info s, raiseFault_chain cause info s⟩

theorem rsStart_busy {i : Instr} (s : State) (hi : isReedSolomon i = true) : (rsStart i s).phase ≠ .idle := by
  cases i with
  | rsenc | rsdec | synd | bma | chien | forney => exact nofun
  | nop | clrf | gfmul | gfdiv | gfpow | gfinv => cases hi

/-- A Reed-Solomon command ends at rest, whatever state it is issued in (rules R177, R249). -/
theorem atRest_rsCommand {i : Instr} (s : State) (hi : isReedSolomon i = true) :
    atRest (rsCommand i s (rsStart i s)) := by
  by_cases hc : configIllegal s
  · rw [rsCommand_illegal i s _ hc]
    exact atRest_raiseFault _ _ s
  · rw [rsCommand_legal i s _ hc]
    exact atRest_runPhases (rsStart_busy s hi) (phasesLeft_le_longestPath _)

/-- Every command has a next state in every state. -/
theorem exists_exec_eq_next (i : Instr) (s : State) : ∃ t, exec i s = .next t := by
  have hgf : isGf i = true → ∃ t, exec i s = .next t := fun hi =>
    (exec_of_isGf s hi).elim (fun ⟨_, e⟩ => ⟨_, e⟩) fun e => ⟨_, e⟩
  cases i with
  | nop | clrf => exact ⟨_, rfl⟩
  | gfmul | gfdiv | gfpow | gfinv => exact hgf rfl
  | rsenc | rsdec | synd | bma | chien | forney => exact ⟨_, exec_of_isReedSolomon s rfl⟩

theorem atRest_of_exec {i : Instr} {s t : State} (hs : atRest s) (h : exec i s = .next t) : atRest t := by
  obtain ⟨_, rfl⟩ | ⟨_, rfl⟩ | ⟨_, r, rfl⟩ | ⟨_, rfl⟩ | ⟨hi, rfl⟩ := exec_cases h
  · exact hs
  · exact hs
  · exact hs
  · exact atRest_raiseFault _ _ s
  · exact atRest_rsCommand s hi

theorem atRest_hostCmd (w : Word) {s : State} (hs : atRest s) : ∃ t, hostCmd w s = .next t ∧ atRest t := by
  obtain ⟨_, _, e⟩ | ⟨_, _, e⟩ | ⟨_, _, _, e⟩ | ⟨_, i, _, e⟩ := hostCmd_cases w s
  · exact ⟨_, e, hs⟩
  · exact ⟨_, e, hs⟩
  · exact ⟨_, e, atRest_raiseFault _ _ s⟩
  · obtain ⟨t, ht⟩ := exists_exec_eq_next i s
    exact ⟨t, e.trans ht, atRest_of_exec hs ht⟩

theorem atRest_hostRead (space : BitVec 4) (index : BitVec 16) {s : State} (hs : atRest s) :
    atRest (hostRead space index s) := by
  obtain ⟨_, _, e⟩ | ⟨_, e⟩ := hostRead_cases space index s <;> rw [e]
  · exact hs
  · exact atRest_raiseFault _ _ _

theorem atRest_hostWrite (space : BitVec 4) (index : BitVec 16) (data : Word) {s : State} (hs : atRest s) :
    atRest (hostWrite space index data s) := by
  obtain ⟨t, ht, e⟩ | ⟨_, e⟩ := hostWrite_cases space index data s <;> rw [e]
  · obtain ⟨_, _, rfl⟩ | ⟨_, _, rfl⟩ | ⟨_, _, rfl⟩ := entryWrite_cases s t space index data ht <;> exact hs
  · exact atRest_raiseFault _ _ s

/-- Settles O51: a command's phases run out within its one step, and no other host operation starts any. -/
theorem stepKeepsTheBlockAtRest : Obligations.StepKeepsTheBlockAtRest := by
  intro s hs
  obtain ⟨_, _, e⟩ | ⟨hbusy, _⟩ | ⟨hbusy, _⟩ | ⟨op, rest, _, _, e⟩ := step_cases s
  · exact ⟨s, e, hs⟩
  · exact absurd hs.1 hbusy
  · exact absurd hs.1 hbusy
  · have hr : atRest { s with script := rest } := hs
    rw [e]
    cases op with
    | read space index => exact ⟨_, rfl, atRest_hostRead space index hr⟩
    | write space index data => exact ⟨_, rfl, atRest_hostWrite space index data hr⟩
    | cmd w => exact atRest_hostCmd w hr
    | reset => exact ⟨_, rfl, rfl, rfl⟩

/-! ### CHIEN -/

/-- The list holds the byte index of every root of the locator among the codeword's positions, and nothing else
(rule R170). -/
theorem mem_chienSearch_iff {s : State} (hc : ¬ configIllegal s) (p : Nat) :
    (∃ k, k < (chienSearch s).nroot.toNat ∧ (Mem.read (chienSearch s).epos k).toNat = p) ↔
      p < codewordLen s ∧ locatorAt s.tables s.sigma s.deg.toNat (alphaInv s.tables (codewordLen s - 1 - p)) = 0 := by
  have hn : codewordLen s ≤ Config.maxCodeword := Nat.le_of_not_lt hc
  have hlen := length_chienRoots_le s.tables s.sigma s.deg.toNat (codewordLen s)
  have hroot : ∀ i, i ∈ chienRoots s.tables s.sigma s.deg.toNat (codewordLen s) ↔ i < codewordLen s ∧
      locatorAt s.tables s.sigma s.deg.toNat (alphaInv s.tables i) = 0 := fun i => by simp [chienRoots]
  simp only
  generalize chienRoots s.tables s.sigma s.deg.toNat (codewordLen s) = roots at hlen hroot
  have hcount : (BitVec.ofNat 8 roots.length).toNat = roots.length := by
    simp only [Config.maxCodeword] at hn
    rw [BitVec.toNat_ofNat]; exact Nat.mod_eq_of_lt (by omega)
  rw [hcount]
  constructor
  · rintro ⟨k, hk, rfl⟩
    obtain ⟨hlt, hzero⟩ := (hroot _).mp (List.getElem_mem hk)
    have hback : codewordLen s - 1 - (codewordLen s - 1 - roots[k]) = roots[k] := by omega
    rw [toNat_read_rootPositions hn hlen hk, hback]
    exact ⟨by omega, hzero⟩
  · rintro ⟨hp, hzero⟩
    obtain ⟨k, hk, hkp⟩ := List.mem_iff_getElem.mp ((hroot _).mpr ⟨by omega, hzero⟩)
    exact ⟨k, hk, by rw [toNat_read_rootPositions hn hlen hk, hkp]; omega⟩

/-- Settles O38: the list is that of the search, and the root count decides the verdict. -/
theorem chienListsTheRoots : Obligations.ChienListsTheRoots := by
  intro s hlegal
  have hc : ¬ configIllegal s := Nat.not_lt.mpr hlegal
  obtain ⟨htail, hdescending⟩ := rootListLegal_chienSearch hc
  have hmem := mem_chienSearch_iff hc
  refine ⟨_, exec_chien_legal s hc, ?_⟩
  obtain ⟨hne, e⟩ | ⟨_, hchain, _⟩ | ⟨heq, _, e⟩ := phaseChien_cases { s with chain := false, phase := .chien }
  · rw [e]
    exact ⟨rfl, hmem, hdescending, htail, fun _ => ⟨rfl, rfl⟩, fun heq => absurd heq hne⟩
  · cases hchain
  · rw [e]
    exact ⟨rfl, hmem, hdescending, htail, fun hne => absurd heq hne, fun _ => ⟨rfl, rfl⟩⟩

/-! ### FORNEY -/

theorem magnitudeAt_of_ge (T : Tables) (omega sigma : Mem) (deg nsym : Nat) {n pos : Nat} (h : n ≤ pos) :
    magnitudeAt T omega sigma deg nsym n pos = none := if_pos h

/-- Inside the codeword the magnitude is X times the quotient, if there is one (rule R172). -/
theorem magnitudeAt_of_lt (T : Tables) (omega sigma : Mem) (deg nsym : Nat) {n pos : Nat} (h : pos < n) :
    magnitudeAt T omega sigma deg nsym n pos =
      (gfDiv T (evaluatorAt T omega nsym (alphaInv T (n - 1 - pos)))
        (derivativeAt T sigma deg (alphaInv T (n - 1 - pos)))).map (gfMul T (alpha T (n - 1 - pos))) := by
  unfold magnitudeAt
  rw [if_neg (Nat.not_le.mpr h)]
  dsimp only
  cases gfDiv T (evaluatorAt T omega nsym (alphaInv T (n - 1 - pos)))
    (derivativeAt T sigma deg (alphaInv T (n - 1 - pos))) <;> rfl

/-- A position has no magnitude exactly where it is outside the codeword or has a zero derivative (rule R172, `bad`). -/
theorem magnitudeAt_eq_none_iff (T : Tables) (omega sigma : Mem) (deg nsym n pos : Nat) :
    magnitudeAt T omega sigma deg nsym n pos = none ↔
      n ≤ pos ∨ derivativeAt T sigma deg (alphaInv T (n - 1 - pos)) = 0 := by
  obtain hout | hin := Nat.lt_or_ge pos n |>.symm
  · exact iff_of_true (magnitudeAt_of_ge _ _ _ _ _ hout) (.inl hout)
  · rw [magnitudeAt_of_lt _ _ _ _ _ hin, Option.map_eq_none_iff, gfDiv_eq_none, or_iff_right (Nat.not_le.mpr hin)]

/-- A magnitude times the derivative is X Ω(X⁻¹) (rule R172). -/
theorem gfMul_magnitude_derivative {T : Tables} (hT : tablesIntact T) {omega sigma : Mem} {deg nsym n pos : Nat} {v : Byte}
    (h : magnitudeAt T omega sigma deg nsym n pos = some v) :
    gfMul T v (derivativeAt T sigma deg (alphaInv T (n - 1 - pos))) =
      gfMul T (alpha T (n - 1 - pos)) (evaluatorAt T omega nsym (alphaInv T (n - 1 - pos))) := by
  have hsome := (magnitudeAt_eq_none_iff T omega sigma deg nsym n pos).not.mp (h ▸ Option.some_ne_none v)
  obtain ⟨hin, hregular⟩ := not_or.mp hsome
  rw [magnitudeAt_of_lt _ _ _ _ _ (Nat.not_le.mp hin)] at h
  obtain ⟨q, hq, rfl⟩ := Option.map_eq_some_iff.mp h
  rw [gfMul_assoc hT, (gfDiv_eq_some_iff hT hregular q).mp hq]

/-- The magnitude at the `k`-th listed position (rule R172). -/
def listedMagnitude (s : State) (k : Nat) : Option Byte :=
  magnitudeAt s.tables (forneyOmega s) s.sigma s.deg.toNat s.nsym.toNat (codewordLen s) (Mem.read s.epos k).toNat

theorem magnitudes_eq_map (s : State) :
    magnitudes s (forneyOmega s) = (List.range s.nroot.toNat).map (listedMagnitude s) := rfl

theorem degenerate_iff (s : State) : degenerate s = true ↔ ∃ k, k < s.nroot.toNat ∧ listedMagnitude s k = none := by
  simp [degenerate, magnitudes_eq_map]

/-- Entry `k` of `EMAG` where no position is degenerate: the magnitude of the `k`-th listed position. -/
theorem listedMagnitude_eq_some {s : State} (h : degenerate s = false) {k : Nat} (hk : k < s.nroot.toNat) :
    listedMagnitude s k = some (Mem.read (forneyStores s).emag k) := by
  obtain ⟨v, hv⟩ : ∃ v, listedMagnitude s k = some v := Option.ne_none_iff_exists'.mp fun hnone =>
    Bool.false_ne_true (h.symm.trans ((degenerate_iff s).mpr ⟨k, hk, hnone⟩))
  have hstore : k < Config.storeSize := hk.trans s.nroot.isLt
  have hread : Mem.read (forneyStores s).emag k = v := by
    simp [forneyStores, magnitudeStore, Mem.read_tabulate, magnitudes_eq_map, hstore, hk, hv]
  rw [hv, hread]

theorem read_emag_forneyStores_of_ge (s : State) {k : Nat} (hk : s.nroot.toNat ≤ k) :
    Mem.read (forneyStores s).emag k = 0 := by
  have hnot : ¬ k < s.nroot.toNat := Nat.not_lt.mpr hk
  simp [forneyStores, magnitudeStore, Mem.read_tabulate, magnitudes_eq_map, hnot]

theorem read_forneyOmega (s : State) (j : Nat) : Mem.read (forneyOmega s) j = if j < s.nsym.toNat then
    xorSum (min j s.deg.toNat + 1) (fun i => gfMul s.tables (Mem.read s.sigma i) (Mem.read s.synd (j - i))) else 0 := by
  have hstore := nsym_le_storeSize s
  rw [forneyOmega, errorEvaluator, Mem.read_tabulate]
  split
  · rfl
  · rw [if_neg (by omega)]

/-- A store with every entry cleared reads as 0 throughout. -/
theorem read_tabulate_zero (a : Nat) : Mem.read (Mem.tabulate (fun _ => 0)) a = 0 := by
  rw [Mem.read_tabulate]; exact ite_self 0

/-- `PAYCHG` is set where some magnitude at a payload position is not 0 (rule R173). -/
theorem payloadChanged_iff (epos emag : Mem) (nroot : Nat) (dlen : Byte) : payloadChanged epos emag nroot dlen = true ↔
    ∃ k, k < nroot ∧ (Mem.read epos k).toNat < dlen.toNat ∧ Mem.read emag k ≠ 0 := by
  simp [payloadChanged, BitVec.lt_def]

/-- The state's own report, so that the state is its data with it. -/
def State.report (s : State) : Report :=
  ⟨s.phase, s.chain, s.status.result, s.status.cause, s.errcnt, s.status.paychg⟩

theorem withReport_report (s : State) : s.withReport s.report = s := rfl

/-- `FORNEY` where some position is degenerate: it clears `EMAG` and corrects nothing (rules R172, R174). -/
theorem exec_forney_degenerate {s : State} (h : ¬ configIllegal s) (hbad : degenerate s = true) :
    ∃ zeros, (∀ k, Mem.read zeros k = 0) ∧ exec .forney s = .next { s with
      omega := forneyOmega s, emag := zeros
      status := { s.status with result := .fail, cause := .degenerateLocator }, phase := .idle, chain := false } := by
  have hphases : exec .forney s = .next (if degenerate s = true
      then phaseForney { s with chain := false, phase := .forney }
      else phaseCorr (phaseForney { s with chain := false, phase := .forney })) := exec_forney_legal s h
  refine ⟨Mem.tabulate (fun _ => 0), read_tabulate_zero, ?_⟩
  rw [hphases, if_pos hbad]
  obtain ⟨_, e⟩ | ⟨hgood, _⟩ := phaseForney_cases { s with chain := false, phase := .forney }
  · rw [e]
    -- kept opaque, so that comparing the two states does not evaluate it
    generalize Mem.tabulate (fun _ => 0) = zeros
    rfl
  · exact absurd (hbad.symm.trans hgood) (by decide)

/-- The state that `FORNEY` leaves where no position is degenerate. -/
def forneyState (s : State) : State :=
  { s with
    omega := forneyOmega s
    emag := (forneyStores s).emag
    cw := correctBytes s.cw s.epos (forneyStores s).emag s.nroot.toNat
    errcnt := s.nroot
    status := { s.status with
      result := .ok, cause := .none, paychg := payloadChanged s.epos (forneyStores s).emag s.nroot.toNat s.dlen }
    phase := .idle
    chain := false }

/-- `FORNEY` where no position is degenerate (rules R172 to R174). -/
theorem exec_forney_regular {s : State} (h : ¬ configIllegal s) (hregular : degenerate s = false) :
    exec .forney s = .next (forneyState s) := by
  rw [← withReport_report s]
  exact exec_forney_withReport s.report h hregular

theorem read_correctBytes_of_unlisted (cw : Mem) {epos : Mem} (emag : Mem) {n a : Nat}
    (h : ∀ k, k < n → (Mem.read epos k).toNat ≠ a) : Mem.read (correctBytes cw epos emag n) a = Mem.read cw a := by
  rw [read_correctBytes, xorSum_eq_zero fun k hk => if_neg (h k hk)]
  exact BitVec.xor_zero

/-- Settles O39: the two ways `FORNEY` ends, by whether a listed position is degenerate. -/
theorem forneyCorrectsOrRefuses : Obligations.ForneyCorrectsOrRefuses := by
  intro s hT hlegal T n pos xi bad
  have hc : ¬ configIllegal s := Nat.not_lt.mpr hlegal
  have hbad : bad ↔ degenerate s = true := by
    rw [degenerate_iff]
    exact exists_congr fun k => and_congr_right fun _ => (magnitudeAt_eq_none_iff ..).symm
  cases hdeg : degenerate s with
  | true =>
    obtain ⟨zeros, hzeros, e⟩ := exec_forney_degenerate hc hdeg
    exact ⟨_, e, read_forneyOmega s, fun _ => ⟨rfl, hzeros⟩, fun hnot => absurd (hbad.mpr hdeg) hnot⟩
  | false =>
    refine ⟨_, exec_forney_regular hc hdeg, read_forneyOmega s, fun hb => ?_, fun _ =>
      ⟨rfl, fun k hk => gfMul_magnitude_derivative hT (listedMagnitude_eq_some hdeg hk),
        fun k hk => read_emag_forneyStores_of_ge s hk, read_correctBytes s.cw s.epos (forneyStores s).emag s.nroot.toNat,
        fun a ha => read_correctBytes_of_unlisted s.cw _ ha, payloadChanged_iff ..⟩⟩
    exact absurd ((hbad.mp hb).symm.trans hdeg) (by decide)

/-- Magnitudes applied twice cancel in every byte (rules R174, R175). -/
theorem read_correctBytes_twice (cw epos emag : Mem) (n a : Nat) :
    Mem.read (correctBytes (correctBytes cw epos emag n) epos emag n) a = Mem.read cw a := by
  rw [read_correctBytes, read_correctBytes, BitVec.xor_assoc, BitVec.xor_self, BitVec.xor_zero]

/-! #### What `FORNEY` reads it does not write -/

section ForneyState

variable (s : State)

/-- A second run finds the same magnitudes at the same positions. -/
theorem magnitudes_forneyState : magnitudes (forneyState s) (forneyOmega (forneyState s)) = magnitudes s (forneyOmega s) :=
  rfl

theorem degenerate_forneyState : degenerate (forneyState s) = degenerate s := by
  rw [degenerate, magnitudes_forneyState, degenerate]

theorem emag_forneyStores_forneyState : (forneyStores (forneyState s)).emag = (forneyStores s).emag := by
  simp only [forneyStores, magnitudes_forneyState]

/-- The second run reports the same and applies the same magnitudes once more. -/
theorem forneyState_forneyState : forneyState (forneyState s) =
    { forneyState s with cw := correctBytes (forneyState s).cw s.epos (forneyStores s).emag s.nroot.toNat } := by
  rw [forneyState, emag_forneyStores_forneyState]
  rfl

end ForneyState

/-- Settles O40: the second run applies the same magnitudes and reports the same. -/
theorem forneyTwiceRestoresTheBuffer : Obligations.ForneyTwiceRestoresTheBuffer := by
  intro s t hlegal hexec hok
  have hc : ¬ configIllegal s := Nat.not_lt.mpr hlegal
  cases hdeg : degenerate s with
  | true =>
    obtain ⟨_, _, e⟩ := exec_forney_degenerate hc hdeg
    rw [e] at hexec
    cases hexec
    cases hok
  | false =>
    rw [exec_forney_regular hc hdeg] at hexec
    cases hexec
    have hc' : ¬ configIllegal (forneyState s) := hc
    have hdeg' : degenerate (forneyState s) = false := (degenerate_forneyState s).trans hdeg
    have hsecond := exec_forney_regular hc' hdeg'
    rw [forneyState_forneyState] at hsecond
    exact ⟨_, hsecond, read_correctBytes_twice s.cw s.epos (forneyStores s).emag s.nroot.toNat, rfl, rfl⟩

/-! ### RSDEC -/

/-- Phase `VERIFY` undoes what phase `CORR` did (rule R175). -/
theorem correctBytes_correctBytes {cw : Mem} (hcw : Mem.wf cw = true) (epos emag : Mem) (n : Nat) :
    correctBytes (correctBytes cw epos emag n) epos emag n = cw :=
  Mem.ext (wf_correctBytes _ _ _ _ (wf_correctBytes _ _ _ _ hcw)) hcw (read_correctBytes_twice cw epos emag n)

/-- A decoder that returns `OK` has verified a codeword, which differs from the received word of `s` at no more than `ERRCNT`
listed positions (rules R175, R176). -/
structure WordCorrected (s t : State) : Prop where
  result : t.status.result = .ok
  cause : t.status.cause = .none
  szero : t.status.szero = true
  codeword : holdsCodeword t
  synd : ∀ i, Mem.read t.synd i = 0
  errcnt : 2 * t.errcnt.toNat ≤ s.nsym.toNat
  others : ∀ a, (∀ k, k < t.errcnt.toNat → (Mem.read t.epos k).toNat ≠ a) → Mem.read t.cw a = Mem.read s.cw a

/-- A decoder that returns `FAIL` says why, and leaves the received word of `s` with no correction counted (rules R175,
R176). -/
structure WordLeft (s t : State) : Prop where
  result : t.status.result = .fail
  cause : t.status.cause ≠ .none
  cw : t.cw = s.cw
  errcnt : t.errcnt = 0
  paychg : t.status.paychg = false

@[simp] theorem cw_computeSyndromes (s : State) : (computeSyndromes s).cw = s.cw := rfl
@[simp] theorem epos_computeSyndromes (s : State) : (computeSyndromes s).epos = s.epos := rfl
@[simp] theorem errcnt_computeSyndromes (s : State) : (computeSyndromes s).errcnt = s.errcnt := rfl

@[simp] theorem emag_computeSyndromes (s : State) : (computeSyndromes s).emag = s.emag := rfl
@[simp] theorem nroot_computeSyndromes (s : State) : (computeSyndromes s).nroot = s.nroot := rfl

theorem holdsCodeword_computeSyndromes_iff (s : State) : holdsCodeword (computeSyndromes s) ↔ holdsCodeword s := Iff.rfl

/-- The end with `OK`, at the first syndromes and at the last: the buffer holds a codeword (rules R151, R175). -/
theorem wordCorrected_of_szero {s u : State} (hz : (computeSyndromes u).status.szero = true)
    (herrcnt : 2 * u.errcnt.toNat ≤ s.nsym.toNat)
    (hothers : ∀ a, (∀ k, k < u.errcnt.toNat → (Mem.read u.epos k).toNat ≠ a) → Mem.read u.cw a = Mem.read s.cw a) :
    WordCorrected s (toIdle (setOk (computeSyndromes u))) where
  result := rfl
  cause := rfl
  szero := hz
  codeword :=
    (holdsCodeword_computeSyndromes_iff u).mpr ((szero_computeSyndromes_iff_holdsCodeword u).mp hz)
  synd i := by
    obtain hi | hi := Nat.lt_or_ge i u.nsym.toNat
    · exact (szero_computeSyndromes_iff u).mp hz i hi
    · exact (read_computeSyndromes u i).trans (if_neg (Nat.not_lt.mpr hi))
  errcnt := by simpa using herrcnt
  others := by simpa using hothers

theorem cw_locatedData (s : State) : (locatedData s).cw = s.cw := by
  rw [locatedData, phaseBma_eq, computeSyndromes_eq]

/-- Every end of `RSDEC` before phase `CORR` leaves the received word (rule R176). -/
theorem wordLeft_of_failWith {c : FailCause} (hc : c ≠ .none) {s u : State} (hcw : u.cw = s.cw) (herrcnt : u.errcnt = 0)
    (hpaychg : u.status.paychg = false) : WordLeft s (toIdle (failWith c u)) :=
  ⟨rfl, hc, hcw, herrcnt, hpaychg⟩

/-- The verdict of phase `VERIFY` on the word of `s` with the listed magnitudes applied and counted: a codeword with few
enough corrections, or the word of `s` restored (rule R175). -/
theorem phaseVerify_guarantee {s u : State} (hcw : Mem.wf s.cw = true)
    (happlied : u.cw = correctBytes s.cw u.epos u.emag u.nroot.toNat) (hcounted : u.errcnt = u.nroot)
    (hfew : 2 * u.nroot.toNat ≤ s.nsym.toNat) : WordCorrected s (phaseVerify u) ∨ WordLeft s (phaseVerify u) := by
  obtain ⟨hz, e⟩ | ⟨_, e⟩ := phaseVerify_cases u
  · rw [e]
    refine .inl (wordCorrected_of_szero hz (hcounted ▸ hfew) fun a ha => ?_)
    rw [happlied]
    exact read_correctBytes_of_unlisted s.cw _ (hcounted ▸ ha)
  · have hundone : (applyMagnitudes (computeSyndromes u)).cw = s.cw := by
      simp only [applyMagnitudes_eq, cw_computeSyndromes, epos_computeSyndromes, emag_computeSyndromes,
        nroot_computeSyndromes]
      rw [happlied, correctBytes_correctBytes hcw]
    rw [e]
    exact .inr (wordLeft_of_failWith (by decide) hundone rfl rfl)

/-- Up to phase `CORR` `RSDEC` has corrected nothing and cleared the counts of an earlier correction (rule R176). -/
theorem rsdecAfterBma_uncorrected (s : State) :
    (rsdecAfterBma s).cw = s.cw ∧ (rsdecAfterBma s).errcnt = 0 ∧ (rsdecAfterBma s).status.paychg = false := by
  rw [rsdecAfterBma_eq]
  exact ⟨cw_locatedData s, rfl, rfl⟩

/-- The state in which `RSDEC` enters phase `VERIFY`: the corrected data, the correction counted (rule R173). -/
def rsdecBeforeVerify (s : State) : State :=
  (correctedData s).withReport { correctionReport (magnitudeData s) with
    phase := .verify, chain := true, result := s.status.result, cause := s.status.cause }

theorem phaseCorr_phaseForney_rsdec {s : State} (hregular : degenerate (searchedData s) = false) :
    phaseCorr (phaseForney (rsdecBeforeForney s)) = rsdecBeforeVerify s := by
  rw [rsdecBeforeForney_eq, phaseForney_withReport _ _ hregular, phaseCorr_withReport_of_chain _ _ rfl,
    rsdecBeforeVerify, correctedData, magnitudeData]
  rfl

theorem cw_applyMagnitudes_withReport (s : State) (r : Report) : ((applyMagnitudes s).withReport r).cw =
    correctBytes s.cw ((applyMagnitudes s).withReport r).epos ((applyMagnitudes s).withReport r).emag
      ((applyMagnitudes s).withReport r).nroot.toNat := rfl

theorem cw_rsdecBeforeVerify (s : State) : (rsdecBeforeVerify s).cw = correctBytes s.cw (rsdecBeforeVerify s).epos
    (rsdecBeforeVerify s).emag (rsdecBeforeVerify s).nroot.toNat := by
  have hword : (magnitudeData s).cw = s.cw := cw_locatedData s
  rw [rsdecBeforeVerify, correctedData, cw_applyMagnitudes_withReport, hword]

/-- The guarantee of `RSDEC`, by the phase at which it ends (rules R175, R176). -/
theorem exec_rsdec_guarantee {s t : State} (hcw : Mem.wf s.cw = true) (hc : ¬ configIllegal s)
    (h : exec .rsdec s = .next t) : WordCorrected s t ∨ WordLeft s t := by
  obtain ⟨hword, herrcnt, hpaychg⟩ := rsdecAfterBma_uncorrected s
  obtain ⟨hz, e⟩ | ⟨_, _, e⟩ | ⟨_, _, _, e⟩ | ⟨_, _, _, hbad, e⟩ | ⟨_, hgate, hcount, hregular, e⟩ :=
    exec_rsdec_cases s hc <;> obtain rfl := Host.Outcome.next.inj (e.symm.trans h)
  · exact .inl (wordCorrected_of_szero hz (Nat.zero_le _) fun _ _ => rfl)
  · exact .inr (wordLeft_of_failWith (by decide) hword herrcnt hpaychg)
  · exact .inr (wordLeft_of_failWith (by decide) hword herrcnt hpaychg)
  · obtain ⟨_, e'⟩ | ⟨hgood, _⟩ := phaseForney_cases (rsdecBeforeForney s)
    · rw [e']
      exact .inr (wordLeft_of_failWith (by decide) hword herrcnt hpaychg)
    · exact absurd (hgood.symm.trans hbad) (by decide)
  · have hregular : degenerate (rsdecBeforeForney s) = false := hregular
    rw [rsdecBeforeForney_eq, degenerate_withReport] at hregular
    rw [rsdecAfterBma_eq] at hgate
    rw [rsdecAfterSearch, rsdecAfterBma_eq] at hcount
    rw [phaseCorr_phaseForney_rsdec hregular]
    have hnroot : (rsdecBeforeVerify s).nroot = (locatedData s).deg := hcount
    have hfew : 2 * (locatedData s).deg.toNat ≤ s.nsym.toNat := nsym_locatedData s ▸ hgate
    exact phaseVerify_guarantee hcw (cw_rsdecBeforeVerify s) rfl (hnroot ▸ hfew)

/-- No run of phases writes the fault registers. -/
theorem runPhases_keeps_fault (n : Nat) (s : State) :
    (runPhases n s).status.fault = s.status.fault ∧ (runPhases n s).finfo = s.finfo :=
  runPhases_induction (fun t => t.status.fault = s.status.fault ∧ t.finfo = s.finfo)
    (fun t ⟨hf, hi⟩ =>
      have ⟨_, _, _, _, hfault, hfinfo, _⟩ := runPhase_frame t
      ⟨hfault.trans hf, hfinfo.trans hi⟩) n s ⟨rfl, rfl⟩

/-- What an accepted `RSDEC` leaves as it was, and the sequencer at rest (rules R176, R177). -/
theorem exec_rsdec_frame {s t : State} (hc : ¬ configIllegal s) (h : exec .rsdec s = .next t) :
    t = { t with
      tables := s.tables, dlen := s.dlen, nsym := s.nsym, res := s.res, g := s.g, finfo := s.finfo,
      status := { t.status with fault := s.status.fault }, script := s.script, returned := s.returned,
      phase := .idle, chain := false } := by
  have hwrites : WritesOnlyNamed .rsdec s t := onlyTheNamedCommandsWrite _ s t h
  obtain ⟨⟨htables, hdlen, hnsym, hscript, hreturned⟩, hres, hg, _⟩ := hwrites
  have hrun : runPhases longestPath (rsStart .rsdec s) = t :=
    Host.Outcome.next.inj ((rsCommand_legal .rsdec s _ hc ▸ exec_of_isReedSolomon s rfl).symm.trans h)
  obtain ⟨hfault, hfinfo⟩ := runPhases_keeps_fault longestPath (rsStart .rsdec s)
  have hrest : atRest t := hrun ▸ atRest_runPhases (rsStart_busy s rfl) (phasesLeft_le_longestPath _)
  obtain ⟨hphase, hchain⟩ := hrest
  rw [hrun] at hfault hfinfo
  have hfault : t.status.fault = s.status.fault := hfault
  have hfinfo : t.finfo = s.finfo := hfinfo
  rw [← htables, ← hdlen, ← hnsym, ← hres rfl, ← hg (by decide), ← hfinfo, ← hfault, ← hscript, ← hreturned, ← hphase,
    ← hchain]

/-- Settles O42: the guarantee and the frame, clause by clause. -/
theorem rsdecCorrectsOrLeavesTheWord : Obligations.RsdecCorrectsOrLeavesTheWord := by
  intro s hcw hlegal
  have hc : ¬ configIllegal s := Nat.not_lt.mpr hlegal
  obtain ⟨t, h⟩ := exists_exec_eq_next .rsdec s
  refine ⟨t, h, exec_rsdec_frame hc h, ?_⟩
  obtain ⟨hok, hcause, hszero, hword, hsynd, herrcnt, hothers⟩ | ⟨hfail, hcause, hword, herrcnt, hpaychg⟩ :=
    exec_rsdec_guarantee hcw hc h
  · exact ⟨.inl hok, fun _ => ⟨hcause, hszero, hword, hsynd, herrcnt, hothers⟩,
      fun hfail => absurd (hok.symm.trans hfail) (by decide)⟩
  · exact ⟨.inr hfail, fun hok => absurd (hok.symm.trans hfail) (by decide),
      fun _ => ⟨hcause, hword, herrcnt, hpaychg⟩⟩

/-! ### RSDEC with few parity bytes -/

/-- One step of the recurrence on a nonzero syndrome makes the locator 1 + S[0] x, whose degree is 1 (rules R153, R176). -/
theorem read_sigma_bmaRun_one {s : State} (hT : tablesIntact s.tables) (h : Mem.read s.synd 0 ≠ 0) :
    Mem.read (bmaRun 1 s).sigma 1 ≠ 0 := by
  have hdisc : discrepancy (bmaInit s) 0 = Mem.read s.synd 0 := discrepancy_of_len_zero rfl 0
  obtain ⟨hzero, _⟩ | ⟨_, _, e⟩ | ⟨_, hlen, _⟩ := bmaStep_cases 0 (bmaInit s)
  · exact absurd (hdisc.symm.trans hzero) h
  · obtain ⟨q, hq⟩ := exists_gfDiv_eq_some s.tables (Mem.read s.synd 0) (b := 1) (by decide)
    have hquotient : (gfDiv (bmaInit s).tables (discrepancy (bmaInit s) 0) (bmaInit s).bdisc).getD 0 = q := by
      rw [hdisc]; exact congrArg (Option.getD · 0) hq
    have hmul : gfMul s.tables q 1 = Mem.read s.synd 0 := (gfDiv_eq_some_iff hT (by decide) q).mp hq
    have hread := read_updateSigma s.tables (bmaInit s).sigma (bmaInit s).bpoly 1 q 1
    have hsigma : Mem.read (bmaInit s).sigma 1 = 0 := read_one 1
    have hbpoly : Mem.read (bmaInit s).bpoly (1 - 1) = 1 := read_one 0
    rw [if_pos (by decide), hsigma, hbpoly, hmul] at hread
    have hxor : (0 : Byte) ^^^ Mem.read s.synd 0 = Mem.read s.synd 0 := BitVec.zero_xor
    have hrun : bmaRun 1 s = bmaStep 0 (bmaInit s) := rfl
    rw [hrun, e, hquotient]
    exact (hread.trans hxor).trans_ne h
  · exact absurd hlen (Nat.not_lt_zero 0)

theorem one_le_deg_phaseBma {s : State} (hT : tablesIntact s.tables) (hnsym : s.nsym = 1)
    (h : Mem.read s.synd 0 ≠ 0) : 1 ≤ (phaseBma s).deg.toNat := by
  obtain ⟨_, habove, _⟩ := locatorLegal_phaseBma s
  have hsigma : Mem.read (phaseBma s).sigma 1 ≠ 0 := by
    rw [phaseBma_eq, hnsym]
    exact read_sigma_bmaRun_one hT h
  by_contra hlt
  exact hsigma (habove 1 (by omega))

/-- The one syndrome of a word with one parity byte tells whether it is a codeword (rule R130). -/
theorem read_synd_zero_ne_zero {s : State} (hnsym : s.nsym = 1) (hword : ¬ holdsCodeword s) :
    Mem.read (computeSyndromes s).synd 0 ≠ 0 := by
  have hone : s.nsym.toNat = 1 := by rw [hnsym]; rfl
  intro hzero
  refine hword ((szero_computeSyndromes_iff_holdsCodeword s).mp ((szero_computeSyndromes_iff s).mpr fun i hi => ?_))
  obtain rfl : i = 0 := by omega
  exact hzero

/-- With one parity byte a word that is no codeword fails at the gate: the locator's degree is 1, and 2 > 1 (rules R154,
R176). -/
theorem exec_rsdec_one_parity {s : State} (hT : tablesIntact s.tables) (hc : ¬ configIllegal s) (hnsym : s.nsym = 1)
    (hword : ¬ holdsCodeword s) : exec .rsdec s = .next (toIdle (failWith .tooManyErrors (rsdecAfterBma s))) := by
  have hdeg : 1 ≤ (locatedData s).deg.toNat :=
    one_le_deg_phaseBma (s := computeSyndromes s) hT hnsym (read_synd_zero_ne_zero hnsym hword)
  have hgate : ¬ 2 * (rsdecAfterBma s).deg.toNat ≤ (rsdecAfterBma s).nsym.toNat := by
    have hone : (locatedData s).nsym.toNat = 1 := by rw [nsym_locatedData, hnsym]; rfl
    have hle : ¬ 2 * (locatedData s).deg.toNat ≤ (locatedData s).nsym.toNat := by omega
    rw [rsdecAfterBma_eq]
    exact hle
  obtain ⟨hz, _⟩ | ⟨_, _, e⟩ | ⟨_, hpass, _⟩ | ⟨_, hpass, _⟩ | ⟨_, hpass, _⟩ := exec_rsdec_cases s hc
  · exact absurd ((szero_computeSyndromes_iff_holdsCodeword (rsdecStart s)).mp hz) hword
  · exact e
  all_goals exact absurd hpass hgate

/-- Settles O46: a clean word, as every word without parity bytes is, takes the early exit; any other fails at the gate. -/
theorem rsdecWithFewParityBytes : Obligations.RsdecWithFewParityBytes := by
  intro s hT hlegal
  have hclean := cleanWordTakesTheEarlyExit s hlegal
  refine ⟨fun hnsym => ?_, fun _ hword => ⟨_, hclean hword, rfl, rfl⟩, fun hnsym hword => ?_⟩
  · have hword : holdsCodeword s := fun i hi => absurd hi (by rw [hnsym]; exact Nat.not_lt_zero i)
    exact ⟨_, hclean hword, rfl, rfl, rfl⟩
  · obtain ⟨hcw, _⟩ := rsdecAfterBma_uncorrected s
    exact ⟨_, exec_rsdec_one_parity hT (Nat.not_lt.mpr hlegal) hnsym hword, rfl, rfl, hcw⟩

end Sys2Proof.Machine

/-! # Proofs of the family 44_system_commands: `NOP` and `CLRF` -/

namespace Sys2Proof.Machine

/-! ### Words of format Z -/

/-- In format `Z` an opcode has one legal word: every other has a reserved bit set (rule R84). -/
theorem decodeZ_of_ne_wordZ {w : Word} {op : Byte} (i : Instr) (hop : opcodeOf w = op) (h : w ≠ wordZ op) :
    decodeZ w i = .error .reservedBits :=
  if_neg fun hzero => h (hop ▸ eq_wordZ_of_zero hzero)

/-! ### Issuing a word -/

/-- With no fault pending, the word of a command is executed (rule R217). -/
theorem hostCmd_encode_of_none (i : Instr) {s : State} (hnone : s.status.fault = .none) :
    hostCmd (encode i) s = exec i s := by
  obtain ⟨hpending, _⟩ | ⟨hpending, _⟩ | ⟨_, r, hd, _⟩ | ⟨_, j, hd, e⟩ := hostCmd_cases (encode i) s
  · exact absurd hnone hpending
  · exact absurd hnone hpending
  · cases (decode_encode i).symm.trans hd
  · cases (decode_encode i).symm.trans hd
    exact e

/-- While a fault is pending, the word of `CLRF` is executed and every other is dropped (rules R201, R217). -/
theorem hostCmd_of_pending (w : Word) {s : State} (hpending : s.status.fault ≠ .none) :
    hostCmd w s = if w = 0x0000001F then exec .clrf s else .next s := by
  obtain ⟨_, hw, e⟩ | ⟨_, hw, e⟩ | ⟨hnone, _⟩ | ⟨hnone, _⟩ := hostCmd_cases w s
  · rw [if_pos hw]; exact e
  · rw [if_neg hw]; exact e
  · exact absurd hnone hpending
  · exact absurd hnone hpending

/-! ### The return from a fault -/

/-- The mask is assembled field by field as the word is (rule R35): all ones, but for the 0 in the field of `FAULT`. -/
theorem statusWord_clear_fault (st : Status) :
    statusWord { st with fault := .none } = statusWord st &&& 0xFFFF0FFF := by
  have hmask : (0xFFFF0FFF : Word) = BitVec.allOnes 16 ++ 0#4 ++ BitVec.allOnes 2 ++ BitVec.allOnes 1 ++
      BitVec.allOnes 1 ++ BitVec.allOnes 4 ++ BitVec.allOnes 2 ++ BitVec.allOnes 2 := by decide
  rw [hmask]
  -- the first append by unification: the word's width is written 32, not as the sum of the fields' widths
  refine (BitVec.and_append.trans ?_).symm
  simp only [BitVec.and_append, BitVec.and_allOnes, BitVec.and_zero]
  rfl

/-- With nothing pending there is nothing to clear (rule R201, corner case). -/
theorem clearFault_of_none {s : State} (hnone : s.status.fault = .none) (hinfo : s.finfo = 0) : clearFault s = s := by
  rw [clearFault, ← hnone, ← hinfo]

/-! ### The statements -/

/-- Settles O25: while a fault is pending the word is dropped, and otherwise it is executed, to no effect. -/
theorem nopChangesNothing : Obligations.NopChangesNothing := by
  refine ⟨rfl, fun s => ⟨rfl, ?_⟩, fun w hop hne => ?_⟩
  · by_cases hfault : s.status.fault = .none
    · exact hostCmd_encode_of_none .nop hfault
    · exact hostCmd_of_pending 0x00000000 hfault
  · rw [decode, hop]
    exact decodeZ_of_ne_wordZ .nop hop hne

/-- Settles O26: `CLRF` is `clearFault`, and the pending fault decides which words are executed. -/
theorem clrfClearsTheFaultAlone : Obligations.ClrfClearsTheFaultAlone := by
  refine ⟨rfl, fun s => ⟨rfl, statusWord_clear_fault s.status, fun hnone hinfo => ?_, fun hpending w => ?_⟩,
    fun w hop hne => ?_⟩
  · exact congrArg Host.Outcome.next (clearFault_of_none hnone hinfo)
  · exact hostCmd_of_pending w hpending
  · rw [decode, hop]
    exact decodeZ_of_ne_wordZ .clrf hop hne

end Sys2Proof.Machine

/-! # Proofs of the family 60_exceptions: fault entry, the first-fault rule and command issue -/

namespace Sys2Proof.Machine

/-! ### What keeps the fault registers -/

/-- `t` has the `FAULT` and `FINFO` of `s`. -/
def SameFault (s t : State) : Prop := t.status.fault = s.status.fault ∧ t.finfo = s.finfo

theorem sameFault_runPhase (s : State) : SameFault s (runPhase s) := by
  obtain ⟨_, _, _, _, hfault, hfinfo, _⟩ := runPhase_frame s
  exact ⟨hfault, hfinfo⟩

/-- The start of a Reed-Solomon command is no fault entry: of `STATUS` it writes at most `PAYCHG`. -/
theorem sameFault_rsStart (i : Instr) (s : State) : SameFault s (rsStart i s) := by
  cases i <;> exact ⟨rfl, rfl⟩

/-- An accepted Reed-Solomon command raises no fault (rule R213). -/
theorem sameFault_rsCommand {i : Instr} {s : State} (hc : ¬ configIllegal s) :
    SameFault s (rsCommand i s (rsStart i s)) := by
  rw [rsCommand_legal i s _ hc]
  obtain ⟨hfault, hfinfo⟩ := runPhases_keeps_fault longestPath (rsStart i s)
  obtain ⟨hfault', hfinfo'⟩ := sameFault_rsStart i s
  exact ⟨hfault.trans hfault', hfinfo.trans hfinfo'⟩

section Pending

variable {s : State}

/-- The first fault wins (rule R216). -/
theorem sameFault_raiseFault (cause : FaultCause) (info : Word) (hpending : s.status.fault ≠ .none) :
    SameFault s (raiseFault cause info s) := by
  rw [raiseFault_of_pending cause info hpending]
  exact ⟨rfl, rfl⟩

theorem sameFault_hostRead (space : BitVec 4) (index : BitVec 16) (hpending : s.status.fault ≠ .none) :
    SameFault s (hostRead space index s) := by
  obtain ⟨_, _, e⟩ | ⟨_, e⟩ := hostRead_cases space index s <;> rw [e]
  · exact ⟨rfl, rfl⟩
  · exact sameFault_raiseFault (s := { s with returned := s.returned ++ [0] }) _ _ hpending

theorem sameFault_hostWrite (space : BitVec 4) (index : BitVec 16) (data : Word) (hpending : s.status.fault ≠ .none) :
    SameFault s (hostWrite space index data s) := by
  obtain ⟨t, ht, e⟩ | ⟨_, e⟩ := hostWrite_cases space index data s <;> rw [e]
  · obtain ⟨_, _, rfl⟩ | ⟨_, _, rfl⟩ | ⟨_, _, rfl⟩ := entryWrite_cases s t space index data ht <;> exact ⟨rfl, rfl⟩
  · exact sameFault_raiseFault _ _ hpending

/-- A pending fault blocks every word but that of `CLRF` (rule R217). -/
theorem hostCmd_of_blocked {w : Word} (hpending : s.status.fault ≠ .none) (hw : w ≠ 0x0000001F) :
    hostCmd w s = .next s := by
  rw [hostCmd_of_pending w hpending, if_neg hw]

theorem sameFault_hostCmd {w : Word} {t : State} (hpending : s.status.fault ≠ .none) (hw : w ≠ 0x0000001F)
    (h : hostCmd w s = .next t) : SameFault s t := by
  cases (hostCmd_of_blocked hpending hw).symm.trans h
  exact ⟨rfl, rfl⟩

/-- While a fault is pending, of the host's operations only a reset and the word of `CLRF` write the fault registers
(rules R216, R221). -/
theorem sameFault_hostOp {op : HostOp} {t : State} (hpending : s.status.fault ≠ .none) (hreset : op ≠ .reset)
    (hclrf : op ≠ .cmd 0x0000001F) (h : hostOp op s = .next t) : SameFault s t := by
  cases op with
  | read space index => cases h; exact sameFault_hostRead space index hpending
  | write space index data => cases h; exact sameFault_hostWrite space index data hpending
  | cmd w => exact sameFault_hostCmd hpending (fun hw => hclrf (congrArg HostOp.cmd hw)) h
  | reset => exact absurd rfl hreset

end Pending

/-- Settles O13: no phase writes the two registers, and of the host's operations left only a fault entry could, which
records nothing over a pending fault. -/
theorem firstFaultIsKept : Obligations.FirstFaultIsKept := by
  intro s t hpending hstep hreset hclrf
  obtain ⟨_, _, e⟩ | ⟨_, _, e⟩ | ⟨_, _, e⟩ | ⟨op, rest, hscript, _, e⟩ := step_cases s <;> rw [e] at hstep
  · cases hstep; exact ⟨rfl, rfl⟩
  · cases hstep
  · cases hstep; exact sameFault_runPhase s
  · refine sameFault_hostOp (s := { s with script := rest }) hpending ?_ ?_ hstep
    · exact fun hop => hreset rest (hop ▸ hscript)
    · exact fun hop => hclrf rest (hop ▸ hscript)

/-! ### The faults of a command -/

/-- The commands that divide by zero (rules R111, R113, R212). -/
def DividesByZero (i : Instr) : Prop := (∃ a, i = .gfdiv a 0) ∨ i = .gfinv 0

/-- A GF command that does not divide by zero writes `RES` and nothing else (rules R110 to R113). -/
theorem exec_of_isGf_of_not_dividesByZero {i : Instr} (s : State) (hi : isGf i = true) (hz : ¬ DividesByZero i) :
    ∃ r, exec i s = .next { s with res := r } := by
  cases i with
  | gfmul | gfpow => exact ⟨_, rfl⟩
  | gfdiv a b =>
    have hb : b ≠ 0 := by
      rintro rfl
      exact hz (.inl ⟨a, rfl⟩)
    obtain ⟨q, hq⟩ := exists_gfDiv_eq_some s.tables a hb
    exact ⟨q, exec_gfdiv_of_eq_some hq⟩
  | gfinv a =>
    obtain ⟨rfl, _⟩ | ⟨_, hq⟩ := gfInv_cases s.tables a
    · exact absurd (.inr rfl) hz
    · exact ⟨_, exec_gfinv_of_eq_some hq⟩
  | nop | clrf | rsenc | rsdec | synd | bma | chien | forney => cases hi

/-- A Reed-Solomon command on an illegal configuration raises `ConfigError` before it starts (rule R213). -/
theorem exec_of_configIllegal {i : Instr} {s : State} (hi : isReedSolomon i = true) (hc : configIllegal s) :
    exec i s = .next (raiseFault .configError (encode i) s) := by
  rw [exec_of_isReedSolomon s hi, rsCommand_illegal i s _ hc]

/-- Every way a command raises a fault: by fault entry with its own word, for one of two causes (rules R211, R220). -/
theorem exec_fault_cases {i : Instr} {s t : State} (hnone : s.status.fault = .none) (h : exec i s = .next t)
    (hfault : t.status.fault ≠ .none) :
    (DividesByZero i ∧ t = raiseFault .divisionByZero (encode i) s) ∨
    (isReedSolomon i = true ∧ configIllegal s ∧ t = raiseFault .configError (encode i) s) := by
  obtain ⟨_, rfl⟩ | ⟨_, rfl⟩ | ⟨_, _, rfl⟩ | ⟨hi, rfl⟩ | ⟨hi, rfl⟩ := exec_cases h
  · exact absurd hnone hfault
  · exact absurd rfl hfault
  · exact absurd hnone hfault
  · by_cases hz : DividesByZero i
    · exact .inl ⟨hz, rfl⟩
    · obtain ⟨r, e⟩ := exec_of_isGf_of_not_dividesByZero s hi hz
      rw [Host.Outcome.next.inj (h.symm.trans e)] at hfault
      exact absurd hnone hfault
  · by_cases hc : configIllegal s
    · exact .inr ⟨hi, hc, rsCommand_illegal i s _ hc⟩
    · exact absurd ((sameFault_rsCommand hc).1.trans hnone) hfault

/-- Settles O14: both ways to raise a fault go through fault entry, which with none pending writes just the two registers. -/
theorem commandFaultsArePrecise : Obligations.CommandFaultsArePrecise := by
  intro i s t hnone hexec hfault
  obtain ⟨hz, rfl⟩ | ⟨hi, hc, rfl⟩ := exec_fault_cases hnone hexec hfault <;> rw [raiseFault_of_none _ _ hnone]
  · exact ⟨rfl, .inl ⟨rfl, hz⟩⟩
  · exact ⟨rfl, .inr ⟨rfl, hi, hc⟩⟩

/-! ### Command issue -/

/-- With no fault pending, an illegal word is recorded and nothing is executed (rules R214, R217). -/
theorem hostCmd_of_decode_error {w : Word} {r : Reject} {s : State} (hnone : s.status.fault = .none)
    (hd : decode w = .error r) : hostCmd w s = .next { s with
      status := { s.status with fault := .illegalCommand }, finfo := w, phase := .idle, chain := false } := by
  rw [← raiseFault_of_none .illegalCommand w hnone]
  obtain ⟨hpending, _⟩ | ⟨hpending, _⟩ | ⟨_, _, _, e⟩ | ⟨_, i, hd', _⟩ := hostCmd_cases w s
  · exact absurd hnone hpending
  · exact absurd hnone hpending
  · exact e
  · cases hd.symm.trans hd'

/-- With no fault pending, a legal word is executed as what it decodes to (rule R217). -/
theorem hostCmd_of_decode_ok {w : Word} {i : Instr} {s : State} (hnone : s.status.fault = .none)
    (hd : decode w = .ok i) : hostCmd w s = exec i s := by
  obtain ⟨_, hword, _⟩ := decodingFollowsTheOpcodeMap w
  rw [← hword i hd]
  exact hostCmd_encode_of_none i hnone

/-- Settles O5: on an idle block every operation is enabled, and the pending fault and the decoder decide on a word. -/
theorem stepIssuesTheCommand : Obligations.StepIssuesTheCommand := by
  intro s rest hidle
  have hissue {op : HostOp} (hscript : s.script = op :: rest) : step s = hostOp op { s with script := rest } :=
    step_op s op rest hscript (.inl hidle)
  refine ⟨fun w hscript => ⟨fun hpending hw => ?_, fun hpending hw => ?_, fun hnone i hd => ?_, fun hnone r hd => ?_⟩,
    fun _ _ => hissue, fun _ _ _ => hissue⟩
  · have hexec : step s = exec .clrf { s with script := rest } :=
      ((hissue hscript).trans (hostCmd_of_pending w hpending)).trans (if_pos hw)
    exact ⟨hexec, hexec⟩
  · exact (hissue hscript).trans (hostCmd_of_blocked hpending hw)
  · exact (hissue hscript).trans (hostCmd_of_decode_ok hnone hd)
  · exact (hissue hscript).trans (hostCmd_of_decode_error hnone hd)

/-- Settles O10: of the four things a step can do, only waiting needs neither an operation nor a running phase. -/
theorem idleBlockWaits : Obligations.IdleBlockWaits := by
  intro s hidle hscript
  obtain ⟨_, _, e⟩ | ⟨hbusy, _⟩ | ⟨hbusy, _⟩ | ⟨_, _, hpending, _⟩ := step_cases s
  · exact e
  · exact absurd hidle hbusy
  · exact absurd hidle hbusy
  · cases hscript.symm.trans hpending

/-! ### The configuration -/

/-- A byte zero-extended to host data keeps its value, so a write of it is never too wide (rule R64). -/
theorem toNat_setWidth_byte (v : Byte) : (v.setWidth 32).toNat = v.toNat :=
  BitVec.toNat_setWidth_of_le (by decide)

theorem hostWrite_dlen (v : Byte) (s : State) : hostWrite 0 0 (v.setWidth 32) s = { s with dlen := v } := by
  rw [hostWrite, entryWrite_dlen (by rw [toNat_setWidth_byte]; exact v.isLt) rfl, toNat_setWidth_byte]
  simp

theorem hostWrite_nsym (v : Byte) (s : State) : hostWrite 0 1 (v.setWidth 32) s = { s with nsym := v } := by
  rw [hostWrite, entryWrite_nsym (by rw [toNat_setWidth_byte]; exact v.isLt) rfl, toNat_setWidth_byte]
  simp

/-- Settles O15: the listed words are those of the six commands, and each tests the configuration before it starts. -/
theorem configErrorComesFirst : Obligations.ConfigErrorComesFirst := by
  refine ⟨fun s v => ⟨hostWrite_dlen v s, hostWrite_nsym v s⟩, fun i w s hiw hnone hc => ?_⟩
  have hlisted : ∀ p ∈ [(Instr.rsenc, (0x10 : Word)), (.rsdec, 0x11), (.synd, 0x12), (.bma, 0x13), (.chien, 0x14),
      (.forney, 0x15)], isReedSolomon p.1 = true ∧ encode p.1 = p.2 := by decide
  obtain ⟨hi, hword⟩ := hlisted (i, w) hiw
  rw [exec_of_configIllegal hi hc, raiseFault_of_none _ _ hnone, hword]

end Sys2Proof.Machine

/-! # Proofs of the family 70_reset_and_hazards: reset, and the bytes beyond the codeword -/

namespace Sys2Proof.Machine

/-! ### Reset -/

/-- The block's state after a reset is that of the reset state, whatever the host's side holds. -/
theorem resetValues_hostReset (s : State) : resetValues (hostReset s) := resetStateHoldsTheResetValues

/-- Settles O8: a reset is enabled in every phase, and it overwrites every piece of the block's state. -/
theorem hostResetGivesTheResetValues : Obligations.HostResetGivesTheResetValues := by
  intro s rest hscript
  have hstep : step s = .next (hostReset { s with script := rest }) := step_op s .reset rest hscript (.inr rfl)
  exact ⟨_, hstep, resetValues_hostReset _, rfl, rfl⟩

/-! ### A write to one byte, and operations on other bytes of the store -/

section Store

variable {m : Mem} {a : Nat} (v : Byte)

theorem Mem.write_read (hm : Mem.wf m = true) (ha : a < Config.storeSize) : Mem.write m a (Mem.read m a) = m := by
  refine Mem.ext (Mem.wf_write m a _ hm ha) hm fun b => ?_
  rw [Mem.read_write]
  split
  · next hb => rw [hb]
  · rfl

/-- A fill below the byte commutes with a write of it. -/
theorem Mem.fill_write {lo n : Nat} (f : Nat → Byte) (hm : Mem.wf m = true) (ha : a < Config.storeSize)
    (hn : lo + n ≤ a) : Mem.fill (Mem.write m a v) lo n f = Mem.write (Mem.fill m lo n f) a v := by
  have hstore : lo + n ≤ Config.storeSize := hn.trans ha.le
  refine Mem.ext (Mem.wf_fill _ lo n f (Mem.wf_write m a v hm ha) hstore)
    (Mem.wf_write _ a v (Mem.wf_fill m lo n f hm hstore) ha) fun b => ?_
  simp only [Mem.read_fill, Mem.read_write]
  by_cases hb : b = a
  · rw [if_neg (by omega)]
    simp [hb]
  · simp [hb]

/-- Corrections at other positions commute with a write of the byte. -/
theorem correctBytes_write {epos : Mem} (emag : Mem) {n : Nat} (hm : Mem.wf m = true) (ha : a < Config.storeSize)
    (hlist : ∀ k, k < n → (Mem.read epos k).toNat ≠ a) :
    correctBytes (Mem.write m a v) epos emag n = Mem.write (correctBytes m epos emag n) a v := by
  refine Mem.ext (wf_correctBytes _ _ _ _ (Mem.wf_write m a v hm ha))
    (Mem.wf_write _ a v (wf_correctBytes _ _ _ _ hm) ha) fun b => ?_
  by_cases hb : b = a
  · subst hb
    rw [read_correctBytes_of_unlisted _ emag hlist, Mem.read_write_same, Mem.read_write_same]
  · rw [Mem.read_write_other _ v hb, read_correctBytes, read_correctBytes, Mem.read_write_other _ v hb]

/-- Horner's rule reads the first `n` bytes alone (rule R151). -/
theorem evalWord_write (T : Tables) {n : Nat} (x : Byte) (hn : n ≤ a) :
    evalWord T (Mem.write m a v) n x = evalWord T m n x := by
  induction n with
  | zero => rfl
  | succ n ih => rw [evalWord_succ, evalWord_succ, ih (by omega), Mem.read_write_other m v (by omega)]

theorem syndromes_write (T : Tables) {n : Nat} (nsym : Nat) (hn : n ≤ a) :
    syndromes T (Mem.write m a v) n nsym = syndromes T m n nsym := by
  simp only [syndromes, evalWord_write v T _ hn]

theorem divSequence_write (T : Tables) (g : Mem) {dlen : Nat} (nsym : Nat) (hn : dlen ≤ a) :
    divSequence T g (Mem.write m a v) dlen nsym = divSequence T g m dlen nsym :=
  divSequence_congr T g nsym fun b hb => Mem.read_write_other m v (by omega)

end Store

/-! ### The phases that do not use the buffer -/

/-- The phases that read or write `CW` (rules R134, R151, R173, R175). -/
def Phase.usesBuffer (p : Phase) : Prop := p = .div ∨ p = .syn ∨ p = .corr ∨ p = .verify

/-- The state with another codeword buffer. -/
def State.withBuffer (s : State) (w : Mem) : State := { s with cw := w }

section WithBuffer

variable (s : State) (w : Mem)

theorem bmaStep_withBuffer (n : Nat) : bmaStep n (s.withBuffer w) = (bmaStep n s).withBuffer w := by
  have hdisc : discrepancy (s.withBuffer w) n = discrepancy s n := rfl
  unfold bmaStep
  simp only [hdisc, apply_ite (State.withBuffer · w)]
  rfl

theorem bmaRun_withBuffer (n : Nat) : bmaRun n (s.withBuffer w) = (bmaRun n s).withBuffer w := by
  induction n with
  | zero => rfl
  | succ n ih => rw [bmaRun_succ, ih, bmaStep_withBuffer, ← bmaRun_succ]

theorem phaseBma_withBuffer : phaseBma (s.withBuffer w) = (phaseBma s).withBuffer w := by
  have hnsym : (s.withBuffer w).nsym = s.nsym := rfl
  rw [phaseBma_eq, phaseBma_eq, hnsym, bmaRun_withBuffer]
  generalize bmaRun s.nsym.toNat s = t
  rfl

theorem phaseGate_withBuffer : phaseGate (s.withBuffer w) = (phaseGate s).withBuffer w := by
  unfold phaseGate
  simp only [apply_ite (State.withBuffer · w)]
  rfl

theorem phaseChien_withBuffer : phaseChien (s.withBuffer w) = (phaseChien s).withBuffer w := by
  unfold phaseChien
  simp only [apply_ite (State.withBuffer · w)]
  rfl

theorem phaseForney_withBuffer : phaseForney (s.withBuffer w) = (phaseForney s).withBuffer w := by
  unfold phaseForney
  -- the cleared store is kept opaque, so that comparing the two states does not evaluate it
  generalize Mem.tabulate (fun _ => 0) = zeros
  simp only [apply_ite (State.withBuffer · w)]
  rfl

theorem runPhase_withBuffer (hp : ¬ s.phase.usesBuffer) : runPhase (s.withBuffer w) = (runPhase s).withBuffer w := by
  have hphase : (s.withBuffer w).phase = s.phase := rfl
  unfold runPhase
  rw [hphase]
  cases h : s.phase with
  | idle | gen => rfl
  | bma => exact phaseBma_withBuffer s w
  | gate => exact phaseGate_withBuffer s w
  | chien => exact phaseChien_withBuffer s w
  | forney => exact phaseForney_withBuffer s w
  | div | syn | corr | verify => exact absurd (by simp [h, Phase.usesBuffer]) hp

/-- A phase that does not use the buffer keeps it, since it does the same with every other buffer. -/
theorem cw_runPhase_of_not_usesBuffer (hp : ¬ s.phase.usesBuffer) : (runPhase s).cw = s.cw := by
  have hself : runPhase s = (runPhase s).withBuffer s.cw := runPhase_withBuffer s s.cw hp
  rw [hself]
  rfl

end WithBuffer

/-! ### The phases that use the buffer, and a byte beyond the codeword -/

/-- Every listed position lies inside the codeword. -/
def listsInside (s : State) : Prop := ∀ k, k < s.nroot.toNat → (Mem.read s.epos k).toNat < codewordLen s

/-- Where the listed positions are about to be corrected, or the correction may be undone, they lie inside the codeword. -/
def correctionsInside (s : State) : Prop := s.phase = .corr ∨ s.phase = .verify → listsInside s

/-- `a` is the index of a byte beyond the codeword in a canonical buffer. -/
structure Beyond (a : Nat) (s : State) : Prop where
  canonical : Mem.wf s.cw = true
  beyond : codewordLen s ≤ a
  stored : a < Config.storeSize

namespace Beyond

variable {a : Nat} {s : State}

theorem legal (h : Beyond a s) : ¬ configIllegal s := Nat.not_lt.mpr (h.beyond.trans (Nat.le_of_lt_succ h.stored))

theorem unlisted (h : Beyond a s) (hin : listsInside s) : ∀ k, k < s.nroot.toNat → (Mem.read s.epos k).toNat ≠ a :=
  fun k hk => (lt_of_lt_of_le (hin k hk) h.beyond).ne

/-! #### A write of the byte commutes with each phase -/

variable (v : Byte)

theorem phaseDiv_memWrite (h : Beyond a s) : phaseDiv (memWrite s a v) = memWrite (phaseDiv s) a v := by
  have hdlen : s.dlen.toNat ≤ a := le_trans (Nat.le_add_right _ _) h.beyond
  rw [phaseDiv_eq, phaseDiv_eq]
  simp only [memWrite, divSequence_write v _ _ _ hdlen, Mem.fill_write v _ h.canonical h.stored h.beyond]

theorem computeSyndromes_memWrite (h : Beyond a s) :
    computeSyndromes (memWrite s a v) = memWrite (computeSyndromes s) a v := by
  have hsynd : syndromes s.tables (Mem.write s.cw a v) (codewordLen s) s.nsym.toNat =
      syndromes s.tables s.cw (codewordLen s) s.nsym.toNat := syndromes_write v _ _ h.beyond
  have hlen : codewordLen (memWrite s a v) = codewordLen s := rfl
  rw [computeSyndromes_eq, computeSyndromes_eq, hlen]
  simp only [memWrite, hsynd]

theorem applyMagnitudes_memWrite (h : Beyond a s) (hin : listsInside s) :
    applyMagnitudes (memWrite s a v) = memWrite (applyMagnitudes s) a v := by
  simp only [applyMagnitudes_eq, memWrite, correctBytes_write v s.emag h.canonical h.stored (h.unlisted hin)]

theorem phaseSyn_memWrite (h : Beyond a s) : phaseSyn (memWrite s a v) = memWrite (phaseSyn s) a v := by
  unfold phaseSyn
  simp only [h.computeSyndromes_memWrite, apply_ite (memWrite · a v)]
  rfl

theorem phaseCorr_memWrite (h : Beyond a s) (hin : listsInside s) :
    phaseCorr (memWrite s a v) = memWrite (phaseCorr s) a v := by
  unfold phaseCorr
  simp only [h.applyMagnitudes_memWrite v hin, apply_ite (memWrite · a v)]
  rfl

theorem phaseVerify_memWrite (h : Beyond a s) (hin : listsInside s) :
    phaseVerify (memWrite s a v) = memWrite (phaseVerify s) a v := by
  have h' : Beyond a (computeSyndromes s) := ⟨h.canonical, h.beyond, h.stored⟩
  unfold phaseVerify
  simp only [h.computeSyndromes_memWrite, h'.applyMagnitudes_memWrite v hin, apply_ite (memWrite · a v)]
  rfl

theorem runPhase_memWrite (h : Beyond a s) (hin : correctionsInside s) :
    runPhase (memWrite s a v) = memWrite (runPhase s) a v := by
  by_cases hp : s.phase.usesBuffer
  · have hphase : (memWrite s a v).phase = s.phase := rfl
    unfold runPhase
    rw [hphase]
    obtain hp | hp | hp | hp := hp <;> rw [hp]
    · exact h.phaseDiv_memWrite v
    · exact h.phaseSyn_memWrite v
    · exact h.phaseCorr_memWrite v (hin (.inl hp))
    · exact h.phaseVerify_memWrite v (hin (.inr hp))
  · calc runPhase (memWrite s a v) = (runPhase s).withBuffer (Mem.write s.cw a v) := runPhase_withBuffer s _ hp
      _ = memWrite (runPhase s) a v := by rw [← cw_runPhase_of_not_usesBuffer s hp]; rfl

end Beyond

/-! ### What every phase keeps -/

theorem wf_cw_runPhase {s : State} (hcw : Mem.wf s.cw = true) (hc : ¬ configIllegal s) : Mem.wf (runPhase s).cw = true := by
  by_cases hp : s.phase.usesBuffer
  · unfold runPhase
    obtain hp | hp | hp | hp := hp <;> rw [hp]
    · exact Mem.wf_fill _ _ _ _ hcw (Nat.le_succ_of_le (Nat.not_lt.mp hc))
    · obtain ⟨_, _, _, _, _, _, e⟩ := phaseSyn_writes s
      rwa [e]
    · obtain ⟨_, _, _, _, e⟩ := phaseCorr_writes s
      rw [e]
      exact wf_correctBytes _ _ _ _ hcw
    · obtain ⟨_, e⟩ | ⟨_, e⟩ := phaseVerify_cases s <;> rw [e]
      · exact hcw
      · exact wf_correctBytes _ _ _ _ hcw
  · rwa [cw_runPhase_of_not_usesBuffer s hp]

theorem codewordLen_runPhase (s : State) : codewordLen (runPhase s) = codewordLen s := by
  obtain ⟨_, hdlen, hnsym, _⟩ := runPhase_frame s
  rw [codewordLen, codewordLen, hdlen, hnsym]

/-- A position outside the codeword is degenerate (rule R172). -/
theorem listsInside_of_regular {s : State} (h : degenerate s = false) : listsInside s := by
  intro k hk
  by_contra hout
  have hnone : listedMagnitude s k = none := magnitudeAt_of_ge _ _ _ _ _ (Nat.not_lt.mp hout)
  cases hnone.symm.trans (listedMagnitude_eq_some h hk)

/-- Corrections are reached from `FORNEY`, where no listed position is degenerate, or from themselves (rule R177). -/
theorem corrections_reached {s : State} (h : (runPhase s).phase = .corr ∨ (runPhase s).phase = .verify) :
    (s.phase = .forney ∧ degenerate s = false) ∨ s.phase = .corr := by
  unfold runPhase at h
  cases hp : s.phase with
  | corr => exact .inr rfl
  | forney =>
    obtain ⟨_, e⟩ | ⟨hregular, _⟩ := phaseForney_cases s
    · simp [hp, e] at h
    · exact .inl ⟨rfl, hregular⟩
  | idle => simp [hp] at h
  | gen => simp [hp, phaseGen_eq] at h
  | div => simp [hp, phaseDiv_eq] at h
  | syn => obtain ⟨_, e⟩ | ⟨_, _, e⟩ := phaseSyn_cases s <;> simp [hp, e] at h
  | bma => simp [hp, phaseBma_eq s] at h
  | gate => obtain ⟨_, e⟩ | ⟨_, _, e⟩ | ⟨_, _, e⟩ := phaseGate_cases s <;> simp [hp, e] at h
  | chien => obtain ⟨_, e⟩ | ⟨_, _, e⟩ | ⟨_, _, e⟩ := phaseChien_cases s <;> simp [hp, e] at h
  | verify => obtain ⟨_, e⟩ | ⟨_, e⟩ := phaseVerify_cases s <;> simp [hp, e] at h

theorem listsInside_runPhase {s : State} (hp : s.phase ≠ .chien) (h : listsInside s) : listsInside (runPhase s) := by
  obtain ⟨_, hlist, _⟩ := runPhase_registers s
  obtain ⟨hepos, hnroot⟩ := hlist hp
  unfold listsInside
  rwa [hepos, hnroot, codewordLen_runPhase]

theorem correctionsInside_runPhase {s : State} (h : correctionsInside s) : correctionsInside (runPhase s) := by
  intro hnext
  obtain ⟨hp, hregular⟩ | hp := corrections_reached hnext
  · exact listsInside_runPhase (by simp [hp]) (listsInside_of_regular hregular)
  · exact listsInside_runPhase (by simp [hp]) (h (.inl hp))

/-- No command starts in the middle of its corrections. -/
theorem correctionsInside_rsStart {i : Instr} (s : State) (hi : isReedSolomon i = true) :
    correctionsInside (rsStart i s) := by
  cases i with
  | rsenc | rsdec | synd | bma | chien | forney => simp [correctionsInside, rsStart]
  | nop | clrf | gfmul | gfdiv | gfpow | gfinv => cases hi

namespace Beyond

variable {a : Nat} {s : State}

theorem after_runPhase (h : Beyond a s) : Beyond a (runPhase s) :=
  ⟨wf_cw_runPhase h.canonical h.legal, (codewordLen_runPhase s).trans_le h.beyond, h.stored⟩

theorem after_rsStart (h : Beyond a s) (i : Instr) : Beyond a (rsStart i s) := by
  cases i <;> exact ⟨h.canonical, h.beyond, h.stored⟩

theorem runPhases_memWrite (h : Beyond a s) (hin : correctionsInside s) (v : Byte) (n : Nat) :
    runPhases n (memWrite s a v) = memWrite (runPhases n s) a v := by
  induction n generalizing s with
  | zero => rfl
  | succ n ih =>
    by_cases hidle : s.phase = .idle
    · rw [runPhases_idle _ s hidle, runPhases_idle _ (memWrite s a v) hidle]
    · rw [runPhases_running n s hidle, runPhases_running n (memWrite s a v) hidle, h.runPhase_memWrite v hin,
        ih h.after_runPhase (correctionsInside_runPhase hin)]

end Beyond

/-! ### The commands -/

section Commands

variable {s : State} {a : Nat} (v : Byte)

theorem raiseFault_memWrite (cause : FaultCause) (info : Word) :
    raiseFault cause info (memWrite s a v) = memWrite (raiseFault cause info s) a v := by
  unfold raiseFault
  by_cases hf : s.status.fault = .none <;> simp [memWrite, hf] <;> rfl

theorem rsCommand_memWrite {i : Instr} (hi : isReedSolomon i = true) (h : Beyond a s) :
    rsCommand i (memWrite s a v) (rsStart i (memWrite s a v)) = memWrite (rsCommand i s (rsStart i s)) a v := by
  have hstart : rsStart i (memWrite s a v) = memWrite (rsStart i s) a v := by cases i <;> rfl
  rw [rsCommand_legal i s _ h.legal, rsCommand_legal i (memWrite s a v) _ h.legal, hstart,
    (h.after_rsStart i).runPhases_memWrite (correctionsInside_rsStart s hi)]

/-- A GF command does not touch the buffer (rules R110 to R113). -/
theorem exec_memWrite_of_isGf {i : Instr} (hi : isGf i = true) {t : State} (h : exec i s = .next t) :
    exec i (memWrite s a v) = .next (memWrite t a v) := by
  cases i with
  | gfmul | gfpow => cases h; rfl
  | gfdiv b c =>
    obtain rfl | hc := eq_or_ne c 0
    · rw [exec_gfdiv_zero] at h ⊢
      cases h
      rw [raiseFault_memWrite]
    · obtain ⟨q, hq⟩ := exists_gfDiv_eq_some s.tables b hc
      rw [exec_gfdiv_of_eq_some hq] at h
      cases h
      exact exec_gfdiv_of_eq_some hq
  | gfinv b =>
    obtain ⟨rfl, _⟩ | ⟨_, hq⟩ := gfInv_cases s.tables b
    · rw [exec_gfinv_zero] at h ⊢
      cases h
      rw [raiseFault_memWrite]
    · rw [exec_gfinv_of_eq_some hq] at h
      cases h
      exact exec_gfinv_of_eq_some hq
  | nop | clrf | rsenc | rsdec | synd | bma | chien | forney => cases hi

/-- Giving a byte beyond the codeword another value before a command or after it comes to the same (rule R247). -/
theorem exec_memWrite {i : Instr} {t : State} (hb : Beyond a s) (h : exec i s = .next t) :
    exec i (memWrite s a v) = .next (memWrite t a v) := by
  cases i with
  | nop | clrf => cases h; rfl
  | gfmul | gfdiv | gfpow | gfinv => exact exec_memWrite_of_isGf v rfl h
  | rsenc | rsdec | synd | bma | chien | forney =>
    rw [exec_of_isReedSolomon s rfl] at h
    cases h
    rw [exec_of_isReedSolomon _ rfl, rsCommand_memWrite v rfl hb]

/-- The byte is not written: a state in which it is given its own value is that state itself, and so is the next one. -/
theorem exec_keeps_beyond {i : Instr} {t : State} (hb : Beyond a s) (h : exec i s = .next t) :
    Mem.read t.cw a = Mem.read s.cw a := by
  have hself : memWrite s a (Mem.read s.cw a) = s := by rw [memWrite, Mem.write_read hb.canonical hb.stored]
  have hnext := exec_memWrite (Mem.read s.cw a) hb h
  rw [hself, h] at hnext
  calc Mem.read t.cw a = Mem.read (memWrite t a (Mem.read s.cw a)).cw a := by rw [← Host.Outcome.next.inj hnext]
    _ = Mem.read s.cw a := Mem.read_write_same ..

end Commands

/-- Settles O50: every phase commutes with a write of the byte, since `FORNEY` lets no position outside the codeword be
corrected. -/
theorem bytesBeyondTheCodewordAreInert : Obligations.BytesBeyondTheCodewordAreInert := by
  intro i s a v hcw hlen ha
  have hb : Beyond a s := ⟨hcw, hlen, ha⟩
  obtain ⟨t, h⟩ := exists_exec_eq_next i s
  exact ⟨t, h, exec_keeps_beyond hb h, exec_memWrite v hb h⟩

end Sys2Proof.Machine

/-! # Proofs of the family other, the listed command words -/

namespace Sys2Proof

theorem decode_eq_reservedBits {w : Word} (hknown : ∃ r ∈ opTable, opcodeOf w = opcodeOf r.pattern)
    (h : legalWord w = false) : decode w = .error .reservedBits :=
  have ⟨_, _, _, hreserved⟩ := decodingFollowsTheOpcodeMap w
  hreserved hknown h

theorem decode_eq_unknownOpcode {w : Word} (h : ∀ r ∈ opTable, opcodeOf w ≠ opcodeOf r.pattern) :
    decode w = .error .unknownOpcode :=
  have ⟨_, _, hunknown, _⟩ := decodingFollowsTheOpcodeMap w
  hunknown h

/-- Settles O4: a listed legal word is the word of its command; a listed illegal one has a known opcode and matches no row,
or its opcode is in no row. -/
theorem listedWordsDecode : Obligations.ListedWordsDecode :=
  have hlegal {i : Instr} {w : Word} (h : encode i = w) : decode w = .ok i := h ▸ decode_encode i
  ⟨hlegal (by decide), hlegal (by decide), hlegal (by decide), hlegal (by decide), hlegal (by decide),
    hlegal (by decide), hlegal (by decide), hlegal (by decide), hlegal (by decide), hlegal (by decide),
    hlegal (by decide), hlegal (by decide), hlegal (by decide), hlegal (by decide),
    decode_eq_reservedBits (by decide) (by decide), decode_eq_reservedBits (by decide) (by decide),
    decode_eq_reservedBits (by decide) (by decide), decode_eq_reservedBits (by decide) (by decide),
    decode_eq_unknownOpcode (by decide), decode_eq_unknownOpcode (by decide), decode_eq_unknownOpcode (by decide)⟩

end Sys2Proof

/-! # Proofs of the family other, the field: the tables, the product and the laws of the four functions -/

namespace Sys2Proof.Machine

/-! ### The tables -/

/-- Settles O16: the two tables entry by entry, as for the reset state. -/
theorem resetTablesAreTheConstruction : Obligations.ResetTablesAreTheConstruction :=
  ⟨expAt_reset, fun _ hv => logAt_reset hv⟩

section Intact

variable {T : Tables}

theorem alpha_of_lt {i : Nat} (hi : i < 255) : alpha T i = expAt T i := congrArg (expAt T) (Nat.mod_eq_of_lt hi)

theorem logAt_lt (hT : tablesIntact T) {v : Byte} (hv : v ≠ 0) : logAt T v < 255 := by
  obtain ⟨i, hi, rfl⟩ := exists_alpha_eq hT hv
  rwa [logAt_alpha hT, Nat.mod_eq_of_lt hi]

theorem logAt_expAt (hT : tablesIntact T) {i : Nat} (hi : i < 255) : logAt T (expAt T i) = i := by
  rw [← alpha_of_lt hi, logAt_alpha hT, Nat.mod_eq_of_lt hi]

/-- Entries of `EXP` are read through the powers of α: distinct below 255, and repeating from there (rule R105). -/
theorem nodup_map_expAt (hT : tablesIntact T) : ((List.range 255).map (expAt T)).Nodup :=
  List.Nodup.map_on (fun i hi j hj h => by
    rw [← logAt_expAt hT (List.mem_range.mp hi), h, logAt_expAt hT (List.mem_range.mp hj)]) List.nodup_range

/-- Settles O17: each clause says of the exponents of α modulo 255 what it says of the entries. -/
theorem tablesArePermutations : Obligations.TablesArePermutations := by
  intro T hT
  refine ⟨⟨nodup_map_expAt hT, fun v hv => ?_⟩, ⟨fun i hi => ?_, ?_⟩, ⟨fun v hv => ?_, fun i hi => logAt_expAt hT hi⟩,
    ⟨?_, ?_, ?_, fun v hv => Nat.le_of_lt_succ (logAt_lt hT hv)⟩, fun i hi => ?_⟩
  · obtain ⟨i, hi, h⟩ := exists_alpha_eq hT hv
    exact ⟨i, hi, alpha_of_lt hi ▸ h⟩
  · rw [expAt_eq_alpha hT (by omega), expAt_eq_alpha hT (by omega), alpha_eq_alpha_iff hT]
    omega
  · exact (expAt_eq_alpha hT (by decide)).trans (alpha_zero hT)
  · rw [← alpha_of_lt (logAt_lt hT hv), alpha_logAt hT hv]
  · exact logAt_of_intact hT (by decide)
  · exact logAt_of_intact hT (by decide)
  · exact logAt_of_intact hT (by decide)
  · rw [expAt_eq_alpha hT hi]
    exact alpha_ne_zero hT i

/-- Settles O18: on powers of α both products add exponents. -/
theorem tableProductIsPolynomialProduct : Obligations.TableProductIsPolynomialProduct :=
  fun _ hT => gfMul_eq_bitMul hT

/-! ### The laws of the four functions -/

/-- A nonzero byte has an inverse, and its product with it is 1 (rules R108, R114). -/
theorem exists_gfInv_eq_some (hT : tablesIntact T) {a : Byte} (ha : a ≠ 0) :
    ∃ r, gfInv T a = some r ∧ gfMul T a r = 1 := by
  obtain ⟨r, hr⟩ := exists_gfDiv_eq_some T 1 ha
  exact ⟨r, (gfInv_eq_gfDiv_one hT a).trans hr, (gfMul_comm T a r).trans ((gfDiv_eq_some_iff hT ha r).mp hr)⟩

/-- The quotient is the product with the inverse (rules R107, R114). -/
theorem gfDiv_eq_some_gfMul (hT : tablesIntact T) (a : Byte) {b r : Byte} (hb : b ≠ 0) (hr : gfMul T b r = 1) :
    gfDiv T a b = some (gfMul T a r) := by
  rw [gfDiv_eq_some_iff hT hb, gfMul_assoc hT, gfMul_comm T r b, hr, gfMul_one_right hT]

theorem gfPow_add (hT : tablesIntact T) (a : Byte) (e f : Nat) :
    gfPow T a (e + f) = gfMul T (gfPow T a e) (gfPow T a f) := by
  induction f with
  | zero => rw [Nat.add_zero, gfPow_zero, gfMul_one_right hT]
  | succ f ih => rw [← Nat.add_assoc, gfPow_succ hT, ih, gfPow_succ hT, gfMul_assoc hT]

theorem gfPow_one (hT : tablesIntact T) (a : Byte) : gfPow T a 1 = a := by
  rw [gfPow_succ hT, gfPow_zero, gfMul_one_left hT]

/-- The powers of α are those of the byte 2, whose logarithm is 1 (rules R8, R100). -/
theorem alpha_eq_gfPow (hT : tablesIntact T) (i : Nat) : alpha T i = gfPow T 2 i := by
  have hlog : logAt T 2 = 1 := logAt_of_intact hT (by decide)
  rw [gfPow_eq_alpha hT (by decide), hlog, Nat.one_mul]

theorem gfMul_alpha_alphaInv (hT : tablesIntact T) {i : Nat} (hi : i ≤ 254) : gfMul T (alpha T i) (alphaInv T i) = 1 := by
  have hinv : alphaInv T i = alpha T (255 - i) := rfl
  rw [hinv, gfMul_alpha hT, Nat.add_sub_cancel' (by omega), ← alpha_mod, Nat.mod_self, alpha_zero hT]

end Intact

/-- Settles O19: each law by the lemma of its name. -/
theorem fieldLaws : Obligations.FieldLaws := by
  intro T hT a b c
  refine ⟨⟨BitVec.xor_comm a b, BitVec.xor_assoc a b c, BitVec.xor_zero, BitVec.xor_self⟩,
    ⟨gfMul_comm T a b, gfMul_assoc hT a b c, gfMul_one_right hT a, gfMul_zero_right T a, gfMul_xor_right hT a b c,
      gfMul_eq_zero_iff hT a b⟩,
    fun hb => ?_, exists_gfInv_eq_some hT, ⟨gfPow_one hT a, gfPow_add hT a, fun ha => ?_⟩,
    alpha_eq_gfPow hT, fun i hi => gfMul_alpha_alphaInv hT hi⟩
  · obtain ⟨r, hr, hone⟩ := exists_gfInv_eq_some hT hb
    have hq := gfDiv_eq_some_gfMul hT a hb hone
    exact ⟨r, _, hr, hq, rfl, (gfDiv_eq_some_iff hT hb _).mp hq⟩
  · rw [gfPow_mod hT ha, Nat.mod_self, gfPow_zero]

end Sys2Proof.Machine

/-! # Proofs of the family other, the field as mathematics

The laws of rule R114 make the bytes a field. What follows about words, locators and syndromes is computed in such a field
`F`, with Mathlib's polynomials over it, and carried back to bytes by `FieldModel`. -/

namespace Sys2Proof.Machine

open Polynomial

/-- A field in which bytes compute as the intact tables do: the sum is the exclusive-or, the product the table product. -/
structure FieldModel (T : Tables) (F : Type) [Field F] where
  intact : tablesIntact T
  val : Byte → F
  val_xor : ∀ a b, val (a ^^^ b) = val a + val b
  val_gfMul : ∀ a b, val (gfMul T a b) = val a * val b
  val_injective : Function.Injective val

/-! ### The field of the bytes -/

/-- The bytes as field elements, apart from the arithmetic modulo 256 that `BitVec` has of its own. -/
structure Element where
  byte : Byte

/-- The field that the tables make of the bytes (rule R114). -/
@[reducible] def elementField {T : Tables} (hT : tablesIntact T) : Field Element :=
  letI : Add Element := ⟨fun a b => ⟨a.byte ^^^ b.byte⟩⟩
  letI : Mul Element := ⟨fun a b => ⟨gfMul T a.byte b.byte⟩⟩
  letI : Neg Element := ⟨id⟩
  letI : Inv Element := ⟨fun a => ⟨(gfInv T a.byte).getD 0⟩⟩
  letI : Zero Element := ⟨⟨0⟩⟩
  letI : One Element := ⟨⟨1⟩⟩
  Field.ofMinimalAxioms Element
    (fun a b c => congrArg Element.mk (BitVec.xor_assoc a.byte b.byte c.byte))
    (fun _ => congrArg Element.mk BitVec.zero_xor)
    (fun _ => congrArg Element.mk BitVec.xor_self)
    (fun a b c => congrArg Element.mk (gfMul_assoc hT a.byte b.byte c.byte))
    (fun a b => congrArg Element.mk (gfMul_comm T a.byte b.byte))
    (fun a => congrArg Element.mk (gfMul_one_left hT a.byte))
    (fun a ha => by
      obtain ⟨r, hr, hone⟩ := exists_gfInv_eq_some hT (a := a.byte) fun h => ha (congrArg Element.mk h)
      have hmul : gfMul T a.byte ((gfInv T a.byte).getD 0) = 1 := by rw [hr]; exact hone
      exact congrArg Element.mk hmul)
    rfl
    (fun a b c => congrArg Element.mk (gfMul_xor_right hT a.byte b.byte c.byte))
    ⟨⟨0⟩, ⟨1⟩, fun h => absurd (congrArg Element.byte h) (by decide)⟩

theorem exists_fieldModel {T : Tables} (hT : tablesIntact T) :
    ∃ (F : Type) (_ : Field F), Nonempty (FieldModel T F) :=
  letI := elementField hT
  ⟨Element, elementField hT, ⟨{
    intact := hT
    val := Element.mk
    val_xor := fun _ _ => rfl
    val_gfMul := fun _ _ => rfl
    val_injective := fun _ _ h => congrArg Element.byte h }⟩⟩

namespace FieldModel

variable {T : Tables} {F : Type} [Field F] (φ : FieldModel T F)
include φ

/-! ### The functions of the engine in the field -/

@[simp] theorem val_zero : φ.val 0 = 0 := by
  have h : φ.val 0 = φ.val 0 + φ.val 0 := φ.val_xor 0 0
  rwa [left_eq_add] at h

theorem val_eq_zero_iff {a : Byte} : φ.val a = 0 ↔ a = 0 := by
  rw [← φ.val_zero, φ.val_injective.eq_iff]

@[simp] theorem val_one : φ.val 1 = 1 := by
  have hne : φ.val 1 ≠ 0 := φ.val_eq_zero_iff.not.mpr (by decide)
  have h := φ.val_gfMul 1 1
  rw [gfMul_one_right φ.intact] at h
  exact (left_eq_mul₀ hne).mp h

/-- The field has characteristic 2, because a byte is its own negative. -/
theorem charTwo : CharP F 2 := by
  refine CharTwo.of_one_ne_zero_of_two_eq_zero one_ne_zero ?_
  have h : φ.val 0 = φ.val 1 + φ.val 1 := φ.val_xor 1 1
  rwa [φ.val_zero, φ.val_one, one_add_one_eq_two, eq_comm] at h

theorem add_self (x : F) : x + x = 0 :=
  have := φ.charTwo
  CharTwo.add_self_eq_zero x

theorem neg_eq (x : F) : -x = x := neg_eq_of_add_eq_zero_left (φ.add_self x)

theorem val_xorSum (n : Nat) (t : Nat → Byte) : φ.val (xorSum n t) = ∑ i ∈ Finset.range n, φ.val (t i) := by
  induction n with
  | zero => exact φ.val_zero
  | succ n ih => rw [xorSum_succ, φ.val_xor, ih, Finset.sum_range_succ]

@[simp] theorem val_gfPow (a : Byte) (e : Nat) : φ.val (gfPow T a e) = φ.val a ^ e := by
  induction e with
  | zero => rw [gfPow_zero, φ.val_one, pow_zero]
  | succ e ih => rw [gfPow_succ φ.intact, φ.val_gfMul, ih, pow_succ]

theorem val_alpha (i : Nat) : φ.val (alpha T i) = φ.val 2 ^ i := by
  rw [alpha_eq_gfPow φ.intact, φ.val_gfPow]

theorem val_alpha_ne_zero (i : Nat) : φ.val (alpha T i) ≠ 0 := φ.val_eq_zero_iff.not.mpr (alpha_ne_zero φ.intact i)

theorem val_alphaInv {i : Nat} (hi : i ≤ 254) : φ.val (alphaInv T i) = (φ.val (alpha T i))⁻¹ := by
  refine eq_inv_of_mul_eq_one_right ?_
  rw [← φ.val_gfMul, gfMul_alpha_alphaInv φ.intact hi, φ.val_one]

/-- Horner's rule as a sum of powers, highest degree first (rule R151). -/
theorem val_evalWord (w : Mem) (n : Nat) (x : Byte) :
    φ.val (evalWord T w n x) = ∑ j ∈ Finset.range n, φ.val (Mem.read w j) * φ.val x ^ (n - 1 - j) := by
  simp only [evalWord_eq_xorSum φ.intact, φ.val_xorSum, φ.val_gfMul, φ.val_gfPow]

/-! ### The polynomial of a store -/

/-- The polynomial whose coefficients a store holds, by degree. -/
noncomputable def poly (m : Mem) : F[X] := ∑ i ∈ Finset.range Config.storeSize, monomial i (φ.val (Mem.read m i))

theorem coeff_poly (m : Mem) (i : Nat) :
    (φ.poly m).coeff i = if i < Config.storeSize then φ.val (Mem.read m i) else 0 := by
  simp [poly, coeff_monomial]

theorem coeff_poly_of_lt (m : Mem) {i : Nat} (hi : i < 256) : (φ.poly m).coeff i = φ.val (Mem.read m i) :=
  (φ.coeff_poly m i).trans (if_pos hi)

/-- Above a degree from which the store is zero, the polynomial has no coefficient. -/
theorem natDegree_poly_le {m : Mem} {d : Nat} (h : ∀ i, d < i → Mem.read m i = 0) : (φ.poly m).natDegree ≤ d := by
  refine natDegree_le_iff_coeff_eq_zero.mpr fun i hi => ?_
  rw [coeff_poly, h i hi, φ.val_zero, ite_self]

/-- A product's coefficient as the sum that the rules write (rules R153, R156, R172). -/
theorem coeff_poly_mul_poly (p q : Mem) {k d : Nat} (hk : k < 256) (hd : d ≤ k)
    (hp : ∀ i, d < i → i ≤ k → Mem.read p i = 0) : (φ.poly p * φ.poly q).coeff k =
      φ.val (xorSum (d + 1) fun i => gfMul T (Mem.read p i) (Mem.read q (k - i))) := by
  have hterm : ∀ i ∈ Finset.range (k + 1), (φ.poly p).coeff i * (φ.poly q).coeff (k - i) =
      φ.val (gfMul T (Mem.read p i) (Mem.read q (k - i))) := fun i hi => by
    have hi : i < k + 1 := Finset.mem_range.mp hi
    rw [φ.coeff_poly_of_lt p (by omega), φ.coeff_poly_of_lt q (by omega), φ.val_gfMul]
  rw [coeff_mul, Finset.Nat.sum_antidiagonal_eq_sum_range_succ_mk, φ.val_xorSum]
  refine (Finset.sum_congr rfl hterm).trans
    (Finset.sum_subset (Finset.range_subset_range.mpr (by omega)) fun i hi hout => ?_).symm
  rw [Finset.mem_range] at hi hout
  rw [hp i (by omega) (by omega), gfMul_zero_left, φ.val_zero]

/-- The locator of degree `d` in a store, evaluated (rule R170). -/
theorem val_locatorAt {m : Mem} {d : Nat} (hd : d < 256) (h : ∀ i, d < i → Mem.read m i = 0) (x : Byte) :
    φ.val (locatorAt T m d x) = (φ.poly m).eval (φ.val x) := by
  rw [locatorAt, φ.val_xorSum, eval_eq_sum_range' (Nat.lt_succ_of_le (φ.natDegree_poly_le h))]
  refine Finset.sum_congr rfl fun i hi => ?_
  have hi : i < d + 1 := Finset.mem_range.mp hi
  rw [φ.coeff_poly_of_lt m (by omega), φ.val_gfMul, φ.val_gfPow]

/-- The error evaluator in a store, evaluated (rule R172). -/
theorem val_evaluatorAt {m : Mem} {n : Nat} (hn : n ≤ 256) (h : ∀ i, n ≤ i → Mem.read m i = 0) (x : Byte) :
    φ.val (evaluatorAt T m n x) = (φ.poly m).eval (φ.val x) := by
  obtain rfl | hpos := Nat.eq_zero_or_pos n
  · have hzero : φ.poly m = 0 := by
      ext i
      rw [coeff_poly, h i (Nat.zero_le i), φ.val_zero, ite_self, coeff_zero]
    rw [hzero, eval_zero]
    exact φ.val_zero
  · have hdegree : (φ.poly m).natDegree < n := by
      have := φ.natDegree_poly_le (m := m) (d := n - 1) fun i hi => h i (by omega)
      omega
    rw [evaluatorAt, φ.val_xorSum, eval_eq_sum_range' hdegree]
    refine Finset.sum_congr rfl fun i hi => ?_
    have hi : i < n := Finset.mem_range.mp hi
    rw [φ.coeff_poly_of_lt m (by omega), φ.val_gfMul, φ.val_gfPow]

/-- In characteristic 2 the odd degrees alone are left of the derivative (rule R172). -/
theorem val_derivativeAt {m : Mem} {d : Nat} (hd : d < 256) (h : ∀ i, d < i → Mem.read m i = 0) (x : Byte) :
    φ.val (derivativeAt T m d x) = (derivative (φ.poly m)).eval (φ.val x) := by
  have := φ.charTwo
  rw [derivativeAt, φ.val_xorSum, derivative_eval,
    sum_over_range' _ (by simp) (d + 1) (Nat.lt_succ_of_le (φ.natDegree_poly_le h))]
  refine Finset.sum_congr rfl fun i hi => ?_
  have hi : i < d + 1 := Finset.mem_range.mp hi
  have hcoeff : (φ.poly m).coeff i = φ.val (Mem.read m i) := φ.coeff_poly_of_lt m (by omega)
  rw [hcoeff, CharTwo.natCast_eq_mod]
  obtain hodd | heven := Nat.mod_two_eq_zero_or_one i |>.symm
  · rw [if_pos hodd, hodd, φ.val_gfMul, φ.val_gfPow, Nat.cast_one, mul_one]
  · rw [if_neg (by omega), heven, φ.val_zero, Nat.cast_zero, mul_zero, zero_mul]

end FieldModel

end Sys2Proof.Machine

/-! # Proofs of the family other, the encoder: the shift register, and that an encoded word is a codeword -/

namespace Sys2Proof.Machine

/-! ### The division and the shift register -/

/-- One pass of the division, whether its leading coefficient is 0 or not (rule R134). -/
theorem read_divStep (T : Tables) (g w : Mem) (nsym i a : Nat) :
    Mem.read (divStep T g nsym i w) a = if i + 1 ≤ a ∧ a < i + 1 + nsym
      then Mem.read w a ^^^ gfMul T (Mem.read g (a - i)) (Mem.read w i) else Mem.read w a := by
  unfold divStep
  by_cases hc : Mem.read w i = 0
  · have hsame : Mem.read w a ^^^ (0 : Byte) = Mem.read w a := BitVec.xor_zero
    rw [if_pos hc, hc, gfMul_zero_right, hsame, ite_self]
  · simp only [if_neg hc, Mem.read_fill]

/-- One clock of the shift register (rule R137). -/
theorem read_shiftStep (T : Tables) (g p : Mem) (nsym : Nat) (c : Byte) (t : Nat) :
    Mem.read (shiftStep T g nsym c p) t = if t < nsym then (if t + 1 < nsym then Mem.read p (t + 1) else 0) ^^^
      gfMul T (Mem.read g (t + 1)) (c ^^^ Mem.read p 0) else 0 := by
  simp [shiftStep, Mem.read_fill]

/-- The division has made pass `k` and the register has taken `k` payload bytes: from byte `k` on the divided sequence is
the one it started from, `w₀`, with the register `p` added to its next bytes. -/
structure RegisterMatches (w₀ : Mem) (nsym k : Nat) (w p : Mem) : Prop where
  window : ∀ j, Mem.read w (k + j) = Mem.read w₀ (k + j) ^^^ Mem.read p j
  length : ∀ j, nsym ≤ j → Mem.read p j = 0

theorem RegisterMatches.step {T : Tables} {g w₀ w p : Mem} {nsym k : Nat} (h : RegisterMatches w₀ nsym k w p) :
    RegisterMatches w₀ nsym (k + 1) (divStep T g nsym k w) (shiftStep T g nsym (Mem.read w₀ k) p) where
  window j := by
    have hlead : Mem.read w k = Mem.read w₀ k ^^^ Mem.read p 0 := h.window 0
    have hnext : Mem.read w (k + 1 + j) = Mem.read w₀ (k + 1 + j) ^^^ Mem.read p (j + 1) := by
      rw [Nat.add_right_comm k 1 j]
      exact h.window (j + 1)
    have hindex : k + 1 + j - k = j + 1 := by omega
    rw [read_divStep, read_shiftStep, hnext, hlead, hindex]
    obtain hin | hout := Nat.lt_or_ge j nsym
    · rw [if_pos (by omega), if_pos hin, BitVec.xor_assoc]
      split
      · rfl
      · next hlast => rw [h.length (j + 1) (by omega)]
    · rw [if_neg (by omega), if_neg (by omega), h.length (j + 1) (by omega)]
  length j hj := by rw [read_shiftStep, if_neg (by omega)]

/-- The division in step with the register, over a word that is `cw` below `dlen` and zero from there. -/
theorem registerMatches_loop (T : Tables) (g cw : Mem) (dlen nsym : Nat) :
    RegisterMatches (Mem.fill [] 0 dlen (Mem.read cw)) nsym dlen (divSequence T g cw dlen nsym)
      (shiftRegister T g cw dlen nsym) := by
  have hread : ∀ i, i < dlen → Mem.read (Mem.fill [] 0 dlen (Mem.read cw)) i = Mem.read cw i := fun i hi => by
    rw [Mem.read_fill, if_pos (by omega)]
  have hloop : ∀ k, k ≤ dlen → RegisterMatches (Mem.fill [] 0 dlen (Mem.read cw)) nsym k
      (loop k (divStep T g nsym) (Mem.fill [] 0 dlen (Mem.read cw)))
      (loop k (fun i p => shiftStep T g nsym (Mem.read cw i) p) []) := by
    intro k
    induction k with
    | zero => exact fun _ => ⟨fun j => BitVec.xor_zero.symm, fun _ _ => rfl⟩
    | succ k ih =>
      intro hk
      rw [loop_succ, loop_succ, ← hread k hk]
      exact (ih (by omega)).step
  exact hloop dlen (le_refl dlen)

/-- What the division leaves behind the payload is the register (rule R137). -/
theorem read_divSequence_eq_shiftRegister (T : Tables) (g cw : Mem) (dlen nsym k : Nat) :
    Mem.read (divSequence T g cw dlen nsym) (dlen + k) = Mem.read (shiftRegister T g cw dlen nsym) k := by
  rw [(registerMatches_loop T g cw dlen nsym).window, Mem.read_fill, if_neg (by omega)]
  exact BitVec.zero_xor

theorem read_encodedBuffer_shiftRegister (s : State) {k : Nat} (hk : k < s.nsym.toNat) :
    Mem.read (encodedBuffer s) (s.dlen.toNat + k) = Mem.read
      (shiftRegister s.tables (generatorPoly s.tables s.nsym.toNat) s.cw s.dlen.toNat s.nsym.toNat) k :=
  (read_encodedBuffer_parity s hk).trans (read_divSequence_eq_shiftRegister ..)

/-- Settles O29: `registerMatches_loop`, an induction on the payload bytes. -/
theorem parityIsTheShiftRegister : Obligations.ParityIsTheShiftRegister := fun s hlegal =>
  ⟨rsencState s, exec_rsenc_eq hlegal, fun _ hk => read_encodedBuffer_shiftRegister s hk⟩

/-! ### The register at a root of the generator polynomial -/

namespace FieldModel

variable {T : Tables} {F : Type} [Field F] (φ : FieldModel T F)
include φ

/-- At a root of a monic generator the lower coefficients make up for the leading power. -/
theorem sum_generator_tail {g : Mem} {nsym : Nat} {x : Byte} (hmonic : Mem.read g 0 = 1)
    (hroot : evalWord T g (nsym + 1) x = 0) :
    ∑ t ∈ Finset.range nsym, φ.val (Mem.read g (t + 1)) * φ.val x ^ (nsym - 1 - t) = φ.val x ^ nsym := by
  have hsum := φ.val_evalWord g (nsym + 1) x
  rw [hroot, φ.val_zero, Finset.sum_range_succ', hmonic, φ.val_one, one_mul, eq_comm] at hsum
  have hterm : ∀ t ∈ Finset.range nsym, φ.val (Mem.read g (t + 1)) * φ.val x ^ (nsym + 1 - 1 - (t + 1)) =
      φ.val (Mem.read g (t + 1)) * φ.val x ^ (nsym - 1 - t) := fun t _ => by
    have hexp : nsym + 1 - 1 - (t + 1) = nsym - 1 - t := by omega
    rw [hexp]
  rw [Finset.sum_congr rfl hterm] at hsum
  rw [eq_neg_of_add_eq_zero_left hsum, φ.neg_eq]
  rfl

/-- One clock multiplies the register's value by `x` and adds the payload byte at degree `nsym`. -/
theorem val_shiftStep {g p : Mem} {nsym : Nat} {x : Byte} (hpos : 0 < nsym) (hmonic : Mem.read g 0 = 1)
    (hroot : evalWord T g (nsym + 1) x = 0) (c : Byte) :
    φ.val (evalWord T (shiftStep T g nsym c p) nsym x) =
      φ.val (evalWord T p nsym x) * φ.val x + φ.val c * φ.val x ^ nsym := by
  obtain ⟨n, rfl⟩ : ∃ n, nsym = n + 1 := ⟨nsym - 1, by omega⟩
  have hclock : ∀ t ∈ Finset.range (n + 1),
      φ.val (Mem.read (shiftStep T g (n + 1) c p) t) * φ.val x ^ (n + 1 - 1 - t) =
        φ.val (if t + 1 < n + 1 then Mem.read p (t + 1) else 0) * φ.val x ^ (n + 1 - 1 - t) +
          φ.val (c ^^^ Mem.read p 0) * (φ.val (Mem.read g (t + 1)) * φ.val x ^ (n + 1 - 1 - t)) := fun t ht => by
    rw [read_shiftStep, if_pos (Finset.mem_range.mp ht), φ.val_xor, φ.val_gfMul]
    ring
  have hshift : ∑ t ∈ Finset.range (n + 1), φ.val (if t + 1 < n + 1 then Mem.read p (t + 1) else 0) *
      φ.val x ^ (n + 1 - 1 - t) = ∑ t ∈ Finset.range n, φ.val (Mem.read p (t + 1)) * φ.val x ^ (n + 1 - 1 - (t + 1)) *
        φ.val x := by
    rw [Finset.sum_range_succ, if_neg (Nat.lt_irrefl _), φ.val_zero, zero_mul, add_zero]
    refine Finset.sum_congr rfl fun t ht => ?_
    have ht : t < n := Finset.mem_range.mp ht
    have hexp : n + 1 - 1 - t = n + 1 - 1 - (t + 1) + 1 := by omega
    rw [if_pos (by omega), hexp, pow_succ, mul_assoc]
  rw [φ.val_evalWord, φ.val_evalWord, Finset.sum_congr rfl hclock, Finset.sum_add_distrib, ← Finset.mul_sum,
    φ.sum_generator_tail hmonic hroot, hshift, ← Finset.sum_mul, Finset.sum_range_succ' _ n, φ.val_xor]
  have hexp : φ.val x ^ (n + 1 - 1 - 0) * φ.val x = φ.val x ^ (n + 1) := (pow_succ _ _).symm
  linear_combination (-φ.val (Mem.read p 0)) * hexp

/-- At a root of the generator the register is the payload times `x ^ nsym` (rules R134, R137). -/
theorem val_shiftRegister {g : Mem} {nsym : Nat} {x : Byte} (hpos : 0 < nsym) (hmonic : Mem.read g 0 = 1)
    (hroot : evalWord T g (nsym + 1) x = 0) (cw : Mem) (dlen : Nat) :
    φ.val (evalWord T (shiftRegister T g cw dlen nsym) nsym x) = φ.val (evalWord T cw dlen x) * φ.val x ^ nsym := by
  induction dlen with
  | zero =>
    have hempty : φ.val (evalWord T [] nsym x) = 0 := by
      rw [φ.val_evalWord]
      exact Finset.sum_eq_zero fun j _ => by rw [Mem.read_nil, φ.val_zero, zero_mul]
    rw [evalWord_zero, φ.val_zero, zero_mul]
    exact hempty
  | succ d ih =>
    have hclock : shiftRegister T g cw (d + 1) nsym =
      shiftStep T g nsym (Mem.read cw d) (shiftRegister T g cw d nsym) := rfl
    rw [hclock, φ.val_shiftStep hpos hmonic hroot, ih, evalWord_succ, φ.val_xor, φ.val_gfMul]
    ring

/-- A word splits into its first `d` bytes, `m` degrees up, and the `m` bytes after them. -/
theorem val_evalWord_add (w : Mem) (d m : Nat) (x : Byte) : φ.val (evalWord T w (d + m) x) =
    φ.val (evalWord T w d x) * φ.val x ^ m +
      ∑ t ∈ Finset.range m, φ.val (Mem.read w (d + t)) * φ.val x ^ (m - 1 - t) := by
  rw [φ.val_evalWord, φ.val_evalWord, Finset.sum_range_add, Finset.sum_mul]
  congr 1
  · refine Finset.sum_congr rfl fun j hj => ?_
    have hj : j < d := Finset.mem_range.mp hj
    have hexp : d + m - 1 - j = d - 1 - j + m := by omega
    rw [hexp, pow_add, mul_assoc]
  · refine Finset.sum_congr rfl fun t ht => ?_
    have ht : t < m := Finset.mem_range.mp ht
    have hexp : d + m - 1 - (d + t) = m - 1 - t := by omega
    rw [hexp]

end FieldModel

/-! ### The encoded word -/

/-- Horner's rule uses a word only below its length (rule R151). -/
theorem evalWord_congr (T : Tables) {w w' : Mem} {n : Nat} (h : ∀ j, j < n → Mem.read w j = Mem.read w' j) (x : Byte) :
    evalWord T w n x = evalWord T w' n x := by
  induction n with
  | zero => rfl
  | succ n ih => rw [evalWord_succ, evalWord_succ, ih fun j hj => h j (by omega), h n (by omega)]

/-- Payload and parity cancel at every root of the generator polynomial (rule R136). -/
theorem holdsCodeword_rsencState {s : State} (hT : tablesIntact s.tables) : holdsCodeword (rsencState s) := by
  intro i hi
  have hi : i < s.nsym.toNat := hi
  obtain ⟨F, _, ⟨φ⟩⟩ := exists_fieldModel hT
  obtain ⟨hmonic, _, _, hroots⟩ := generatorOfDegree_generatorPoly hT s.nsym.toNat
  have hpayload : evalWord s.tables (encodedBuffer s) s.dlen.toNat (alpha s.tables i) =
      evalWord s.tables s.cw s.dlen.toNat (alpha s.tables i) :=
    evalWord_congr s.tables (fun j hj => read_encodedBuffer_other s (.inl hj)) _
  have hparity : ∑ t ∈ Finset.range s.nsym.toNat, φ.val (Mem.read (encodedBuffer s) (s.dlen.toNat + t)) *
      φ.val (alpha s.tables i) ^ (s.nsym.toNat - 1 - t) =
        φ.val (evalWord s.tables s.cw s.dlen.toNat (alpha s.tables i)) * φ.val (alpha s.tables i) ^ s.nsym.toNat := by
    rw [← φ.val_shiftRegister (Nat.zero_lt_of_lt hi) hmonic (hroots i hi), φ.val_evalWord]
    refine Finset.sum_congr rfl fun t ht => ?_
    rw [read_encodedBuffer_shiftRegister s (Finset.mem_range.mp ht)]
  have hword : φ.val (evalWord s.tables (encodedBuffer s) (s.dlen.toNat + s.nsym.toNat) (alpha s.tables i)) = 0 := by
    rw [φ.val_evalWord_add, hpayload, hparity, φ.add_self]
  exact φ.val_eq_zero_iff.mp hword

/-- `SYND` on a codeword (rules R151, R152). -/
theorem exec_synd_of_holdsCodeword {s : State} (hc : ¬ configIllegal s) (h : holdsCodeword s) :
    ∃ u, exec .synd s = .next u ∧ u.status.szero = true ∧ ∀ i, Mem.read u.synd i = 0 := by
  have hword : holdsCodeword { s with chain := false, phase := .syn } := h
  have hsynd := synd_computeSyndromes_of_holdsCodeword hword
  refine ⟨_, exec_synd_legal s hc, (szero_computeSyndromes_iff_holdsCodeword _).mpr hword, fun i => ?_⟩
  rw [toIdle_synd, setOk_synd, hsynd, Mem.read_nil]

/-- Settles O30: the parity is the register's value, which cancels the payload's at every root. -/
theorem encodedWordHasZeroSyndromes : Obligations.EncodedWordHasZeroSyndromes := by
  intro s hT hlegal
  have hword := holdsCodeword_rsencState hT
  obtain ⟨u, hu, hszero, hzero⟩ := exec_synd_of_holdsCodeword (s := rsencState s) (Nat.not_lt.mpr hlegal) hword
  exact ⟨rsencState s, u, exec_rsenc_eq hlegal, hword, fun _ hj => read_encodedBuffer_other s (.inl hj), hu, hszero,
    hzero⟩

/-- Settles O31: an encoded word is a codeword, and on a codeword `RSDEC` takes its early exit. -/
theorem encodedWordDecodesClean : Obligations.EncodedWordDecodesClean := fun s hT hlegal =>
  ⟨rsencState s, _, exec_rsenc_eq hlegal,
    cleanWordTakesTheEarlyExit (rsencState s) hlegal (holdsCodeword_rsencState hT), rfl, rfl, rfl, rfl⟩

end Sys2Proof.Machine

/-! # Proofs of the family other, the locator: what the recurrence keeps, and that its length is the least -/

namespace Sys2Proof.Machine

open Polynomial

/-! ### The recurrence in bounds -/

theorem bdisc_bmaInit_ne_zero (s : State) : (bmaInit s).bdisc ≠ 0 := by
  have hone : (bmaInit s).bdisc = 1 := rfl
  rw [hone]
  decide

/-- `BDISC` starts at 1 and takes nonzero discrepancies alone (rule R156 (c)). -/
theorem bdisc_bmaRun_ne_zero (n : Nat) (s : State) : (bmaRun n s).bdisc ≠ 0 := by
  refine loop_induction (fun _ r => r.bdisc ≠ 0) n bmaStep (bmaInit s) (bdisc_bmaInit_ne_zero s) fun i r _ hr => ?_
  obtain ⟨_, e⟩ | ⟨hd, _, e⟩ | ⟨_, _, e⟩ := bmaStep_cases i r <;> rw [e]
  · exact hr
  · exact hd
  · exact hr

/-- `BMA` leaves what its first phase leaves, but for the gate's verdict (rule R155). -/
theorem exec_bma_writes {s : State} (h : ¬ configIllegal s) : ∃ r c p b, exec .bma s = .next
    { phaseBma { s with chain := false, phase := .bma } with
      status := { (phaseBma { s with chain := false, phase := .bma }).status with result := r, cause := c }
      phase := p, chain := b } := by
  obtain ⟨r, c, p, b, e⟩ := phaseGate_writes (phaseBma { s with chain := false, phase := .bma })
  exact ⟨r, c, p, b, (exec_bma_legal s h).trans (congrArg Host.Outcome.next e)⟩

/-- What phase `BMA` leaves within bounds (rule R156 (a) to (e)). -/
structure LocatorInBounds (nsym : Nat) (t : State) : Prop where
  sigma_zero : Mem.read t.sigma 0 = 1
  len : t.len.toNat ≤ nsym
  bdisc : t.bdisc ≠ 0
  deg : t.deg.toNat ≤ t.len.toNat
  mshift_pos : 1 ≤ t.mshift.toNat
  mshift : t.mshift.toNat ≤ nsym + 1
  bpoly : ∀ i, Mem.read t.bpoly i ≠ 0 → i + t.mshift.toNat ≤ nsym + 1

theorem locatorInBounds_phaseBma (s : State) : LocatorInBounds s.nsym.toNat (phaseBma s) := by
  have h := RecurrenceBounds.of_bmaRun s (Nat.le_of_lt_succ s.nsym.isLt)
  have hbdisc := bdisc_bmaRun_ne_zero s.nsym.toNat s
  obtain ⟨hdeg, _⟩ := locatorLegal_phaseBma s
  have hpos := h.shift_pos
  have hsum := h.shift_add_len
  rw [phaseBma_eq] at hdeg ⊢
  refine ⟨h.sigma_zero, ?_, hbdisc, hdeg, hpos, ?_, fun i hi => ?_⟩
  · exact Nat.le_of_add_le_add_left (hsum.trans (by omega))
  · exact (Nat.le_add_right _ _).trans hsum
  · by_contra hlt
    exact hi (h.bpoly_above i (by simp only at hlt; omega))

/-- Settles O35: the bounds of the recurrence after its last step. -/
theorem bmaInvariantsHold : Obligations.BmaInvariantsHold := by
  intro s hlegal
  obtain ⟨_, _, _, _, e⟩ := exec_bma_writes (s := s) (Nat.not_lt.mpr hlegal)
  obtain ⟨hone, hlen, hbdisc, hdeg, hpos, hmshift, hbpoly⟩ :=
    locatorInBounds_phaseBma { s with chain := false, phase := .bma }
  exact ⟨_, e, hone, hlen, hbdisc, hdeg, hpos, hmshift, hbpoly⟩

/-! ### The discrepancy and the update, in the field -/

/-- The first term of a sum apart from the others. -/
theorem xorSum_succ_front (n : Nat) (t : Nat → Byte) : xorSum (n + 1) t = t 0 ^^^ xorSum n (fun i => t (i + 1)) := by
  induction n with
  | zero => exact BitVec.xor_comm _ _
  | succ n ih => rw [xorSum_succ, ih, BitVec.xor_assoc, ← xorSum_succ n fun i => t (i + 1)]

namespace FieldModel

variable {T : Tables} {F : Type} [Field F] (φ : FieldModel T F)
include φ

/-- The discrepancy of step `n` is the coefficient of degree `n` of σ S (rule R153). -/
theorem val_discrepancy {n : Nat} {s : State} (hT : s.tables = T) (h : RecurrenceBounds n s) (hn : n < 255) :
    φ.val (discrepancy s n) = (φ.poly s.sigma * φ.poly s.synd).coeff n := by
  have hlen : s.len.toNat ≤ n := by
    have := h.shift_add_len
    have := h.shift_pos
    omega
  rw [φ.coeff_poly_mul_poly _ _ (by omega) hlen fun i hi _ => h.sigma_above i hi, xorSum_succ_front, h.sigma_zero,
    gfMul_one_left φ.intact, Nat.sub_zero, discrepancy, hT]

/-- The updated locator is σ + q x^m B, if x^m B stays inside the store (rule R153). -/
theorem poly_updateSigma (sigma : Mem) {bpoly : Mem} {m : Nat} (q : Byte)
    (h : ∀ a, Config.storeSize ≤ a → m ≤ a → Mem.read bpoly (a - m) = 0) :
    φ.poly (updateSigma T sigma bpoly m q) = φ.poly sigma + C (φ.val q) * (X ^ m * φ.poly bpoly) := by
  ext a
  rw [coeff_add, coeff_C_mul, coeff_X_pow_mul', coeff_poly, coeff_poly, coeff_poly, read_updateSigma]
  by_cases ha : a < Config.storeSize
  · by_cases hm : m ≤ a
    · rw [if_pos ha, if_pos ha, if_pos hm, if_pos ⟨hm, ha⟩, if_pos (by omega), φ.val_xor, φ.val_gfMul]
    · rw [if_pos ha, if_pos ha, if_neg hm, if_neg fun hboth => hm hboth.1, mul_zero, add_zero]
  · rw [if_neg ha, if_neg ha, zero_add]
    split
    · next hm => rw [h a (by omega) hm, φ.val_zero, ite_self, mul_zero]
    · exact (mul_zero _).symm

/-- The quotient of a step times `BDISC` is the discrepancy (rules R107, R153). -/
theorem val_quotient (d : Byte) {b : Byte} (hb : b ≠ 0) :
    φ.val ((gfDiv T d b).getD 0) * φ.val b = φ.val d := by
  obtain ⟨q, hq⟩ := exists_gfDiv_eq_some T d hb
  rw [hq, Option.getD_some, ← φ.val_gfMul, (gfDiv_eq_some_iff φ.intact hb q).mp hq]

end FieldModel

/-! ### The locator annihilates the syndromes

After `n` steps σ S has no coefficient from degree `L` up to degree n - 1, and B S has none in the degrees below n - m where
x^m B could disturb σ; its coefficient at n - m is `BDISC`, with which an update cancels a discrepancy. -/

/-- The invariant of the recurrence after `n` steps (rule R156 (f)), for the tables that the field models. -/
structure Annihilates {T : Tables} {F : Type} [Field F] (φ : FieldModel T F) (n : Nat) (s : State) : Prop where
  tables : s.tables = T
  bounds : RecurrenceBounds n s
  bdisc : s.bdisc ≠ 0
  locator : ∀ k, s.len.toNat ≤ k → k < n → (φ.poly s.sigma * φ.poly s.synd).coeff k = 0
  auxiliary : ∀ k, n + 1 ≤ s.mshift.toNat + s.len.toNat + k → k + s.mshift.toNat < n →
    (φ.poly s.bpoly * φ.poly s.synd).coeff k = 0
  auxiliaryDiscrepancy : 0 < s.len.toNat →
    (φ.poly s.bpoly * φ.poly s.synd).coeff (n - s.mshift.toNat) = φ.val s.bdisc

namespace Annihilates

variable {T : Tables} {F : Type} [Field F] {φ : FieldModel T F} {n : Nat} {s : State}

theorem of_bmaInit (hT : s.tables = T) : Annihilates φ 0 (bmaInit s) where
  tables := hT
  bounds := recurrenceBounds_bmaInit s
  bdisc := bdisc_bmaInit_ne_zero s
  locator _ _ hk := absurd hk (Nat.not_lt_zero _)
  auxiliary _ _ hk := absurd hk (Nat.not_lt_zero _)
  auxiliaryDiscrepancy h := absurd h (Nat.lt_irrefl 0)

/-- The update cancels the discrepancy of step `n` and disturbs no earlier degree from n + 1 - `L` on. -/
theorem coeff_updateSigma (h : Annihilates φ n s) (hn : n < 255) {k : Nat} (hlen : s.len.toNat ≤ k)
    (hchange : n + 1 ≤ s.len.toNat + k) (hk : k ≤ n) :
    (φ.poly (updateSigma s.tables s.sigma s.bpoly s.mshift.toNat
      ((gfDiv s.tables (discrepancy s n) s.bdisc).getD 0)) * φ.poly s.synd).coeff k = 0 := by
  have hsum := h.bounds.shift_add_len
  have hdisc := φ.val_discrepancy h.tables h.bounds hn
  have hquotient := φ.val_quotient (discrepancy s n) h.bdisc
  have hinside : ∀ a, 256 ≤ a → s.mshift.toNat ≤ a → Mem.read s.bpoly (a - s.mshift.toNat) = 0 := fun a ha _ =>
    h.bounds.bpoly_above _ (by omega)
  rw [h.tables, φ.poly_updateSigma s.sigma _ hinside, add_mul, mul_assoc, mul_assoc, coeff_add, coeff_C_mul,
    coeff_X_pow_mul']
  obtain hlt | rfl := Nat.lt_or_eq_of_le hk
  · rw [h.locator k hlen hlt, zero_add]
    split
    · rw [h.auxiliary _ (by omega) (by omega), mul_zero]
    · exact mul_zero _
  · rw [if_pos (by omega), h.auxiliaryDiscrepancy (by omega), hquotient, ← hdisc, φ.add_self]

/-- The steps that only shift B keep what is known of it, whatever they do to σ. -/
theorem of_shift (h : Annihilates φ n s) (hn : n < 255) {sigma : Mem}
    (hbounds : RecurrenceBounds (n + 1) { s with sigma := sigma, mshift := s.mshift + 1 })
    (hlocator : ∀ k, s.len.toNat ≤ k → k < n + 1 → (φ.poly sigma * φ.poly s.synd).coeff k = 0) :
    Annihilates φ (n + 1) { s with sigma := sigma, mshift := s.mshift + 1 } where
  tables := h.tables
  bounds := hbounds
  bdisc := h.bdisc
  locator := hlocator
  auxiliary k hlow hk := by
    simp only [h.bounds.toNat_mshift_succ hn] at hlow hk
    exact h.auxiliary k (by omega) (by omega)
  auxiliaryDiscrepancy hpos := by
    simp only [h.bounds.toNat_mshift_succ hn, Nat.add_sub_add_right]
    exact h.auxiliaryDiscrepancy hpos

/-- The three ways of a step: no discrepancy, a longer recurrence whose B is the old σ, or the same length. -/
theorem step (h : Annihilates φ n s) (hn : n < 255) : Annihilates φ (n + 1) (bmaStep n s) := by
  have hbounds := h.bounds.after_bmaStep hn
  have hdisc := φ.val_discrepancy h.tables h.bounds hn
  obtain ⟨hzero, e⟩ | ⟨hd, hl, e⟩ | ⟨_, hl, e⟩ := bmaStep_cases n s <;> rw [e] at hbounds ⊢
  case inl =>
    refine h.of_shift hn hbounds fun k hlen hk => ?_
    obtain hlt | rfl := Nat.lt_succ_iff_lt_or_eq.mp hk
    · exact h.locator k hlen hlt
    · rw [← hdisc, hzero, φ.val_zero]
  case inr.inl =>
    have hone : (1 : BitVec 9).toNat = 1 := rfl
    have hlen : (BitVec.ofNat 8 (n + 1 - s.len.toNat)).toNat = n + 1 - s.len.toNat := by
      rw [BitVec.toNat_ofNat]; exact Nat.mod_eq_of_lt (by omega)
    exact {
      tables := h.tables
      bounds := hbounds
      bdisc := hd
      locator := fun k hlow hk => by
        simp only [hlen] at hlow
        exact h.coeff_updateSigma hn (by omega) (by omega) (by omega)
      auxiliary := fun k hlow hk => by
        simp only [hlen, hone] at hlow hk
        exact h.locator k (by omega) (by omega)
      auxiliaryDiscrepancy := fun _ => hdisc.symm }
  case inr.inr =>
    exact h.of_shift hn hbounds fun k hlow hk => h.coeff_updateSigma hn hlow (by omega) (by omega)

theorem of_bmaRun (φ : FieldModel T F) (hT : s.tables = T) (hn : n ≤ 255) : Annihilates φ n (bmaRun n s) :=
  loop_induction (Annihilates φ) n bmaStep (bmaInit s) (of_bmaInit hT) fun _ _ hi h => h.step (by omega)

end Annihilates

@[simp] theorem synd_bmaRun (n : Nat) (s : State) : (bmaRun n s).synd = s.synd := by
  obtain ⟨_, _, _, _, _, e⟩ := bmaRun_frame n s
  rw [e]

/-- The locator that phase `BMA` leaves annihilates the syndromes from degree `L` on (rule R156 (f)). -/
theorem coeff_sigma_synd_phaseBma {T : Tables} {F : Type} [Field F] {s : State} (φ : FieldModel T F)
    (hT : s.tables = T) {k : Nat} (hlen : (phaseBma s).len.toNat ≤ k) (hk : k < s.nsym.toNat) :
    (φ.poly (phaseBma s).sigma * φ.poly s.synd).coeff k = 0 := by
  have h := Annihilates.of_bmaRun φ hT (Nat.le_of_lt_succ s.nsym.isLt)
  rw [phaseBma_eq] at hlen ⊢
  have hcoeff := h.locator k hlen hk
  rwa [synd_bmaRun] at hcoeff

/-- Settles O36: `Annihilates`, kept by every step of the recurrence, as the sum of rule R156 writes it. -/
theorem locatorAnnihilatesTheSyndromes : Obligations.LocatorAnnihilatesTheSyndromes := by
  intro s hT hlegal
  obtain ⟨F, _, ⟨φ⟩⟩ := exists_fieldModel hT
  obtain ⟨_, _, _, _, e⟩ := exec_bma_writes (s := s) (Nat.not_lt.mpr hlegal)
  refine ⟨_, e, fun k hlen hk => φ.val_eq_zero_iff.mp ?_⟩
  have habove : ∀ i, (phaseBma { s with chain := false, phase := .bma }).len.toNat < i →
      Mem.read (phaseBma { s with chain := false, phase := .bma }).sigma i = 0 := fun i hi => by
    obtain ⟨hdeg, habove, _⟩ := locatorLegal_phaseBma { s with chain := false, phase := .bma }
    exact habove i (by omega)
  rw [← φ.coeff_poly_mul_poly _ _ (by omega) hlen fun i hi _ => habove i hi]
  exact coeff_sigma_synd_phaseBma (s := { s with chain := false, phase := .bma }) φ rfl hlen hk

/-! ### The length of the recurrence is the least -/

/-- A product's coefficient at `n`, when the second factor has none in the degrees that the first reaches down to. -/
theorem coeff_mul_eq_constantTerm_mul {F : Type} [Field F] {p q : F[X]} {l n : Nat} (hp : p.natDegree ≤ l)
    (hq : ∀ k, n ≤ k + l → k < n → q.coeff k = 0) : (p * q).coeff n = p.coeff 0 * q.coeff n := by
  rw [coeff_mul, Finset.Nat.sum_antidiagonal_eq_sum_range_succ_mk]
  refine Finset.sum_eq_single 0 (fun i hi hne => ?_) fun h => absurd (Finset.mem_range.mpr n.succ_pos) h
  have hi : i < n + 1 := Finset.mem_range.mp hi
  obtain hle | hlt := Nat.lt_or_ge l i |>.symm
  · rw [hq (n - i) (by omega) (by omega), mul_zero]
  · rw [coeff_eq_zero_of_natDegree_lt (by omega), zero_mul]

/-- If a recurrence of length `l` annihilates the syndromes up to degree `n`, and another of length `L` does so below `n` but
not at `n`, then L + l > n: their lengths leave no room to fail at `n`. -/
theorem lt_add_of_discrepancy {F : Type} [Field F] {σ τ S : F[X]} {L l n : Nat} (hσdeg : σ.natDegree ≤ L)
    (hσ : ∀ k, L ≤ k → k < n → (σ * S).coeff k = 0) (hdisc : (σ * S).coeff n ≠ 0) (hτdeg : τ.natDegree ≤ l)
    (hτ : ∀ k, l ≤ k → k ≤ n → (τ * S).coeff k = 0) (hτone : τ.coeff 0 = 1) : n < L + l := by
  by_contra hroom
  have hfirst : (τ * (σ * S)).coeff n = τ.coeff 0 * (σ * S).coeff n :=
    coeff_mul_eq_constantTerm_mul hτdeg fun k hk hlt => hσ k (by omega) hlt
  have hsecond : (σ * (τ * S)).coeff n = σ.coeff 0 * (τ * S).coeff n :=
    coeff_mul_eq_constantTerm_mul hσdeg fun k hk hlt => hτ k (by omega) hlt.le
  rw [hτ n (by omega) (le_refl n), mul_zero, mul_left_comm, hfirst, hτone, one_mul] at hsecond
  exact hdisc hsecond

/-- No recurrence that annihilates the syndromes is shorter than `L`. -/
theorem len_bmaRun_le {T : Tables} {F : Type} [Field F] {s : State} (φ : FieldModel T F) (hT : s.tables = T)
    {τ : F[X]} {l n : Nat} (hn : n ≤ 255) (hτone : τ.coeff 0 = 1) (hτdeg : τ.natDegree ≤ l)
    (hτ : ∀ k, l ≤ k → k < n → (τ * φ.poly s.synd).coeff k = 0) : (bmaRun n s).len.toNat ≤ l := by
  induction n with
  | zero => exact Nat.zero_le l
  | succ n ih =>
    have hle := ih (by omega) fun k hlow hk => hτ k hlow (by omega)
    have h := Annihilates.of_bmaRun (n := n) φ hT (by omega)
    rw [bmaRun_succ]
    obtain ⟨_, e⟩ | ⟨hd, hl, e⟩ | ⟨_, _, e⟩ := bmaStep_cases n (bmaRun n s) <;> rw [e]
    · exact hle
    · have hdisc := φ.val_discrepancy h.tables h.bounds (by omega)
      have hfails : (φ.poly (bmaRun n s).sigma * φ.poly s.synd).coeff n ≠ 0 := by
        rw [synd_bmaRun] at hdisc
        exact hdisc ▸ φ.val_eq_zero_iff.not.mpr hd
      have hlocator := h.locator
      rw [synd_bmaRun] at hlocator
      have hroom := lt_add_of_discrepancy (φ.natDegree_poly_le h.bounds.sigma_above) hlocator hfails hτdeg
        (fun k hlow hk => hτ k hlow (Nat.lt_succ_of_le hk)) hτone
      exact (BitVec.toNat_ofNat ..).trans_le ((Nat.mod_le _ _).trans (by omega))
    · exact hle

theorem len_phaseBma_le {T : Tables} {F : Type} [Field F] {s : State} (φ : FieldModel T F) (hT : s.tables = T)
    {τ : F[X]} {l : Nat} (hτone : τ.coeff 0 = 1) (hτdeg : τ.natDegree ≤ l)
    (hτ : ∀ k, l ≤ k → k < s.nsym.toNat → (τ * φ.poly s.synd).coeff k = 0) : (phaseBma s).len.toNat ≤ l := by
  rw [phaseBma_eq]
  exact len_bmaRun_le φ hT (Nat.le_of_lt_succ s.nsym.isLt) hτone hτdeg hτ

end Sys2Proof.Machine

/-! # Proofs of the family other, error patterns: their syndromes, their locators and their magnitudes -/

namespace Sys2Proof.Machine

open Polynomial

/-- Errors at some byte positions: each position has its locator, the power of α that the byte is multiplied by in the first
syndrome, and the value by which the byte is wrong. -/
structure ErrorPattern (F : Type) [Field F] where
  positions : Finset Nat
  locator : Nat → F
  value : Nat → F
  locator_ne_zero : ∀ j, locator j ≠ 0
  locator_injOn : Set.InjOn locator positions

namespace ErrorPattern

variable {F : Type} [Field F] (e : ErrorPattern F)

/-- The first `n` power sums of the pattern, as a polynomial: entry `i` is the syndrome at α^i (rule R151). -/
noncomputable def syndrome (n : Nat) : F[X] :=
  ∑ j ∈ e.positions, C (e.value j) * ∑ i ∈ Finset.range n, (C (e.locator j) * X) ^ i

theorem coeff_syndrome (n i : Nat) :
    (e.syndrome n).coeff i = if i < n then ∑ j ∈ e.positions, e.value j * e.locator j ^ i else 0 := by
  have hgeom : ∀ x : F, (∑ k ∈ Finset.range n, (C x * X) ^ k).coeff i = if i < n then x ^ i else 0 := fun x => by
    have hterm : ∀ k, ((C x * X) ^ k).coeff i = if i = k then x ^ k else 0 := fun k => by
      rw [mul_pow, ← C_pow, coeff_C_mul, coeff_X_pow, mul_ite, mul_one, mul_zero]
    simp only [finsetSum_coeff, hterm, Finset.sum_ite_eq, Finset.mem_range]
  simp only [syndrome, finsetSum_coeff, coeff_C_mul, hgeom]
  split
  · rfl
  · simp

/-- From the degree of `p` up to `n - 1` the coefficients of `p` times the syndrome are power sums again: each value is
multiplied by what `p` is at the inverse of its locator. -/
theorem coeff_mul_syndrome {p : F[X]} {k n : Nat} (hdeg : p.natDegree ≤ k) (hk : k < n) :
    (p * e.syndrome n).coeff k =
      ∑ j ∈ e.positions, e.value j * p.eval (e.locator j)⁻¹ * e.locator j ^ k := by
  have hterm : ∀ i ∈ Finset.range (k + 1), p.coeff i * (e.syndrome n).coeff (k - i) =
      ∑ j ∈ e.positions, e.value j * (p.coeff i * (e.locator j)⁻¹ ^ i) * e.locator j ^ k := fun i hi => by
    have hi : i < k + 1 := Finset.mem_range.mp hi
    rw [coeff_syndrome, if_pos (by omega), Finset.mul_sum]
    refine Finset.sum_congr rfl fun j _ => ?_
    have hpow : e.locator j ^ (k - i) = (e.locator j)⁻¹ ^ i * e.locator j ^ k := by
      rw [pow_sub₀ _ (e.locator_ne_zero j) (by omega), inv_pow, mul_comm]
    rw [hpow]
    ring
  rw [coeff_mul, Finset.Nat.sum_antidiagonal_eq_sum_range_succ_mk, Finset.sum_congr rfl hterm, Finset.sum_comm]
  refine Finset.sum_congr rfl fun j _ => ?_
  rw [eval_eq_sum_range' (Nat.lt_succ_of_le hdeg), Finset.mul_sum, Finset.sum_mul]

/-! ### Power sums determine the values -/

/-- If the power sums vanish below a degree, so does the sum weighted by any polynomial of smaller degree. -/
theorem sum_mul_eval_eq_zero {n : Nat} (h : ∀ i, i < n → ∑ j ∈ e.positions, e.value j * e.locator j ^ i = 0)
    {p : F[X]} (hdeg : p.natDegree < n) : ∑ j ∈ e.positions, e.value j * p.eval (e.locator j) = 0 := by
  have hexpand : ∀ j ∈ e.positions, e.value j * p.eval (e.locator j) =
      ∑ i ∈ Finset.range n, p.coeff i * (e.value j * e.locator j ^ i) := fun j _ => by
    rw [eval_eq_sum_range' hdeg, Finset.mul_sum]
    exact Finset.sum_congr rfl fun i _ => mul_left_comm ..
  rw [Finset.sum_congr rfl hexpand, Finset.sum_comm]
  refine Finset.sum_eq_zero fun i hi => ?_
  rw [← Finset.mul_sum, h i (Finset.mem_range.mp hi), mul_zero]

/-- As many power sums as positions vanish only if every value does: a polynomial that vanishes at all locators but one picks
its value out. -/
theorem value_eq_zero {n : Nat} (hcard : e.positions.card ≤ n)
    (h : ∀ i, i < n → ∑ j ∈ e.positions, e.value j * e.locator j ^ i = 0) {j : Nat} (hj : j ∈ e.positions) :
    e.value j = 0 := by
  have hdeg : (∏ l ∈ e.positions.erase j, (X - C (e.locator l))).natDegree < n := by
    rw [natDegree_prod_of_monic _ _ fun l _ => monic_X_sub_C _]
    simp only [natDegree_X_sub_C, Finset.sum_const, smul_eq_mul, mul_one]
    exact (Finset.card_erase_lt_of_mem hj).trans_le hcard
  have hsum := e.sum_mul_eval_eq_zero h hdeg
  simp only [eval_prod, eval_sub, eval_X, eval_C] at hsum
  rw [Finset.sum_eq_single_of_mem j hj] at hsum
  · refine (mul_eq_zero.mp hsum).resolve_right (Finset.prod_ne_zero_iff.mpr fun l hl => ?_)
    obtain ⟨hne, hl⟩ := Finset.mem_erase.mp hl
    exact sub_ne_zero.mpr fun heq => hne (e.locator_injOn hl hj heq.symm)
  · intro l hl hne
    rw [Finset.prod_eq_zero (Finset.mem_erase.mpr ⟨hne, hl⟩) (sub_self _), mul_zero]

/-- The pattern with other values at the same positions. -/
def withValue (f : Nat → F) : ErrorPattern F := { e with value := f }

/-- A polynomial that annihilates the syndrome over as many degrees as there are errors vanishes at the inverse of every
locator. -/
theorem eval_inv_locator_eq_zero {p : F[X]} {l n : Nat} (hvalue : ∀ j ∈ e.positions, e.value j ≠ 0)
    (hdeg : p.natDegree ≤ l) (hroom : l + e.positions.card ≤ n)
    (hp : ∀ k, l ≤ k → k < n → (p * e.syndrome n).coeff k = 0) {j : Nat} (hj : j ∈ e.positions) :
    p.eval (e.locator j)⁻¹ = 0 := by
  have hzero := (e.withValue fun j => e.value j * p.eval (e.locator j)⁻¹ * e.locator j ^ l).value_eq_zero
    (le_refl e.positions.card) (fun i hi => ?_) hj
  · have hproduct : e.value j * p.eval (e.locator j)⁻¹ * e.locator j ^ l = 0 := hzero
    simpa [hvalue j hj, e.locator_ne_zero j] using hproduct
  · refine (Finset.sum_congr rfl fun j _ => ?_).trans
      ((e.coeff_mul_syndrome (hdeg.trans (Nat.le_add_right l i)) (by omega)).symm.trans (hp (l + i) (by omega) (by omega)))
    exact (mul_assoc ..).trans (congrArg _ (pow_add ..).symm)

/-! ### The locator polynomial -/

/-- The product of 1 - X_j x over the errors, of which the inverses of the locators are the roots (rule R150). -/
noncomputable def locatorPoly : F[X] := ∏ j ∈ e.positions, (1 - C (e.locator j) * X)

theorem coeff_locatorPoly_zero : e.locatorPoly.coeff 0 = 1 := by
  simp [locatorPoly, coeff_zero_eq_eval_zero, eval_prod]

theorem natDegree_locatorPoly_le : e.locatorPoly.natDegree ≤ e.positions.card := by
  refine (natDegree_prod_le _ _).trans ((Finset.sum_le_card_nsmul _ _ 1 fun j _ => ?_).trans_eq (Nat.mul_one _))
  compute_degree

theorem eval_locatorPoly {j : Nat} (hj : j ∈ e.positions) : e.locatorPoly.eval (e.locator j)⁻¹ = 0 := by
  rw [locatorPoly, eval_prod]
  refine Finset.prod_eq_zero hj ?_
  simp [e.locator_ne_zero j]

/-- There is a recurrence as long as the errors are many. -/
theorem coeff_locatorPoly_mul_syndrome {k n : Nat} (hcard : e.positions.card ≤ k) (hk : k < n) :
    (e.locatorPoly * e.syndrome n).coeff k = 0 := by
  rw [e.coeff_mul_syndrome (e.natDegree_locatorPoly_le.trans hcard) hk]
  refine Finset.sum_eq_zero fun j hj => ?_
  rw [e.eval_locatorPoly hj, mul_zero, zero_mul]

/-! ### Magnitudes -/

/-- What is left of `p` when the root at the inverse of a locator is divided out. -/
noncomputable def cofactor (p : F[X]) (j : Nat) : F[X] := C (-(e.locator j)⁻¹) * (p /ₘ (X - C (e.locator j)⁻¹))

theorem mul_cofactor {p : F[X]} {j : Nat} (h : p.eval (e.locator j)⁻¹ = 0) :
    (1 - C (e.locator j) * X) * e.cofactor p j = p := by
  have hdivide : (X - C (e.locator j)⁻¹) * (p /ₘ (X - C (e.locator j)⁻¹)) = p := mul_divByMonic_eq_iff_isRoot.mpr h
  have hunit : C (e.locator j) * C (e.locator j)⁻¹ = (1 : F[X]) := by
    rw [← C_mul, mul_inv_cancel₀ (e.locator_ne_zero j), C_1]
  rw [cofactor, C_neg]
  linear_combination hdivide + (X * (p /ₘ (X - C (e.locator j)⁻¹))) * hunit

theorem natDegree_cofactor_lt {p : F[X]} {j : Nat} (hp : p ≠ 0) (h : p.eval (e.locator j)⁻¹ = 0) :
    (e.cofactor p j).natDegree < p.natDegree := by
  have hpos : 0 < p.natDegree := natDegree_pos_iff_degree_pos.mpr (degree_pos_of_root hp h)
  refine (natDegree_C_mul_le _ _).trans_lt ?_
  rw [natDegree_divByMonic _ (monic_X_sub_C _), natDegree_X_sub_C]
  omega

/-- The low coefficients of `p` times the syndrome are those of the cofactors, weighted by the values: the rest of each
geometric sum begins at degree `n`. -/
theorem coeff_mul_syndrome_low {p : F[X]} (h : ∀ j ∈ e.positions, p.eval (e.locator j)⁻¹ = 0) {i n : Nat} (hi : i < n) :
    (p * e.syndrome n).coeff i = (∑ j ∈ e.positions, C (e.value j) * e.cofactor p j).coeff i := by
  have hterm : ∀ j ∈ e.positions, p * (C (e.value j) * ∑ i ∈ Finset.range n, (C (e.locator j) * X) ^ i) =
      C (e.value j) * e.cofactor p j - X ^ n * (C (e.value j * e.locator j ^ n) * e.cofactor p j) := fun j hj => by
    have hgeom := mul_neg_geom_sum (C (e.locator j) * X : F[X]) n
    have hcofactor := e.mul_cofactor (h j hj)
    rw [C_mul, C_pow]
    linear_combination (-C (e.value j) * ∑ i ∈ Finset.range n, (C (e.locator j) * X) ^ i) * hcofactor +
      (C (e.value j) * e.cofactor p j) * hgeom
  rw [syndrome, Finset.mul_sum, Finset.sum_congr rfl hterm, Finset.sum_sub_distrib, ← Finset.mul_sum, coeff_sub,
    coeff_X_pow_mul', if_neg (by omega), sub_zero]

/-- Forney's formula: with `omega` the product of `p` and the syndrome cut at degree `n`, the locator times `omega` at its
inverse is minus the value times the derivative of `p` there (rule R172). -/
theorem forney {p omega : F[X]} {n : Nat} (hp : p ≠ 0) (hdeg : p.natDegree ≤ n)
    (hroot : ∀ j ∈ e.positions, p.eval (e.locator j)⁻¹ = 0)
    (homega : ∀ i, omega.coeff i = if i < n then (p * e.syndrome n).coeff i else 0) {j : Nat} (hj : j ∈ e.positions) :
    e.locator j * omega.eval (e.locator j)⁻¹ = -(e.value j * (derivative p).eval (e.locator j)⁻¹) := by
  have hsum : omega = ∑ j ∈ e.positions, C (e.value j) * e.cofactor p j := by
    ext i
    rw [homega]
    split
    · next hi => exact e.coeff_mul_syndrome_low hroot hi
    · next hi =>
      rw [finsetSum_coeff]
      refine (Finset.sum_eq_zero fun l hl => ?_).symm
      have hlt := e.natDegree_cofactor_lt hp (hroot l hl)
      rw [coeff_C_mul, coeff_eq_zero_of_natDegree_lt (by omega), mul_zero]
  have hother : ∀ l ∈ e.positions, l ≠ j → (e.cofactor p l).eval (e.locator j)⁻¹ = 0 := fun l hl hne => by
    have hvalue := congrArg (eval (e.locator j)⁻¹) (e.mul_cofactor (hroot l hl))
    rw [hroot j hj, eval_mul] at hvalue
    refine (mul_eq_zero.mp hvalue).resolve_left ?_
    rw [eval_sub, eval_one, eval_mul, eval_C, eval_X]
    refine sub_ne_zero.mpr fun h => hne (e.locator_injOn hl hj ?_)
    exact (eq_of_mul_inv_eq_one h.symm)
  have hderivative : (derivative p).eval (e.locator j)⁻¹ = -(e.locator j * (e.cofactor p j).eval (e.locator j)⁻¹) := by
    have hproduct := congrArg (fun q => (derivative q).eval (e.locator j)⁻¹) (e.mul_cofactor (hroot j hj))
    simp only [derivative_mul, derivative_sub, derivative_one, derivative_C, derivative_X, eval_add, eval_mul, eval_sub,
      eval_one, eval_C, eval_X, eval_zero, mul_inv_cancel₀ (e.locator_ne_zero j)] at hproduct
    rw [← hproduct]
    ring
  rw [hsum, eval_finsetSum, Finset.sum_eq_single_of_mem j hj, eval_C_mul, hderivative]
  · ring
  · intro l hl hne
    rw [eval_C_mul, hother l hl hne, mul_zero]

end ErrorPattern

/-- A polynomial with as many roots as its degree has no double one: its derivative is not 0 at a root, because otherwise
dividing the root out would leave as many roots. -/
theorem eval_derivative_ne_zero {F : Type} [Field F] {p : F[X]} {roots : Finset F} (hp : p ≠ 0)
    (hroots : ∀ x ∈ roots, p.eval x = 0) (hcard : p.natDegree ≤ roots.card) {x : F} (hx : x ∈ roots) :
    (derivative p).eval x ≠ 0 := by
  intro hzero
  obtain ⟨q, rfl⟩ := dvd_iff_isRoot.mpr (hroots x hx)
  have hq : q ≠ 0 := right_ne_zero_of_mul hp
  have hqx : q.eval x = 0 := by simpa [derivative_mul] using hzero
  have hsub : roots.val ⊆ q.roots := fun y hy => by
    refine (mem_roots hq).mpr ?_
    obtain rfl | hne := eq_or_ne y x
    · exact hqx
    · have hy : (y - x) * q.eval y = 0 := by simpa using hroots y hy
      exact (mul_eq_zero.mp hy).resolve_left (sub_ne_zero.mpr hne)
  have hle := hcard.trans (card_le_degree_of_subset_roots hsub)
  rw [natDegree_mul (X_sub_C_ne_zero x) hq, natDegree_X_sub_C] at hle
  omega

end Sys2Proof.Machine

/-! # Proofs of the family other, the decoder: words that differ in a few bytes, and what `RSDEC` makes of them -/

namespace Sys2Proof.Machine

open Polynomial

/-! ### The positions in which two words differ -/

/-- The positions below `n` in which two words differ. -/
def changedPositions (n : Nat) (w c : Mem) : Finset Nat :=
  (Finset.range n).filter (fun a => Mem.read w a ≠ Mem.read c a)

theorem mem_changedPositions {n : Nat} {w c : Mem} {a : Nat} :
    a ∈ changedPositions n w c ↔ a < n ∧ Mem.read w a ≠ Mem.read c a := by
  rw [changedPositions, Finset.mem_filter, Finset.mem_range]

/-- Their number, as the statements count them. -/
theorem card_changedPositions (n : Nat) (w c : Mem) : (changedPositions n w c).card =
    ((List.range n).filter (fun a => decide (Mem.read w a ≠ Mem.read c a))).length := rfl

namespace FieldModel

variable {T : Tables} {F : Type} [Field F] (φ : FieldModel T F)
include φ

/-- The locator of byte `p` in a word of `n` bytes: α to the power index of the byte (rules R8, R170). -/
def locator (n p : Nat) : F := φ.val (alpha T (n - 1 - p))

theorem locator_injOn {n : Nat} (hn : n ≤ 255) {j l : Nat} (hj : j < n) (hl : l < n)
    (h : φ.locator n j = φ.locator n l) : j = l := by
  have hmod := (alpha_eq_alpha_iff φ.intact _ _).mp (φ.val_injective h)
  omega

theorem inv_locator_injOn {n : Nat} (hn : n ≤ 255) {positions : Finset Nat} (hin : ∀ p ∈ positions, p < n) :
    Set.InjOn (fun p => (φ.locator n p)⁻¹) positions := fun j hj l hl heq =>
  φ.locator_injOn hn (hin j hj) (hin l hl) (inv_injective heq)

theorem val_alphaInv_eq_inv_locator {n : Nat} (hn : n ≤ 255) (p : Nat) :
    φ.val (alphaInv T (n - 1 - p)) = (φ.locator n p)⁻¹ := φ.val_alphaInv (by omega)

/-- The errors that turn the word `c` into `w`. -/
def wordDifference {n : Nat} (hn : n ≤ 255) (w c : Mem) : ErrorPattern F where
  positions := changedPositions n w c
  locator := φ.locator n
  value j := φ.val (Mem.read w j ^^^ Mem.read c j)
  locator_ne_zero _ := φ.val_alpha_ne_zero _
  locator_injOn _ hj _ hl := φ.locator_injOn hn (mem_changedPositions.mp hj).1 (mem_changedPositions.mp hl).1

theorem value_wordDifference_ne_zero {n : Nat} (hn : n ≤ 255) (w c : Mem) :
    ∀ j ∈ (φ.wordDifference hn w c).positions, (φ.wordDifference hn w c).value j ≠ 0 := fun _ hj =>
  φ.val_eq_zero_iff.not.mpr (BitVec.xor_eq_zero_iff.not.mpr (mem_changedPositions.mp hj).2)

/-- A word at α^i as a power sum over its bytes. -/
theorem val_evalWord_alpha (w : Mem) (n i : Nat) :
    φ.val (evalWord T w n (alpha T i)) = ∑ j ∈ Finset.range n, φ.val (Mem.read w j) * φ.locator n j ^ i := by
  rw [φ.val_evalWord]
  refine Finset.sum_congr rfl fun j _ => ?_
  rw [locator, φ.val_alpha, φ.val_alpha, ← pow_mul, ← pow_mul, Nat.mul_comm]

/-- What two words differ by at α^i is the power sum of their differences. -/
theorem sum_wordDifference {n : Nat} (hn : n ≤ 255) (w c : Mem) (i : Nat) :
    ∑ j ∈ (φ.wordDifference hn w c).positions, (φ.wordDifference hn w c).value j *
      (φ.wordDifference hn w c).locator j ^ i =
        φ.val (evalWord T w n (alpha T i)) + φ.val (evalWord T c n (alpha T i)) := by
  rw [φ.val_evalWord_alpha, φ.val_evalWord_alpha, ← Finset.sum_add_distrib]
  refine (Finset.sum_subset (Finset.filter_subset _ _) fun j hj hout => ?_).trans
    (Finset.sum_congr rfl fun j _ => ?_)
  · have hsame : Mem.read w j = Mem.read c j := by
      by_contra hne
      exact hout (mem_changedPositions.mpr ⟨Finset.mem_range.mp hj, hne⟩)
    have hvalue : (φ.wordDifference hn w c).value j = 0 :=
      φ.val_eq_zero_iff.mpr (BitVec.xor_eq_zero_iff.mpr hsame)
    rw [hvalue, zero_mul]
  · rw [← add_mul, ← φ.val_xor]
    rfl

end FieldModel

/-! ### Codewords -/

section Codewords

variable {F : Type} [Field F] {s : State} (φ : FieldModel s.tables F) (hlen : codewordLen s ≤ 255) {c : Mem}
include φ hlen

/-- Where `c` is a codeword, the syndromes of the received word are those of the errors in it. -/
theorem poly_synd_computeSyndromes (hword : holdsCodeword (s.withBuffer c)) :
    φ.poly (computeSyndromes s).synd = (φ.wordDifference hlen s.cw c).syndrome s.nsym.toNat := by
  ext i
  rw [φ.coeff_poly, read_computeSyndromes, ErrorPattern.coeff_syndrome]
  by_cases hi : i < s.nsym.toNat
  · have hstore : i < Config.storeSize := hi.trans_le (nsym_le_storeSize s)
    have hzero : evalWord s.tables c (codewordLen s) (alpha s.tables i) = 0 := hword i hi
    rw [if_pos hstore, if_pos hi, if_pos hi, φ.sum_wordDifference hlen, hzero, φ.val_zero, add_zero]
  · rw [if_neg hi, if_neg hi, φ.val_zero, ite_self]

/-- Codewords that differ in no more than NSYM bytes are the same: the code has distance NSYM + 1. -/
theorem changedPositions_eq_empty (hs : holdsCodeword s) (hword : holdsCodeword (s.withBuffer c))
    (hfew : (changedPositions (codewordLen s) s.cw c).card ≤ s.nsym.toNat) :
    changedPositions (codewordLen s) s.cw c = ∅ := by
  refine Finset.eq_empty_of_forall_notMem fun j hj => φ.value_wordDifference_ne_zero hlen s.cw c j hj ?_
  refine (φ.wordDifference hlen s.cw c).value_eq_zero hfew (fun i hi => ?_) hj
  have hzero : evalWord s.tables c (codewordLen s) (alpha s.tables i) = 0 := hword i hi
  rw [φ.sum_wordDifference hlen, hs i hi, hzero, φ.val_zero, add_zero]

end Codewords

theorem not_holdsCodeword_of_changed {s : State} {c : Mem} (hT : tablesIntact s.tables) (hlen : codewordLen s ≤ 255)
    (hword : holdsCodeword (s.withBuffer c)) (hsome : 1 ≤ (changedPositions (codewordLen s) s.cw c).card)
    (hfew : (changedPositions (codewordLen s) s.cw c).card ≤ s.nsym.toNat) : ¬ holdsCodeword s := fun hs => by
  obtain ⟨F, _, ⟨φ⟩⟩ := exists_fieldModel hT
  rw [changedPositions_eq_empty φ hlen hs hword hfew] at hsome
  exact absurd hsome (by decide)

/-! ### The located data -/

theorem tables_locatedData (s : State) : (locatedData s).tables = s.tables := by
  rw [locatedData, phaseBma_eq, computeSyndromes_eq]

theorem synd_locatedData (s : State) : (locatedData s).synd = (computeSyndromes s).synd := by
  rw [locatedData, phaseBma_eq]

/-- σ is a polynomial of degree `DEG` exactly. -/
structure LocatorOfDegree (s : State) : Prop where
  top : Mem.read s.sigma s.deg.toNat ≠ 0
  above : ∀ i, s.deg.toNat < i → Mem.read s.sigma i = 0

theorem locatorOfDegree_locatedData (s : State) : LocatorOfDegree (locatedData s) where
  top := read_sigma_deg_phaseBma (computeSyndromes s)
  above := by
    obtain ⟨_, habove, _⟩ := locatorLegal_phaseBma (computeSyndromes s)
    exact habove

theorem deg_le_len_locatedData (s : State) : (locatedData s).deg.toNat ≤ (locatedData s).len.toNat := by
  obtain ⟨hdeg, _⟩ := locatorLegal_phaseBma (computeSyndromes s)
  exact hdeg

namespace LocatorOfDegree

variable {T : Tables} {F : Type} [Field F] {s : State} (h : LocatorOfDegree s) (φ : FieldModel T F)
include h

theorem natDegree_poly : (φ.poly s.sigma).natDegree = s.deg.toNat := by
  refine le_antisymm (φ.natDegree_poly_le h.above) (le_natDegree_of_ne_zero ?_)
  rw [φ.coeff_poly_of_lt _ s.deg.isLt]
  exact φ.val_eq_zero_iff.not.mpr h.top

theorem poly_ne_zero : φ.poly s.sigma ≠ 0 := fun hzero => by
  have htop := φ.coeff_poly_of_lt s.sigma s.deg.isLt
  rw [hzero, coeff_zero, eq_comm] at htop
  exact φ.val_eq_zero_iff.not.mpr h.top htop

/-- The locator has no more roots than its degree, at any set of positions. -/
theorem card_le_deg {n : Nat} (hn : n ≤ 255) {positions : Finset Nat} (hin : ∀ p ∈ positions, p < n)
    (hroot : ∀ p ∈ positions, (φ.poly s.sigma).eval (φ.locator n p)⁻¹ = 0) : positions.card ≤ s.deg.toNat := by
  classical
  rw [← h.natDegree_poly φ, ← Finset.card_image_of_injOn (φ.inv_locator_injOn hn hin)]
  refine card_le_degree_of_subset_roots fun x hx => (mem_roots (h.poly_ne_zero φ)).mpr ?_
  obtain ⟨p, hp, rfl⟩ := Finset.mem_image.mp hx
  exact hroot p hp

/-- With as many roots as its degree, the locator has no zero derivative at any of them. -/
theorem eval_derivative_ne_zero {n : Nat} (hn : n ≤ 255) {positions : Finset Nat} (hin : ∀ p ∈ positions, p < n)
    (hroot : ∀ p ∈ positions, (φ.poly s.sigma).eval (φ.locator n p)⁻¹ = 0) (hcard : s.deg.toNat ≤ positions.card)
    {p : Nat} (hp : p ∈ positions) : (derivative (φ.poly s.sigma)).eval (φ.locator n p)⁻¹ ≠ 0 := by
  classical
  refine Machine.eval_derivative_ne_zero (h.poly_ne_zero φ) (fun x hx => ?_) ?_
    (Finset.mem_image_of_mem (fun p => (φ.locator n p)⁻¹) hp)
  · obtain ⟨q, hq, rfl⟩ := Finset.mem_image.mp hx
    exact hroot q hq
  · rwa [h.natDegree_poly φ, Finset.card_image_of_injOn (φ.inv_locator_injOn hn hin)]

end LocatorOfDegree

/-! ### The listed positions -/

/-- The byte positions that `EPOS` lists. -/
def listedPositions (s : State) : Finset Nat :=
  (Finset.range s.nroot.toNat).image (fun k => (Mem.read s.epos k).toNat)

theorem mem_listedPositions {s : State} {p : Nat} :
    p ∈ listedPositions s ↔ ∃ k, k < s.nroot.toNat ∧ (Mem.read s.epos k).toNat = p := by
  simp [listedPositions]

/-- In a legal list no position is listed twice (rules R32, R170). -/
theorem epos_injOn {s : State} (h : rootListLegal s) {j k : Nat} (hj : j < s.nroot.toNat) (hk : k < s.nroot.toNat)
    (heq : (Mem.read s.epos j).toNat = (Mem.read s.epos k).toNat) : j = k := by
  obtain ⟨_, hdescending⟩ := h
  obtain hlt | hjk | hlt := Nat.lt_trichotomy j k
  · exact absurd heq (hdescending j k hlt hk).ne'
  · exact hjk
  · exact absurd heq (hdescending k j hlt hj).ne

theorem card_listedPositions {s : State} (h : rootListLegal s) : (listedPositions s).card = s.nroot.toNat := by
  have hinj : Set.InjOn (fun k => (Mem.read s.epos k).toNat) (Finset.range s.nroot.toNat) := fun j hj k hk heq =>
    epos_injOn h (Finset.mem_range.mp hj) (Finset.mem_range.mp hk) heq
  rw [listedPositions, Finset.card_image_of_injOn hinj, Finset.card_range]

section Search

variable {T : Tables} {F : Type} [Field F] {s : State}

/-- The search lists the positions of the codeword at whose inverse locators σ vanishes (rule R170). -/
theorem mem_listedPositions_chienSearch (φ : FieldModel T F) (hT : s.tables = T) (hlen : codewordLen s ≤ 255)
    (h : LocatorOfDegree s) {p : Nat} : p ∈ listedPositions (chienSearch s) ↔
      p < codewordLen s ∧ (φ.poly s.sigma).eval (φ.locator (codewordLen s) p)⁻¹ = 0 := by
  subst hT
  rw [mem_listedPositions, mem_chienSearch_iff (Nat.not_lt.mpr hlen), ← φ.val_eq_zero_iff,
    φ.val_locatorAt s.deg.isLt h.above, φ.val_alphaInv_eq_inv_locator hlen]

/-- Where the root count is `DEG`, no listed position is degenerate (rule R179). -/
theorem regular_of_rootCount (φ : FieldModel s.tables F) (hlen : codewordLen s ≤ 255) (h : LocatorOfDegree s)
    (hcount : (chienSearch s).nroot = s.deg) : degenerate (chienSearch s) = false := by
  have hmem (p : Nat) (hp : p ∈ listedPositions (chienSearch s)) :=
    (mem_listedPositions_chienSearch φ rfl hlen h).mp hp
  have hcard : s.deg.toNat ≤ (listedPositions (chienSearch s)).card := by
    rw [card_listedPositions (rootListLegal_chienSearch (Nat.not_lt.mpr hlen)), hcount]
  refine Bool.eq_false_iff.mpr fun hbad => ?_
  obtain ⟨k, hk, hnone⟩ := (degenerate_iff _).mp hbad
  have hlisted := mem_listedPositions.mpr ⟨k, hk, rfl⟩
  obtain hout | hzero := (magnitudeAt_eq_none_iff ..).mp hnone
  · exact absurd (hmem _ hlisted).1 (Nat.not_lt.mpr hout)
  · have hvalue := φ.val_eq_zero_iff.mpr hzero
    rw [φ.val_derivativeAt s.deg.isLt h.above, codewordLen_chienSearch, φ.val_alphaInv_eq_inv_locator hlen] at hvalue
    exact h.eval_derivative_ne_zero φ hlen (fun p hp => (hmem p hp).1) (fun p hp => (hmem p hp).2) hcard hlisted hvalue

end Search

theorem regular_searchedData {s : State} (hT : tablesIntact s.tables) (hlen : codewordLen s ≤ 255)
    (hcount : (searchedData s).nroot = (locatedData s).deg) : degenerate (searchedData s) = false := by
  obtain ⟨F, _, ⟨φ⟩⟩ := exists_fieldModel ((tables_locatedData s).symm ▸ hT)
  exact regular_of_rootCount φ ((codewordLen_locatedData s).trans_le hlen) (locatorOfDegree_locatedData s) hcount

/-- Settles O45: `FORNEY` is entered with as many roots as the degree of the locator, and then no derivative is 0. -/
theorem rsdecNeverFindsADegenerateLocator : Obligations.RsdecNeverFindsADegenerateLocator := by
  intro s hT hlegal
  obtain ⟨_, e⟩ | ⟨_, _, e⟩ | ⟨_, _, _, e⟩ | ⟨_, _, hcount, hbad, _⟩ | ⟨_, _, _, _, e⟩ :=
    exec_rsdec_cases s (Nat.not_lt.mpr hlegal)
  · exact ⟨_, e, by simp⟩
  · exact ⟨_, e, by simp⟩
  · exact ⟨_, e, by simp⟩
  · have hbad : degenerate (rsdecBeforeForney s) = true := hbad
    rw [rsdecBeforeForney_eq, degenerate_withReport] at hbad
    rw [rsdecAfterSearch, rsdecAfterBma_eq] at hcount
    exact absurd (hbad.symm.trans (regular_searchedData hT hlegal hcount)) (by decide)
  · refine ⟨_, e, ?_⟩
    obtain ⟨_, e'⟩ | ⟨_, e'⟩ := phaseVerify_cases (phaseCorr (phaseForney (rsdecBeforeForney s))) <;> rw [e'] <;> simp

end Sys2Proof.Machine

/-! # Proofs of the family other, the guarantees of `RSDEC` on a corrupted codeword -/

namespace Sys2Proof.Machine

open Polynomial

/-! ### RSDEC where it reaches a correction -/

theorem holdsCodeword_withReport_iff (s : State) (r : Report) :
    holdsCodeword (s.withReport r) ↔ holdsCodeword s := Iff.rfl

/-- The state in which phase `VERIFY` is entered holds a codeword when the corrected data does: they differ in the report
alone. -/
theorem holdsCodeword_rsdecBeforeVerify_iff (s : State) :
    holdsCodeword (rsdecBeforeVerify s) ↔ holdsCodeword (correctedData s) := by
  rw [rsdecBeforeVerify, holdsCodeword_withReport_iff]

/-- An `RSDEC` that reaches a correction ends with the verdict of phase `VERIFY` on it (rule R176). -/
theorem exec_rsdec_of_reachesCorrection {s : State} (h : ¬ configIllegal s) (hword : ¬ holdsCodeword s)
    (hreach : ReachesCorrection s) : exec .rsdec s = .next (phaseVerify (rsdecBeforeVerify s)) := by
  obtain ⟨hgate, hcount, hregular⟩ := hreach
  have hgate' : 2 * (rsdecAfterBma s).deg.toNat ≤ (rsdecAfterBma s).nsym.toNat := by
    rw [rsdecAfterBma_eq]
    exact hgate.trans_eq (congrArg BitVec.toNat (nsym_locatedData s).symm)
  have hcount' : (rsdecAfterSearch s).nroot = (rsdecAfterBma s).deg := by
    rw [rsdecAfterSearch, rsdecAfterBma_eq]
    exact hcount
  have hregular' : degenerate (rsdecBeforeForney s) = false := by
    rwa [rsdecBeforeForney_eq, degenerate_withReport]
  obtain ⟨hz, _⟩ | ⟨_, hfail, _⟩ | ⟨_, _, hfail, _⟩ | ⟨_, _, _, hbad, _⟩ | ⟨_, _, _, _, e⟩ := exec_rsdec_cases s h
  · exact absurd ((szero_computeSyndromes_iff_holdsCodeword (rsdecStart s)).mp hz) hword
  · exact absurd hgate' (Nat.not_le.mpr hfail)
  · exact absurd hcount' hfail
  · exact absurd (hregular'.symm.trans hbad) (by decide)
  · rw [e, phaseCorr_phaseForney_rsdec hregular]

/-- An `RSDEC` that gives `OK` on a word that is no codeword has corrected it to a codeword (rules R175, R176). -/
theorem rsdec_ok_iff {s t : State} (h : ¬ configIllegal s) (hword : ¬ holdsCodeword s) :
    exec .rsdec s = .next t ∧ t.status.result = .ok ↔
      ReachesCorrection s ∧ holdsCodeword (correctedData s) ∧ t = decodedState s := by
  constructor
  · rintro ⟨hexec, hok⟩
    obtain ⟨hreach, ht⟩ := rsdec_reaches_decodedState h hword hexec hok
    refine ⟨hreach, ?_, ht⟩
    rw [exec_rsdec_of_reachesCorrection h hword hreach] at hexec
    obtain ⟨hz, _⟩ | ⟨_, e⟩ := phaseVerify_cases (rsdecBeforeVerify s)
    · exact (holdsCodeword_rsdecBeforeVerify_iff s).mp ((szero_computeSyndromes_iff_holdsCodeword _).mp hz)
    · rw [e] at hexec
      cases hexec
      cases hok
  · rintro ⟨hreach, hcodeword, rfl⟩
    have hexec := exec_rsdec_of_reachesCorrection h hword hreach
    have hz := 
      (szero_computeSyndromes_iff_holdsCodeword _).mpr ((holdsCodeword_rsdecBeforeVerify_iff s).mpr hcodeword)
    obtain ⟨_, e⟩ | ⟨hnz, _⟩ := phaseVerify_cases (rsdecBeforeVerify s)
    · rw [e] at hexec
      obtain ⟨_, ht⟩ := rsdec_reaches_decodedState h hword hexec rfl
      exact ⟨hexec.trans (congrArg _ ht), rfl⟩
    · exact absurd (hnz.symm.trans hz) (by decide)

theorem errcnt_decodedState (s : State) : (decodedState s).errcnt = (searchedData s).nroot := rfl

theorem cw_decodedState (s : State) : (decodedState s).cw = (correctedData s).cw := rfl

/-- The search and the magnitudes leave the data they are computed from. -/
theorem magnitudes_frame (u : State) :
    (forneyStores (chienSearch u)).cw = u.cw ∧ (forneyStores (chienSearch u)).dlen = u.dlen ∧
    (forneyStores (chienSearch u)).nsym = u.nsym ∧ (forneyStores (chienSearch u)).tables = u.tables ∧
    (forneyStores (chienSearch u)).epos = (chienSearch u).epos ∧
    (forneyStores (chienSearch u)).nroot = (chienSearch u).nroot := ⟨rfl, rfl, rfl, rfl, rfl, rfl⟩

theorem paychg_decodedState (s : State) : (decodedState s).status.paychg =
    payloadChanged (searchedData s).epos (magnitudeData s).emag (searchedData s).nroot.toNat s.dlen := by
  have hreport : (decodedState s).status.paychg = (correctionReport (magnitudeData s)).paychg := rfl
  obtain ⟨_, hdlen, _, _, hepos, hnroot⟩ := magnitudes_frame (locatedData s)
  rw [hreport, correctionReport, magnitudeData, searchedData, hdlen, hepos, hnroot, dlen_locatedData]

theorem cw_correctedData (s : State) : (correctedData s).cw =
    correctBytes s.cw (searchedData s).epos (magnitudeData s).emag (searchedData s).nroot.toNat := by
  obtain ⟨hcw, _, _, _, hepos, hnroot⟩ := magnitudes_frame (locatedData s)
  rw [correctedData, applyMagnitudes_eq, magnitudeData, searchedData, hcw, hepos, hnroot, cw_locatedData]

theorem holdsCodeword_correctedData_iff (s : State) :
    holdsCodeword (correctedData s) ↔ holdsCodeword (s.withBuffer (correctedData s).cw) := by
  obtain ⟨_, _, hnsym, htables, _⟩ := magnitudes_frame (locatedData s)
  have htables : (correctedData s).tables = s.tables := by
    rw [correctedData, applyMagnitudes_eq, magnitudeData, searchedData, htables, tables_locatedData]
  have hnsym : (correctedData s).nsym = s.nsym := by
    rw [correctedData, applyMagnitudes_eq, magnitudeData, searchedData, hnsym, nsym_locatedData]
  have hlen : codewordLen (s.withBuffer (correctedData s).cw) = codewordLen s := rfl
  rw [holdsCodeword, codewordLen_correctedData, htables, hnsym, holdsCodeword, hlen]
  rfl

/-! ### Where no byte is corrected -/

/-- Settles O60: the code's distance rules the codeword out, and with `ERRCNT` = 0 the buffer of an `OK` is the received
word, which would have to be one. -/
theorem corruptionIsNeverReportedClean : Obligations.CorruptionIsNeverReportedClean := by
  intro s m hT hlegal hword v hsome hfew
  have hnot : ¬ holdsCodeword (s.withBuffer m) :=
    not_holdsCodeword_of_changed (s := s.withBuffer m) (c := s.cw) hT hlegal hword hsome hfew
  obtain ⟨t, h⟩ := exists_exec_eq_next .rsdec (s.withBuffer m)
  refine ⟨hnot, t, h, fun ⟨hok, hnone⟩ => hnot ?_⟩
  obtain ⟨_, hcorrected, rfl⟩ := (rsdec_ok_iff (s := s.withBuffer m) (Nat.not_lt.mpr hlegal) hnot).mp ⟨h, hok⟩
  have hcw : (correctedData (s.withBuffer m)).cw = m := by
    rw [cw_correctedData, ← errcnt_decodedState, hnone]
    rfl
  rw [holdsCodeword_correctedData_iff, hcw] at hcorrected
  exact hcorrected

/-! ### The number of corrections -/

/-- `L` is at most the number of errors between the received word and any codeword: their locator is a recurrence of that
length. -/
theorem len_locatedData_le {s : State} {c : Mem} (hT : tablesIntact s.tables) (hlen : codewordLen s ≤ 255)
    (hword : holdsCodeword (s.withBuffer c)) :
    (locatedData s).len.toNat ≤ (changedPositions (codewordLen s) s.cw c).card := by
  obtain ⟨F, _, ⟨φ⟩⟩ := exists_fieldModel hT
  have hsynd := poly_synd_computeSyndromes φ hlen hword
  refine len_phaseBma_le (s := computeSyndromes s) φ rfl (φ.wordDifference hlen s.cw c).coeff_locatorPoly_zero
    (φ.wordDifference hlen s.cw c).natDegree_locatorPoly_le fun k hlow hk => ?_
  rw [hsynd]
  exact (φ.wordDifference hlen s.cw c).coeff_locatorPoly_mul_syndrome hlow hk

/-- Only listed bytes are changed. -/
theorem changedPositions_correctedData_subset (s : State) (n : Nat) :
    changedPositions n s.cw (correctedData s).cw ⊆ listedPositions (searchedData s) := fun a ha => by
  by_contra hout
  obtain ⟨_, hne⟩ := mem_changedPositions.mp ha
  rw [cw_correctedData, read_correctBytes_of_unlisted _ _ fun k hk heq => hout (mem_listedPositions.mpr ⟨k, hk, heq⟩)]
    at hne
  exact hne rfl

theorem rootListLegal_searchedData {s : State} (hlen : codewordLen s ≤ 255) : rootListLegal (searchedData s) :=
  rootListLegal_chienSearch (by rw [configIllegal, codewordLen_locatedData]; exact Nat.not_lt.mpr hlen)

/-- A correction to a codeword changes as many bytes as it counts: changing fewer would make the locator's degree, which is
at most `L`, smaller than its number of roots. -/
theorem card_changedPositions_correctedData {s : State} (hT : tablesIntact s.tables) (hlen : codewordLen s ≤ 255)
    (hreach : ReachesCorrection s) (hword : holdsCodeword (correctedData s)) :
    (changedPositions (codewordLen s) s.cw (correctedData s).cw).card = (searchedData s).nroot.toNat := by
  refine le_antisymm ?_ ?_
  · rw [← card_listedPositions (rootListLegal_searchedData hlen)]
    exact Finset.card_le_card (changedPositions_correctedData_subset s _)
  · rw [hreach.rootCount]
    exact (deg_le_len_locatedData s).trans
      (len_locatedData_le hT hlen ((holdsCodeword_correctedData_iff s).mp hword))

theorem changedPositions_comm (n : Nat) (w c : Mem) : changedPositions n w c = changedPositions n c w :=
  Finset.filter_congr fun _ _ => ne_comm

/-- No byte beyond the codeword is listed. -/
theorem read_correctedData_beyond {s : State} (hreach : ReachesCorrection s) {a : Nat} (ha : codewordLen s ≤ a) :
    Mem.read (correctedData s).cw a = Mem.read s.cw a := by
  rw [cw_correctedData]
  refine read_correctBytes_of_unlisted _ _ fun k hk => ?_
  have hin := listsInside_of_regular hreach.regular k hk
  rw [codewordLen_searchedData] at hin
  omega

/-- Settles O59: on a codeword nothing is changed and nothing counted; otherwise
`card_changedPositions_correctedData`. -/
theorem rsdecCountsTheChangedBytes : Obligations.RsdecCountsTheChangedBytes := by
  intro s hT _ hlegal
  have hc : ¬ configIllegal s := Nat.not_lt.mpr hlegal
  by_cases hword : holdsCodeword s
  · exact ⟨_, cleanWordTakesTheEarlyExit s hlegal hword, fun _ => ⟨by simp, by simp, fun _ _ => rfl⟩⟩
  obtain ⟨t, h⟩ := exists_exec_eq_next .rsdec s
  refine ⟨t, h, fun hok => ?_⟩
  obtain ⟨hreach, hcorrected, rfl⟩ := (rsdec_ok_iff hc hword).mp ⟨h, hok⟩
  refine ⟨?_, ?_, fun a ha => read_correctedData_beyond hreach ha⟩
  · rw [← card_changedPositions, changedPositions_comm]
    exact card_changedPositions_correctedData hT hlegal hreach hcorrected
  · rw [errcnt_decodedState, hreach.rootCount]
    exact hreach.gate

/-! ### The magnitudes -/

theorem locatorOfDegree_searchedData (s : State) : LocatorOfDegree (searchedData s) :=
  have h := locatorOfDegree_locatedData s
  ⟨h.top, h.above⟩

section Magnitudes

variable {T : Tables} {F : Type} [Field F] {s : State}

/-- `OMEGA` is the product of σ and S cut at degree NSYM (rule R172). -/
theorem coeff_forneyOmega (φ : FieldModel T F) (hT : s.tables = T) (h : LocatorOfDegree s) (i : Nat) :
    (φ.poly (forneyOmega s)).coeff i =
      if i < s.nsym.toNat then (φ.poly s.sigma * φ.poly s.synd).coeff i else 0 := by
  have hnsym := nsym_le_storeSize s
  rw [φ.coeff_poly, read_forneyOmega]
  split
  · next hi =>
    split
    · next hlt =>
      rw [hT, ← φ.coeff_poly_mul_poly _ _ hi (min_le_left i s.deg.toNat) fun j hj hle => h.above j (by omega)]
    · exact φ.val_zero
  · next hi => rw [if_neg fun hlt => hi (hlt.trans_le hnsym)]

/-- Where the syndromes are those of some errors and σ vanishes at their inverse locators, the magnitude at each error's
position is its value: both satisfy Forney's formula, in which the derivative is not 0 (rule R172). -/
theorem val_listedMagnitude (φ : FieldModel T F) {e : ErrorPattern F} (hT : s.tables = T) (hlen : codewordLen s ≤ 255)
    (h : LocatorOfDegree s) (hdeg : s.deg.toNat ≤ s.nsym.toNat) (hlocator : e.locator = φ.locator (codewordLen s))
    (hsynd : φ.poly s.synd = e.syndrome s.nsym.toNat)
    (hroot : ∀ p ∈ e.positions, (φ.poly s.sigma).eval (e.locator p)⁻¹ = 0) {k : Nat}
    (hp : (Mem.read s.epos k).toNat ∈ e.positions) {v : Byte} (hv : listedMagnitude s k = some v) :
    φ.val v = e.value (Mem.read s.epos k).toNat := by
  subst hT
  have hcoeff := coeff_forneyOmega φ rfl h
  rw [hsynd] at hcoeff
  have hformula := congrArg φ.val (gfMul_magnitude_derivative φ.intact hv)
  have hregular := (magnitudeAt_eq_none_iff ..).not.mp (hv ▸ Option.some_ne_none v)
  have hforney := e.forney (h.poly_ne_zero φ) ((h.natDegree_poly φ).trans_le hdeg) hroot hcoeff hp
  have homega : ∀ i, s.nsym.toNat ≤ i → Mem.read (forneyOmega s) i = 0 := fun i hi => by
    rw [read_forneyOmega, if_neg (Nat.not_lt.mpr hi)]
  rw [φ.val_gfMul, φ.val_gfMul, φ.val_derivativeAt s.deg.isLt h.above, φ.val_evaluatorAt s.nsym.isLt.le homega,
    φ.val_alphaInv_eq_inv_locator hlen, ← hlocator] at hformula
  have hne : (derivative (φ.poly s.sigma)).eval (e.locator (Mem.read s.epos k).toNat)⁻¹ ≠ 0 := by
    rw [hlocator, ← φ.val_alphaInv_eq_inv_locator hlen, ← φ.val_derivativeAt s.deg.isLt h.above]
    exact φ.val_eq_zero_iff.not.mpr (not_or.mp hregular).2
  have hx : φ.val (alpha s.tables (codewordLen s - 1 - (Mem.read s.epos k).toNat)) =
      e.locator (Mem.read s.epos k).toNat := by rw [hlocator]; rfl
  rw [hx, hforney, φ.neg_eq] at hformula
  exact mul_right_cancel₀ hne hformula

end Magnitudes

/-- One nonzero term is the sum. -/
theorem xorSum_eq_single {n k : Nat} {t : Nat → Byte} (hk : k < n) (h : ∀ i, i < n → i ≠ k → t i = 0) :
    xorSum n t = t k := by
  induction n with
  | zero => omega
  | succ n ih =>
    obtain rfl | hne := eq_or_ne k n
    · rw [xorSum_succ, xorSum_eq_zero fun i hi => h i (by omega) (by omega)]
      exact BitVec.zero_xor
    · rw [xorSum_succ, ih (by omega) fun i hi => h i (by omega), h n (by omega) hne.symm]
      exact BitVec.xor_zero

/-- In a legal list every position takes its own magnitude alone (rules R32, R173). -/
theorem read_correctBytes_of_listed {s : State} (h : rootListLegal s) {k : Nat} (hk : k < s.nroot.toNat)
    (cw emag : Mem) : Mem.read (correctBytes cw s.epos emag s.nroot.toNat) (Mem.read s.epos k).toNat =
      Mem.read cw (Mem.read s.epos k).toNat ^^^ Mem.read emag k := by
  rw [read_correctBytes, xorSum_eq_single hk fun i hi hne => if_neg fun heq => hne (epos_injOn h hi hk heq), if_pos rfl]

/-! ### The correction of few errors -/

/-- The received word differs from the codeword `c` in some bytes, at most half as many as there are parity bytes, and in
none beyond the codeword (rule R178). -/
structure FewErrors (s : State) (c : Mem) : Prop where
  intact : tablesIntact s.tables
  legal : codewordLen s ≤ 255
  codeword : holdsCodeword (s.withBuffer c)
  nonempty : 1 ≤ (changedPositions (codewordLen s) s.cw c).card
  few : 2 * (changedPositions (codewordLen s) s.cw c).card ≤ s.nsym.toNat
  beyond : ∀ a, codewordLen s ≤ a → Mem.read s.cw a = Mem.read c a

namespace FewErrors

variable {s : State} {c : Mem} (h : FewErrors s c)
include h

theorem not_holdsCodeword : ¬ holdsCodeword s :=
  not_holdsCodeword_of_changed h.intact h.legal h.codeword h.nonempty (by have := h.few; omega)

theorem len_le : (locatedData s).len.toNat ≤ (changedPositions (codewordLen s) s.cw c).card :=
  len_locatedData_le h.intact h.legal h.codeword

section Field

variable {F : Type} [Field F] (φ : FieldModel s.tables F)

/-- σ vanishes at the inverse locator of every error. -/
theorem eval_sigma_eq_zero {p : Nat} (hp : p ∈ changedPositions (codewordLen s) s.cw c) :
    (φ.poly (locatedData s).sigma).eval (φ.locator (codewordLen s) p)⁻¹ = 0 := by
  have hsynd := poly_synd_computeSyndromes φ h.legal h.codeword
  have hdegree : (φ.poly (locatedData s).sigma).natDegree ≤ (locatedData s).len.toNat := by
    rw [(locatorOfDegree_locatedData s).natDegree_poly φ]
    exact deg_le_len_locatedData s
  refine (φ.wordDifference h.legal s.cw c).eval_inv_locator_eq_zero (φ.value_wordDifference_ne_zero h.legal s.cw c)
    hdegree (n := s.nsym.toNat) ?_ (fun k hlow hk => ?_) hp
  · have hlen := h.len_le
    have hfew := h.few
    have hcard : (φ.wordDifference h.legal s.cw c).positions.card =
      (changedPositions (codewordLen s) s.cw c).card := rfl
    omega
  · rw [← hsynd]
    exact coeff_sigma_synd_phaseBma (s := computeSyndromes s) φ rfl hlow hk

end Field

/-- The locator's degree is the number of errors. -/
theorem deg_eq : (locatedData s).deg.toNat = (changedPositions (codewordLen s) s.cw c).card := by
  obtain ⟨F, _, ⟨φ⟩⟩ := exists_fieldModel h.intact
  refine le_antisymm ((deg_le_len_locatedData s).trans h.len_le) ?_
  exact (locatorOfDegree_locatedData s).card_le_deg φ h.legal (fun p hp => (mem_changedPositions.mp hp).1)
    fun p hp => h.eval_sigma_eq_zero φ hp

/-- The search lists the errors' positions and no other: the locator has no more roots than its degree. -/
theorem listedPositions_eq : listedPositions (searchedData s) = changedPositions (codewordLen s) s.cw c := by
  obtain ⟨F, _, ⟨φ⟩⟩ := exists_fieldModel h.intact
  have hmem (p : Nat) : p ∈ listedPositions (searchedData s) ↔ p < codewordLen s ∧
      (φ.poly (locatedData s).sigma).eval (φ.locator (codewordLen s) p)⁻¹ = 0 := by
    have hiff := mem_listedPositions_chienSearch φ (tables_locatedData s) ((codewordLen_locatedData s).trans_le h.legal)
      (locatorOfDegree_locatedData s) (p := p)
    rwa [codewordLen_locatedData] at hiff
  refine (Finset.eq_of_subset_of_card_le (fun p hp => (hmem p).mpr ⟨(mem_changedPositions.mp hp).1,
    h.eval_sigma_eq_zero φ hp⟩) ?_).symm
  rw [← h.deg_eq]
  exact (locatorOfDegree_locatedData s).card_le_deg φ h.legal (fun p hp => ((hmem p).mp hp).1)
    fun p hp => ((hmem p).mp hp).2

/-- The gate passes, the search finds every root, and no position is degenerate. -/
theorem reachesCorrection : ReachesCorrection s := by
  have hcount : (searchedData s).nroot = (locatedData s).deg := BitVec.eq_of_toNat_eq (by
    rw [h.deg_eq, ← card_listedPositions (rootListLegal_searchedData h.legal), h.listedPositions_eq])
  exact ⟨h.deg_eq ▸ h.few, hcount, regular_searchedData h.intact h.legal hcount⟩

theorem nroot_eq : (searchedData s).nroot.toNat = (changedPositions (codewordLen s) s.cw c).card := by
  rw [h.reachesCorrection.rootCount, h.deg_eq]

/-- The magnitude at a listed position is the error there. -/
theorem read_emag {k : Nat} (hk : k < (searchedData s).nroot.toNat) : Mem.read (magnitudeData s).emag k =
    Mem.read s.cw (Mem.read (searchedData s).epos k).toNat ^^^ Mem.read c (Mem.read (searchedData s).epos k).toNat := by
  obtain ⟨F, _, ⟨φ⟩⟩ := exists_fieldModel h.intact
  have hp : (Mem.read (searchedData s).epos k).toNat ∈ changedPositions (codewordLen s) s.cw c :=
    h.listedPositions_eq ▸ mem_listedPositions.mpr ⟨k, hk, rfl⟩
  have hsome := listedMagnitude_eq_some h.reachesCorrection.regular hk
  have hdeg : (locatedData s).deg.toNat ≤ (locatedData s).nsym.toNat := by
    have := h.few
    have := h.deg_eq
    rw [nsym_locatedData]
    omega
  refine φ.val_injective (val_listedMagnitude φ (s := searchedData s) (e := φ.wordDifference h.legal s.cw c)
    (tables_locatedData s) ((codewordLen_searchedData s).trans_le h.legal) (locatorOfDegree_searchedData s) hdeg ?_ ?_
    (fun p hp => h.eval_sigma_eq_zero φ hp) hp hsome)
  · exact congrArg φ.locator (codewordLen_searchedData s).symm
  · exact (congrArg φ.poly (synd_locatedData s)).trans ((poly_synd_computeSyndromes φ h.legal h.codeword).trans
      (congrArg (fun b : Byte => (φ.wordDifference h.legal s.cw c).syndrome b.toNat) (nsym_locatedData s).symm))

/-- Every byte of the corrected word is that of the codeword. -/
theorem read_correctedData (a : Nat) : Mem.read (correctedData s).cw a = Mem.read c a := by
  rw [cw_correctedData]
  by_cases ha : a ∈ changedPositions (codewordLen s) s.cw c
  · obtain ⟨k, hk, rfl⟩ := mem_listedPositions.mp (h.listedPositions_eq ▸ ha)
    rw [read_correctBytes_of_listed (rootListLegal_searchedData h.legal) hk, h.read_emag hk, ← BitVec.xor_assoc,
      BitVec.xor_self]
    exact BitVec.zero_xor
  · have hlist : ∀ k, k < (searchedData s).nroot.toNat → (Mem.read (searchedData s).epos k).toNat ≠ a :=
      fun k hk heq => ha (h.listedPositions_eq ▸ mem_listedPositions.mpr ⟨k, hk, heq⟩)
    rw [read_correctBytes_of_unlisted _ _ hlist]
    by_contra hne
    obtain hlt | hge := Nat.lt_or_ge a (codewordLen s)
    · exact ha (mem_changedPositions.mpr ⟨hlt, hne⟩)
    · exact hne (h.beyond a hge)

theorem cw_correctedData_eq (hs : Mem.wf s.cw = true) (hc : Mem.wf c = true) : (correctedData s).cw = c := by
  have hwf : Mem.wf (correctedData s).cw = true := by
    rw [cw_correctedData]
    exact wf_correctBytes _ _ _ _ hs
  exact Mem.ext hwf hc h.read_correctedData

/-- `PAYCHG` tells whether a payload byte was wrong (rule R173). -/
theorem paychg_iff : (decodedState s).status.paychg = true ↔
    ∃ a, a < s.dlen.toNat ∧ a ∈ changedPositions (codewordLen s) s.cw c := by
  rw [paychg_decodedState, payloadChanged_iff]
  constructor
  · rintro ⟨k, hk, hpayload, _⟩
    exact ⟨_, hpayload, h.listedPositions_eq ▸ mem_listedPositions.mpr ⟨k, hk, rfl⟩⟩
  · rintro ⟨a, hpayload, ha⟩
    obtain ⟨k, hk, rfl⟩ := mem_listedPositions.mp (h.listedPositions_eq ▸ ha)
    refine ⟨k, hk, hpayload, ?_⟩
    rw [h.read_emag hk]
    exact BitVec.xor_eq_zero_iff.not.mpr (mem_changedPositions.mp ha).2

/-- `RSDEC` restores the codeword and counts the errors. -/
theorem exec_rsdec (hs : Mem.wf s.cw = true) (hc : Mem.wf c = true) : exec .rsdec s = .next (decodedState s) ∧
    (decodedState s).status.result = .ok ∧ (decodedState s).cw = c ∧
    (decodedState s).errcnt.toNat = (changedPositions (codewordLen s) s.cw c).card := by
  have hcw := h.cw_correctedData_eq hs hc
  have hcodeword : holdsCodeword (correctedData s) := by
    rw [holdsCodeword_correctedData_iff, hcw]
    exact h.codeword
  obtain ⟨hexec, hok⟩ := (rsdec_ok_iff (Nat.not_lt.mpr h.legal) h.not_holdsCodeword).mpr
    ⟨h.reachesCorrection, hcodeword, rfl⟩
  exact ⟨hexec, hok, (cw_decodedState s).trans hcw, (congrArg _ (errcnt_decodedState s)).trans h.nroot_eq⟩

end FewErrors

/-- Settles O44: with at most half as many errors as parity bytes, `FewErrors`. -/
theorem errorsUpToHalfTheParityAreCorrected : Obligations.ErrorsUpToHalfTheParityAreCorrected := by
  intro s m hT hs hm hlegal hword hbeyond v hsome hfew
  have h : FewErrors (s.withBuffer m) s.cw := ⟨hT, hlegal, hword, hsome, hfew, hbeyond⟩
  obtain ⟨hexec, hok, hcw, hcount⟩ := h.exec_rsdec hm hs
  exact ⟨_, hexec, hok, hcw, hcount⟩

/-- A word differs from itself with one byte changed in that byte. -/
theorem changedPositions_write {n j : Nat} (w : Mem) {e : Byte} (hj : j < n) (he : e ≠ 0) :
    changedPositions n (Mem.write w j (Mem.read w j ^^^ e)) w = {j} := by
  ext a
  rw [mem_changedPositions, Finset.mem_singleton]
  obtain rfl | hne := eq_or_ne a j
  · rw [Mem.read_write_same]
    refine iff_of_true ⟨hj, fun heq => he ?_⟩ rfl
    rwa [← BitVec.xor_eq_zero_iff, BitVec.xor_comm, ← BitVec.xor_assoc, BitVec.xor_self, BitVec.zero_xor] at heq
  · rw [Mem.read_write_other _ _ hne]
    exact iff_of_false (fun hboth => hboth.2 rfl) hne

/-- Settles O43: one changed byte is the case of one error. -/
theorem singleByteErrorIsCorrected : Obligations.SingleByteErrorIsCorrected := by
  intro s j e hT hs hlegal hnsym hword hj he
  have hchanged := changedPositions_write (n := codewordLen s) s.cw hj he
  have h : FewErrors (s.withBuffer (Mem.write s.cw j (Mem.read s.cw j ^^^ e))) s.cw := by
    have hcard : (changedPositions (codewordLen s) (Mem.write s.cw j (Mem.read s.cw j ^^^ e)) s.cw).card = 1 := by
      rw [hchanged, Finset.card_singleton]
    refine ⟨hT, hlegal, hword, hcard.ge, ?_, fun a ha => Mem.read_write_other _ _ ?_⟩
    · exact (congrArg (2 * ·) hcard).trans_le hnsym
    · exact (lt_of_lt_of_le hj ha).ne'
  obtain ⟨hexec, hok, hcw, hcount⟩ := h.exec_rsdec (Mem.wf_write _ _ _ hs (by simp only [Config.storeSize]; omega)) hs
  have hpaychg := h.paychg_iff
  refine ⟨_, hexec, hok, hcw, BitVec.eq_of_toNat_eq (hcount.trans ?_), hpaychg.trans ?_⟩
  · exact (congrArg Finset.card hchanged).trans (Finset.card_singleton j)
  · have hmem (a : Nat) := (congrArg (a ∈ ·) hchanged).to_iff.trans Finset.mem_singleton
    exact ⟨fun ⟨a, ha, hin⟩ => (hmem a).mp hin ▸ ha, fun hlt => ⟨j, hlt, (hmem j).mpr rfl⟩⟩

end Sys2Proof.Machine

/-! # Proofs of the family other, the phases: their successors, and the canonical form of the stores -/

namespace Sys2Proof.Machine

/-! ### The phase that `PHASE` names -/

section RunPhase

variable {s : State}

theorem runPhase_idle (h : s.phase = .idle) : runPhase s = s := by simp only [runPhase, h]
theorem runPhase_gen (h : s.phase = .gen) : runPhase s = phaseGen s := by simp only [runPhase, h]
theorem runPhase_div (h : s.phase = .div) : runPhase s = phaseDiv s := by simp only [runPhase, h]
theorem runPhase_syn (h : s.phase = .syn) : runPhase s = phaseSyn s := by simp only [runPhase, h]
theorem runPhase_bma (h : s.phase = .bma) : runPhase s = phaseBma s := by simp only [runPhase, h]
theorem runPhase_gate (h : s.phase = .gate) : runPhase s = phaseGate s := by simp only [runPhase, h]
theorem runPhase_chien (h : s.phase = .chien) : runPhase s = phaseChien s := by simp only [runPhase, h]
theorem runPhase_forney (h : s.phase = .forney) : runPhase s = phaseForney s := by simp only [runPhase, h]
theorem runPhase_corr (h : s.phase = .corr) : runPhase s = phaseCorr s := by simp only [runPhase, h]
theorem runPhase_verify (h : s.phase = .verify) : runPhase s = phaseVerify s := by simp only [runPhase, h]

end RunPhase

/-! ### The canonical form of what the phases compute -/

theorem wf_generatorPoly (T : Tables) {nsym : Nat} (h : nsym ≤ 255) : Mem.wf (generatorPoly T nsym) = true :=
  loop_induction (fun _ m => Mem.wf m = true) nsym (genStep T) _ (Mem.wf_tabulate _) fun _ m hi hm =>
    Mem.wf_fill m _ _ _ hm (by simp only [Config.storeSize]; omega)

theorem wf_updateSigma (T : Tables) {sigma : Mem} (bpoly : Mem) (m : Nat) (q : Byte) (h : Mem.wf sigma = true) :
    Mem.wf (updateSigma T sigma bpoly m q) = true := by
  obtain hout | hin := Nat.lt_or_ge Config.storeSize m
  · have hnone : Config.storeSize - m = 0 := Nat.sub_eq_zero_of_le hout.le
    rwa [updateSigma, hnone, Mem.fill]
  · exact Mem.wf_fill _ _ _ _ h (Nat.add_sub_of_le hin).le

theorem wf_bmaStep (n : Nat) {s : State} (h : Mem.wf s.sigma = true ∧ Mem.wf s.bpoly = true) :
    Mem.wf (bmaStep n s).sigma = true ∧ Mem.wf (bmaStep n s).bpoly = true := by
  obtain ⟨hsigma, hbpoly⟩ := h
  obtain ⟨_, e⟩ | ⟨_, _, e⟩ | ⟨_, _, e⟩ := bmaStep_cases n s <;> rw [e]
  · exact ⟨hsigma, hbpoly⟩
  · exact ⟨wf_updateSigma _ _ _ _ hsigma, hsigma⟩
  · exact ⟨wf_updateSigma _ _ _ _ hsigma, hbpoly⟩

theorem wf_bmaRun (n : Nat) (s : State) : Mem.wf (bmaRun n s).sigma = true ∧ Mem.wf (bmaRun n s).bpoly = true := by
  refine loop_induction (fun _ r => Mem.wf r.sigma = true ∧ Mem.wf r.bpoly = true) n bmaStep (bmaInit s) ?_
    fun i _ _ h => wf_bmaStep i h
  simp only [bmaInit, Mem.wf_tabulate, and_self]

theorem wf_rootPositions (roots : List Nat) (n : Nat) : Mem.wf (rootPositions roots n) = true := Mem.wf_tabulate _

theorem wf_errorEvaluator (T : Tables) (synd sigma : Mem) (deg nsym : Nat) :
    Mem.wf (errorEvaluator T synd sigma deg nsym) = true := Mem.wf_tabulate _

theorem wf_magnitudeStore (mags : List (Option Byte)) : Mem.wf (magnitudeStore mags) = true := Mem.wf_tabulate _

theorem wf_synd_computeSyndromes (s : State) : Mem.wf (computeSyndromes s).synd = true := wf_syndromes _ _ _ _

/-- The seven stores beside the buffer are in canonical form. -/
def resultStoresCanonical (s : State) : Prop :=
  Mem.wf s.g = true ∧ Mem.wf s.synd = true ∧ Mem.wf s.sigma = true ∧ Mem.wf s.bpoly = true ∧ Mem.wf s.omega = true ∧
  Mem.wf s.epos = true ∧ Mem.wf s.emag = true

theorem storesCanonical_iff (s : State) : storesCanonical s ↔ Mem.wf s.cw = true ∧ resultStoresCanonical s := Iff.rfl

section ResultStores

variable {s : State} (h : resultStoresCanonical s)
include h

theorem resultStoresCanonical_computeSyndromes : resultStoresCanonical (computeSyndromes s) := by
  obtain ⟨hg, _, hrest⟩ := h
  exact ⟨hg, wf_synd_computeSyndromes s, hrest⟩

theorem resultStoresCanonical_toIdle_setOk : resultStoresCanonical (toIdle (setOk s)) := h

theorem resultStoresCanonical_toIdle_failWith (c : FailCause) : resultStoresCanonical (toIdle (failWith c s)) := h

theorem resultStoresCanonical_phaseGen : resultStoresCanonical (phaseGen s) := by
  obtain ⟨_, hrest⟩ := h
  exact ⟨wf_generatorPoly s.tables (Nat.le_of_lt_succ s.nsym.isLt), hrest⟩

theorem resultStoresCanonical_phaseSyn : resultStoresCanonical (phaseSyn s) := by
  have hsynd := resultStoresCanonical_computeSyndromes h
  obtain ⟨_, e⟩ | ⟨_, _, e⟩ := phaseSyn_cases s <;> rw [e]
  · exact resultStoresCanonical_toIdle_setOk hsynd
  · exact hsynd

theorem resultStoresCanonical_phaseBma : resultStoresCanonical (phaseBma s) := by
  obtain ⟨hg, hsynd, _, _, hrest⟩ := h
  obtain ⟨hsigma, hbpoly⟩ := wf_bmaRun s.nsym.toNat s
  rw [phaseBma_eq]
  exact ⟨hg, hsynd, hsigma, hbpoly, hrest⟩

theorem resultStoresCanonical_phaseChien : resultStoresCanonical (phaseChien s) := by
  obtain ⟨hg, hsynd, hsigma, hbpoly, homega, _, hemag⟩ := h
  obtain ⟨_, _, _, _, e⟩ := phaseChien_writes s
  rw [e]
  exact ⟨hg, hsynd, hsigma, hbpoly, homega, wf_rootPositions _ _, hemag⟩

theorem resultStoresCanonical_phaseForney : resultStoresCanonical (phaseForney s) := by
  obtain ⟨hg, hsynd, hsigma, hbpoly, _, hepos, _⟩ := h
  have hstores (emag : Mem) (hemag : Mem.wf emag = true) :
      resultStoresCanonical { s with omega := forneyOmega s, emag := emag } :=
    ⟨hg, hsynd, hsigma, hbpoly, wf_errorEvaluator _ _ _ _ _, hepos, hemag⟩
  obtain ⟨_, e⟩ | ⟨_, e⟩ := phaseForney_cases s <;> rw [e]
  · exact resultStoresCanonical_toIdle_failWith (hstores _ (Mem.wf_tabulate _)) _
  · exact hstores _ (wf_magnitudeStore _)

theorem resultStoresCanonical_phaseVerify : resultStoresCanonical (phaseVerify s) := by
  have hsynd := resultStoresCanonical_computeSyndromes h
  have hundone (u : State) (st : Status) (hu : resultStoresCanonical u) :
      resultStoresCanonical { applyMagnitudes u with errcnt := 0, status := st } := hu
  obtain ⟨_, e⟩ | ⟨_, e⟩ := phaseVerify_cases s <;> rw [e]
  · exact resultStoresCanonical_toIdle_setOk hsynd
  · exact resultStoresCanonical_toIdle_failWith (hundone _ _ hsynd) _

/-- A phase computes the stores it writes whole. -/
theorem resultStoresCanonical_runPhase : resultStoresCanonical (runPhase s) := by
  cases hp : s.phase with
  | idle => rwa [runPhase_idle hp]
  | gen => rw [runPhase_gen hp]; exact resultStoresCanonical_phaseGen h
  | div => rw [runPhase_div hp]; exact h
  | syn => rw [runPhase_syn hp]; exact resultStoresCanonical_phaseSyn h
  | bma => rw [runPhase_bma hp]; exact resultStoresCanonical_phaseBma h
  | gate =>
    obtain ⟨_, _, _, _, e⟩ := phaseGate_writes s
    rw [runPhase_gate hp, e]
    exact h
  | chien => rw [runPhase_chien hp]; exact resultStoresCanonical_phaseChien h
  | forney => rw [runPhase_forney hp]; exact resultStoresCanonical_phaseForney h
  | corr =>
    obtain ⟨_, _, _, _, e⟩ := phaseCorr_writes s
    rw [runPhase_corr hp, e]
    exact h
  | verify => rw [runPhase_verify hp]; exact resultStoresCanonical_phaseVerify h

end ResultStores

theorem stepInvariant_storesCanonical : StepInvariant storesCanonical where
  host _ _ _ h := h
  config _ _ _ h := h
  buffer s a v ha h := ⟨Mem.wf_write s.cw a v h.1 ha, h.2⟩
  result _ _ h := h
  sequencer _ _ _ h := h
  corrections _ h := h
  raise _ _ _ _ h := by
    simpa only [storesCanonical, raiseFault_cw, raiseFault_g, raiseFault_synd, raiseFault_sigma, raiseFault_bpoly,
      raiseFault_omega, raiseFault_epos, raiseFault_emag] using h
  clear _ h := h
  reset _ := ⟨rfl, rfl, rfl, rfl, rfl, rfl, rfl, rfl⟩
  phase s hc h := by
    obtain ⟨hcw, hresults⟩ := (storesCanonical_iff s).mp h
    exact (storesCanonical_iff _).mpr ⟨wf_cw_runPhase hcw hc, resultStoresCanonical_runPhase hresults⟩

/-- Settles O53: a host write goes to one of the 256 bytes, and every phase leaves the stores it writes in canonical form. -/
theorem stepKeepsStoresCanonical : Obligations.StepKeepsStoresCanonical :=
  fun _ _ hstep hs => stepInvariant_storesCanonical.keeps_step hstep hs

/-! ### The phase table -/

/-- A step of a legal block with no host operation pending runs the phase that `PHASE` names, none when it is idle. -/
theorem step_eq_runPhase {s : State} (hscript : s.script = []) (hc : ¬ configIllegal s) :
    step s = .next (runPhase s) := by
  obtain ⟨_, hidle, e⟩ | ⟨_, hillegal, _⟩ | ⟨_, _, e⟩ | ⟨_, _, hpending, _⟩ := step_cases s
  · have hwait : runPhase s = s := by simp only [runPhase, hidle]
    rw [e, hwait]
  · exact absurd hillegal hc
  · exact e
  · exact absurd (hpending.symm.trans hscript) (List.cons_ne_nil _ _)

/-- The command has ended with `OK`. -/
def EndsOk (t : State) : Prop := t.phase = .idle ∧ t.status.result = .ok ∧ t.status.cause = .none

/-- The command has ended with `FAIL` and the cause. -/
def EndsWith (cause : FailCause) (t : State) : Prop :=
  t.phase = .idle ∧ t.status.result = .fail ∧ t.status.cause = cause

theorem endsOk_toIdle_setOk (s : State) : EndsOk (toIdle (setOk s)) := ⟨rfl, rfl, rfl⟩

theorem endsWith_toIdle_failWith (cause : FailCause) (s : State) : EndsWith cause (toIdle (failWith cause s)) :=
  ⟨rfl, rfl, rfl⟩

theorem phaseSyn_successor (s : State) :
    (EndsOk (phaseSyn s) ∧ (s.chain = true → (phaseSyn s).status.szero = true)) ∨
    (s.chain = true ∧ (phaseSyn s).phase = .bma ∧ (phaseSyn s).status.szero = false) := by
  obtain ⟨hor, e⟩ | ⟨hchain, hz, e⟩ := phaseSyn_cases s <;> rw [e]
  · refine .inl ⟨endsOk_toIdle_setOk _, fun hchain => ?_⟩
    obtain hc | hz := hor
    · exact absurd (hchain.symm.trans hc) (by decide)
    · exact hz
  · exact .inr ⟨hchain, rfl, hz⟩

theorem phaseGate_successor (s : State) :
    (s.nsym.toNat < 2 * s.deg.toNat ∧ EndsWith .tooManyErrors (phaseGate s)) ∨
    (2 * s.deg.toNat ≤ s.nsym.toNat ∧ s.chain = true ∧ (phaseGate s).phase = .chien) ∨
    (2 * s.deg.toNat ≤ s.nsym.toNat ∧ s.chain = false ∧ EndsOk (phaseGate s)) := by
  obtain ⟨h, e⟩ | ⟨h, hc, e⟩ | ⟨h, hc, e⟩ := phaseGate_cases s <;> rw [e]
  · exact .inl ⟨h, endsWith_toIdle_failWith _ _⟩
  · exact .inr (.inl ⟨h, hc, rfl⟩)
  · exact .inr (.inr ⟨h, hc, endsOk_toIdle_setOk _⟩)

theorem phaseChien_successor (s : State) :
    ((phaseChien s).nroot ≠ (phaseChien s).deg ∧ EndsWith .tooManyErrors (phaseChien s)) ∨
    ((phaseChien s).nroot = (phaseChien s).deg ∧ s.chain = true ∧ (phaseChien s).phase = .forney) ∨
    ((phaseChien s).nroot = (phaseChien s).deg ∧ s.chain = false ∧ EndsOk (phaseChien s)) := by
  obtain ⟨h, e⟩ | ⟨h, hc, e⟩ | ⟨h, hc, e⟩ := phaseChien_cases s <;> rw [e]
  · exact .inl ⟨h, endsWith_toIdle_failWith _ _⟩
  · exact .inr (.inl ⟨h, hc, rfl⟩)
  · exact .inr (.inr ⟨h, hc, endsOk_toIdle_setOk _⟩)

theorem phaseForney_successor (s : State) :
    (degenerate s = true ∧ EndsWith .degenerateLocator (phaseForney s)) ∨
    (degenerate s = false ∧ (phaseForney s).phase = .corr) := by
  obtain ⟨h, e⟩ | ⟨h, e⟩ := phaseForney_cases s <;> rw [e]
  · exact .inl ⟨h, endsWith_toIdle_failWith _ _⟩
  · exact .inr ⟨h, rfl⟩

/-- A listed position makes the locator degenerate where it lies outside the codeword or the derivative is 0 (rule R172). -/
theorem degenerate_iff_exists (s : State) : degenerate s = true ↔ ∃ k, k < s.nroot.toNat ∧
    (codewordLen s ≤ (Mem.read s.epos k).toNat ∨ derivativeAt s.tables s.sigma s.deg.toNat
      (alphaInv s.tables (codewordLen s - 1 - (Mem.read s.epos k).toNat)) = 0) := by
  rw [degenerate_iff]
  exact exists_congr fun k => and_congr_right fun _ => magnitudeAt_eq_none_iff ..

theorem phaseCorr_successor (s : State) :
    (s.chain = true ∧ (phaseCorr s).phase = .verify) ∨ (s.chain = false ∧ EndsOk (phaseCorr s)) := by
  obtain ⟨hc, e⟩ | ⟨hc, e⟩ := phaseCorr_cases s <;> rw [e]
  · exact .inl ⟨hc, rfl⟩
  · exact .inr ⟨hc, endsOk_toIdle_setOk _⟩

theorem phaseVerify_successor (s : State) :
    ((phaseVerify s).status.szero = true ∧ EndsOk (phaseVerify s)) ∨
    ((phaseVerify s).status.szero = false ∧ EndsWith .verificationFailed (phaseVerify s)) := by
  obtain ⟨hz, e⟩ | ⟨hz, e⟩ := phaseVerify_cases s <;> rw [e]
  · exact .inl ⟨hz, endsOk_toIdle_setOk _⟩
  · exact .inr ⟨hz, endsWith_toIdle_failWith _ _⟩

/-- `CHAIN` stays while the command goes on (rule R177). -/
theorem chain_runPhase {s : State} (h : (runPhase s).phase ≠ .idle) : (runPhase s).chain = s.chain := by
  unfold runPhase at h ⊢
  cases hp : s.phase with
  | idle => rfl
  | gen => rfl
  | div => simp [hp, phaseDiv_eq] at h
  | syn => obtain ⟨_, e⟩ | ⟨_, _, e⟩ := phaseSyn_cases s <;> simp [hp, e, computeSyndromes_eq] at h ⊢
  | bma => simp [phaseBma_eq s]
  | gate => obtain ⟨_, e⟩ | ⟨_, _, e⟩ | ⟨_, _, e⟩ := phaseGate_cases s <;> simp [hp, e] at h ⊢
  | chien => obtain ⟨_, e⟩ | ⟨_, _, e⟩ | ⟨_, _, e⟩ := phaseChien_cases s <;> simp [hp, e] at h ⊢
  | forney => obtain ⟨_, e⟩ | ⟨_, e⟩ := phaseForney_cases s <;> simp [hp, e] at h ⊢
  | corr => obtain ⟨_, e⟩ | ⟨_, e⟩ := phaseCorr_cases s <;> simp [hp, e, applyMagnitudes_eq] at h ⊢
  | verify => obtain ⟨_, e⟩ | ⟨_, e⟩ := phaseVerify_cases s <;> simp [hp, e] at h

/-- Settles O12: the clauses of each phase from the lemma on its successors. -/
theorem phaseSuccessors : Obligations.PhaseSuccessors := by
  intro s hscript hlegal
  refine ⟨runPhase s, step_eq_runPhase hscript (Nat.not_lt.mpr hlegal), runPhase_idle, fun hp => ?gen, fun hp => ?div,
    fun hp hchain => ?synChained, fun hp hchain => ?synAlone, fun hp hidle => ?synVerdict, fun hp => ?bma,
    fun hp hdeg => ?gateFails, fun hp hdeg hchain => ?gateChained, fun hp hdeg hchain => ?gateAlone,
    fun hp hcount => ?chienFails, fun hp hcount hchain => ?chienChained, fun hp hcount hchain => ?chienAlone,
    fun hp => ?forney, fun hp hchain => ?corrChained, fun hp hchain => ?corrAlone, fun hp => ?verify,
    fun hbusy hidle => ?chainEnds, chain_runPhase⟩
  case gen => rw [runPhase_gen hp]; rfl
  case div => rw [runPhase_div hp]; rfl
  case synChained =>
    rw [runPhase_syn hp]
    obtain ⟨⟨hidle, _⟩, hz⟩ | ⟨_, hbma, hz⟩ := phaseSyn_successor s
    · rw [hidle, if_pos (hz hchain)]
    · rw [hbma, if_neg (by rw [hz]; decide)]
  case synAlone =>
    rw [runPhase_syn hp]
    obtain ⟨⟨hidle, _⟩, _⟩ | ⟨hc, _⟩ := phaseSyn_successor s
    · exact hidle
    · exact absurd (hc.symm.trans hchain) (by decide)
  case synVerdict =>
    rw [runPhase_syn hp] at hidle ⊢
    obtain ⟨⟨_, hverdict⟩, _⟩ | ⟨_, hbma, _⟩ := phaseSyn_successor s
    · exact hverdict
    · exact absurd (hbma.symm.trans hidle) (by decide)
  case bma => rw [runPhase_bma hp, phaseBma_eq]
  case gateFails =>
    rw [runPhase_gate hp]
    obtain ⟨_, h⟩ | ⟨hle, _⟩ | ⟨hle, _⟩ := phaseGate_successor s
    · exact h
    all_goals exact absurd hdeg (Nat.not_lt.mpr hle)
  case gateChained =>
    rw [runPhase_gate hp]
    obtain ⟨hlt, _⟩ | ⟨_, _, h⟩ | ⟨_, hc, _⟩ := phaseGate_successor s
    · exact absurd hdeg (Nat.not_le.mpr hlt)
    · exact h
    · exact absurd (hc.symm.trans hchain) (by decide)
  case gateAlone =>
    rw [runPhase_gate hp]
    obtain ⟨hlt, _⟩ | ⟨_, hc, _⟩ | ⟨_, _, h⟩ := phaseGate_successor s
    · exact absurd hdeg (Nat.not_le.mpr hlt)
    · exact absurd (hc.symm.trans hchain) (by decide)
    · exact h
  case chienFails =>
    rw [runPhase_chien hp] at hcount ⊢
    obtain ⟨_, h⟩ | ⟨heq, _⟩ | ⟨heq, _⟩ := phaseChien_successor s
    · exact h
    all_goals exact absurd heq hcount
  case chienChained =>
    rw [runPhase_chien hp] at hcount ⊢
    obtain ⟨hne, _⟩ | ⟨_, _, h⟩ | ⟨_, hc, _⟩ := phaseChien_successor s
    · exact absurd hcount hne
    · exact h
    · exact absurd (hc.symm.trans hchain) (by decide)
  case chienAlone =>
    rw [runPhase_chien hp] at hcount ⊢
    obtain ⟨hne, _⟩ | ⟨_, hc, _⟩ | ⟨_, _, h⟩ := phaseChien_successor s
    · exact absurd hcount hne
    · exact absurd (hc.symm.trans hchain) (by decide)
    · exact h
  case forney =>
    intro n pos bad
    have hbad : degenerate s = true ↔ bad := degenerate_iff_exists s
    rw [runPhase_forney hp]
    obtain ⟨hdeg, h⟩ | ⟨hdeg, h⟩ := phaseForney_successor s
    · exact ⟨fun _ => h, fun hnot => absurd (hbad.mp hdeg) hnot⟩
    · exact ⟨fun hb => absurd ((hbad.mpr hb).symm.trans hdeg) (by decide), fun _ => h⟩
  case corrChained =>
    rw [runPhase_corr hp]
    obtain ⟨_, h⟩ | ⟨hc, _⟩ := phaseCorr_successor s
    · exact h
    · exact absurd (hc.symm.trans hchain) (by decide)
  case corrAlone =>
    rw [runPhase_corr hp]
    obtain ⟨hc, _⟩ | ⟨_, h⟩ := phaseCorr_successor s
    · exact absurd (hc.symm.trans hchain) (by decide)
    · exact h
  case verify =>
    rw [runPhase_verify hp]
    obtain ⟨hz, hidle, hverdict⟩ | ⟨hz, hidle, hverdict⟩ := phaseVerify_successor s
    · exact ⟨hidle, .inl ⟨hz, hverdict⟩⟩
    · exact ⟨hidle, .inr ⟨hz, hverdict⟩⟩
  case chainEnds =>
    obtain ⟨_, hchain⟩ | ⟨hgoes, _⟩ := runPhase_progress hbusy
    · exact hchain
    · exact absurd hidle hgoes

end Sys2Proof.Machine
